-- ==== Sys2Proof/Word.lean ====
section
/-! DEFINITION. The word of the core: 32 bits, read as an IEEE 754 binary32 value (type `F`) or as an
unsigned number (type `u32`), 00_scope.md R11; and the byte of a port binding, 20_memory.md R51. -/

namespace Sys2Proof

/-- A 32-bit word: a command word, an operand word, a result word, a word of the table (R11, R70). -/
abbrev Word := BitVec 32

/-- A 32-bit word read as an IEEE 754-2019 binary32 value (00_scope.md R11). -/
abbrev F := Word

/-- A byte, only where a port binding serialises a word (20_memory.md R51). -/
abbrev Byte := BitVec 8

end Sys2Proof
end

