-- ==== Sys2Proof/Config.lean ====
section
/-! DEFINITION. The implementation parameters of 00_scope.md R8 that a model takes (92_eei_decisions.md,
"Parameters left open"), with the defaults the spec gives them. They are plain data held by the state, so that a
statement about every state is a statement about every implementation. `LAT` is not modelled (R251) and
`HOST_DIR_MAP` is the host's (R128). -/

namespace Sys2Proof

/-- The parameters of one implementation (00_scope.md R8).

`sinWords` is the parameter function `SIN_TABLE(L, i)` of 40_wavetable.md R100 as data: it lists the words
an implementation stores for a length and an index where they differ from the default
RNE(sin(2π·i/L)). Lengths are at most `lMax`, so every parameter function can be listed. -/
structure Config where
  /-- `L_MAX`, the largest table length the table memory holds (D8). -/
  lMax : Nat
  /-- `BS_MAX`, the largest block size (D16). -/
  bsMax : Nat
  /-- The words of `SIN_TABLE` that differ from the default, by (length, index) (D7). -/
  sinWords : List ((Nat × Nat) × F)
  deriving DecidableEq, Repr

/-- The defaults of 00_scope.md R8: `L_MAX` 4096, `BS_MAX` 65536, and the default `SIN_TABLE`. -/
def Config.default : Config := { lMax := 4096, bsMax := 65536, sinWords := [] }

/-- The bound `L_MAX ≤ 2^22` of 00_scope.md R8. -/
def Config.lMaxBound : Nat := 2 ^ 22

/-- The bound `BS_MAX ≤ 2^24` of 00_scope.md R8. -/
def Config.bsMaxBound : Nat := 2 ^ 24

end Sys2Proof
end

