-- ==== Sys2Proof/Syntax.lean ====
section
/-! DEFINITION. The syntax: the thirteen commands of 30_encoding.md R78, one constructor per row of the opcode
table, the command as it stands on the port (R70), and the pseudo-instructions of R82. -/

namespace Sys2Proof

/-- The axis field AX (R72): 0 selects T (theta, azimuth), 1 selects P (phi, elevation). -/
inductive Axis where
  | theta
  | phi
  deriving DecidableEq, Repr

/-- The phase branch PB (R72): 0 the direct (sine) branch, 1 the quarter-offset (cosine) branch. -/
inductive Phase where
  | direct
  | quarter
  deriving DecidableEq, Repr

/-- The ramp instance RI (R72): 0 is R[0], azimuth; 1 is R[1], elevation. -/
inductive RampId where
  | az
  | el
  deriving DecidableEq, Repr

/-- The commands of 30_encoding.md R78. An operand of type `F` is an operand word read as binary32, one of type
`Word` is read as u32 (R73); the channel index is the natural number `zext(CMD[15:8])` (R76, R40). -/
inductive Instr where
  /-- NOP, format N, 44_system.md R196. -/
  | nop
  /-- BUILD n, format U, 40_wavetable.md R101. -/
  | build (n : Word)
  /-- LKSIN x, format F1, 40_wavetable.md R104. -/
  | lksin (x : F)
  /-- LKCOS x, format F1, 40_wavetable.md R105. -/
  | lkcos (x : F)
  /-- INIT theta, phi, format F2, 41_direction.md R121. -/
  | init (theta phi : F)
  /-- CHG theta, phi, format F2, 41_direction.md R122. -/
  | chg (theta phi : F)
  /-- MATRD ax, p, q, format M, 41_direction.md R124. -/
  | matrd (ax : Axis) (p : Phase) (q : Fin 3)
  /-- CHAN k, sample, format C, 42_harmonic.md R141. -/
  | chan (k : Nat) (sample : F)
  /-- RNEW r, n, format RU, 43_ramp.md R170. -/
  | rnew (r : RampId) (n : Word)
  /-- RPROC r, x, format RF, 43_ramp.md R172. -/
  | rproc (r : RampId) (x : F)
  /-- DIRSTEP az, el, format F2, 44_system.md R190. -/
  | dirstep (azimuth elevation : F)
  /-- RDSTAT, format N, 44_system.md R193. -/
  | rdstat
  /-- CLRERR, format N, 44_system.md R195. -/
  | clrerr
  deriving DecidableEq, Repr

/-- A command on the command port: the command word and the two operand words (30_encoding.md R70). -/
structure Command where
  cmd : Word
  opa : Word
  opb : Word
  deriving DecidableEq, Repr

/-- The pseudo-instructions of 30_encoding.md R82. -/
inductive Pseudo where
  | enc16 (sample : F)
  | rnew2 (n : Word)
  | setup (len blockSize : Word) (theta phi : F)
  | sample (azimuth elevation sample : F)
  deriving DecidableEq, Repr

end Sys2Proof
end

