-- ==== Sys2Proof/Machine/State.lean ====
section
/-! DEFINITION. The state of the core: every piece of state 10_state.md names, the implementation parameters of
00_scope.md R8, and three fields of the model's own (the host's remaining actions, the response port, the command
position). Plain data. -/

namespace Sys2Proof.Machine

/-- The cause codes of a rejected command, 60_exceptions.md R210. -/
inductive Cause where
  | illegal
  | order
  | config
  | channel
  | nonfinite
  deriving DecidableEq, Repr

/-- The response to one command (30_encoding.md R77): success with the result words RA and RB, or a rejection, which
carries no result word. -/
inductive Response where
  | ok (ra rb : Word)
  | rejected (c : Cause)
  deriving DecidableEq, Repr

/-- What the host can do to the core, the rows of 60_exceptions.md R226 that send something to it. -/
inductive HostAction where
  /-- Issue a command and wait for its response (R54, R70). -/
  | command (c : Command)
  /-- Assert and release `rst` between commands (70_reset_and_hazards.md R240). -/
  | reset
  /-- Issue a command and assert `rst` before its response (R241). -/
  | resetDuring (c : Command)
  deriving DecidableEq, Repr

/-- The table memory TBL (10_state.md R25): pairs of a word index and the word it holds, indices strictly
rising. An index that is not listed holds no value (R38). -/
abbrev Memory := List (Nat × Word)

/-- One matrix of DirectionState, `M[p][q]` (10_state.md R26): `d0 d1 d2` are `M[0][0..2]`, the direct branch,
`q0 q1 q2` are `M[1][0..2]`, the quarter-offset branch. -/
structure AxisMatrix where
  d0 : F
  d1 : F
  d2 : F
  q0 : F
  q1 : F
  q2 : F
  deriving DecidableEq, Repr

/-- What DirectionState holds once it is initialised: the matrices T and P (10_state.md R26, R27) and the baselines
THB and PHB (R28). -/
structure Direction where
  t : AxisMatrix
  p : AxisMatrix
  thb : F
  phb : F
  deriving DecidableEq, Repr

/-- The fields of one ramp instance, 10_state.md R30; `ramping` is the state Ramping of R31. -/
structure Ramp where
  cfg : Bool
  bs : Word
  pin : F
  pout : F
  inc : F
  rem : Word
  ramping : Bool
  deriving DecidableEq, Repr

/-- A ramp after reset, the reset column of 10_state.md R30. -/
def Ramp.reset : Ramp :=
  { cfg := false, bs := 0, pin := 0, pout := 0, inc := 0, rem := 0, ramping := false }

/-- Why the machine stops. The core itself has no fault state (60_exceptions.md R214): no run from reset meets
one. -/
inductive Fault where
  /-- Raised by a read of a table word that holds no value (10_state.md R25, 20_memory.md R57). Safe: the model stops where
  the spec gives no value, which happens only in a start state that breaks 10_state.md R35 (R242). -/
  | tableWordAbsent
  deriving DecidableEq, Repr

/-- Why the model gives an instruction no meaning. -/
inductive Refusal where
  /-- Raised by an arm of `exec` whose instruction has no meaning yet. Safe: the model stops. No arm raises it. -/
  | notModelled (mnemonic : String)
  deriving DecidableEq, Repr

/-- The state of the core (10_state.md R22 to R31).

`dir` is DirectionState: `none` while DINIT = 0, when T, P, THB and PHB hold no value (R29, R38). BUILT and the other
bits STATUS[5:0] are computed, not stored (R23, R24). -/
structure State where
  /-- The implementation parameters (00_scope.md R8); nothing writes them. -/
  cfg : Config
  /-- TLEN, the length of the built table, 0 before BUILD (R24). -/
  tlen : Word
  /-- TBL, the table memory (R25). -/
  tbl : Memory
  /-- T, P, THB, PHB and, by its presence, DINIT (R26 to R29). -/
  dir : Option Direction
  /-- R[0], the azimuth ramp (R30). -/
  ramp0 : Ramp
  /-- R[1], the elevation ramp (R30). -/
  ramp1 : Ramp
  /-- STATUS[12:8], the sticky bits of causes 1 to 5 (R22, R23). -/
  sticky : BitVec 5
  /-- STATUS[19:16], LASTCAUSE (R22, R23). -/
  lastCause : BitVec 4
  /-- The MODEL's: the host's remaining actions, the next first (60_exceptions.md R226, R229). -/
  pending : List HostAction
  /-- The MODEL's: the response that the step which left this state returned (R39, 30_encoding.md R77), none if it
  returned none. No step keeps it: the next one drops it first. -/
  response : Option Response
  /-- The MODEL's: the position of the next command (R21). -/
  position : Nat
  deriving DecidableEq, Repr

/-- The machine right after reset (10_state.md R38, 70_reset_and_hazards.md R240), with the default parameters of
00_scope.md R8 and no host action waiting. -/
def State.reset : State :=
  { cfg := Config.default
    tlen := 0
    tbl := []
    dir := none
    ramp0 := Ramp.reset
    ramp1 := Ramp.reset
    sticky := 0
    lastCause := 0
    pending := []
    response := none
    position := 0 }

end Sys2Proof.Machine
end

