-- ==== Sys2Proof/Machine/Flags.lean ====
section
/-! DEFINITION. The STATUS register, 10_state.md R22 and R23: the cause codes, the sticky bits, and the word that RDSTAT
returns. The core has no condition codes and keeps no IEEE flags (R37). -/

namespace Sys2Proof.Machine

/-- The cause code of 60_exceptions.md R210, as LASTCAUSE and CODE carry it. -/
def causeCode : Cause → BitVec 4
  | .illegal => 1
  | .order => 2
  | .config => 3
  | .channel => 4
  | .nonfinite => 5

/-- The sticky bit of a cause within STATUS[12:8]: bit 7 + c of STATUS is the bit of code c (R22). -/
def stickyBit : Cause → BitVec 5
  | .illegal => 0b00001
  | .order => 0b00010
  | .config => 0b00100
  | .channel => 0b01000
  | .nonfinite => 0b10000

/-- CODE of a response, 30_encoding.md R77: 0 for success, else the cause code. -/
def responseCode : Response → BitVec 4
  | .ok _ _ => 0
  | .rejected c => causeCode c

/-- BUILT, STATUS bit 0: 1 exactly when TLEN ≠ 0 (10_state.md R24). -/
def State.built (s : State) : Bool := s.tlen != 0

/-- DINIT, STATUS bit 1: DirectionState holds its values (R29). -/
def State.dinit (s : State) : Bool := s.dir.isSome

/-- STATUS (R22): bits 5:0 mirror the state (R23), bits 12:8 and 19:16 are stored, the others read as 0. -/
def State.status (s : State) : Word :=
  0#12 ++ s.lastCause ++ 0#3 ++ s.sticky ++ 0#2
    ++ BitVec.ofBool s.ramp1.ramping ++ BitVec.ofBool s.ramp0.ramping
    ++ BitVec.ofBool s.ramp1.cfg ++ BitVec.ofBool s.ramp0.cfg
    ++ BitVec.ofBool s.dinit ++ BitVec.ofBool s.built

end Sys2Proof.Machine
end

