-- ==== Sys2Proof/Machine/Binary32.lean ====
section
/-! DEFINITION. The numeric primitives of 00_scope.md R14: IEEE 754-2019 binary32, round to nearest with ties to
even, subnormals kept, every NaN result the canonical one. A finite value is handled exactly, as a whole number of
units of 2^-149, the smallest positive subnormal; one function, `roundMag`, does every rounding. -/

namespace Sys2Proof.Machine

/-- The canonical quiet NaN of R14. -/
def canonicalNaN : F := 0x7FC00000

/-- The magnitude bits of +Infinity. -/
def infMag : Nat := 0x7F800000

/-- The sign bit of a binary32 word. -/
def isNeg (x : F) : Bool := x.getLsbD 31

/-- The bits of a binary32 word below the sign. -/
def mag (x : F) : Nat := x.toNat % 2 ^ 31

/-- `isFinite(a)` is false exactly for ±Infinity and NaN (R14). -/
def isFinite (x : F) : Bool := decide (mag x < infMag)

/-- ±Infinity. -/
def isInf (x : F) : Bool := decide (mag x = infMag)

/-- Any NaN. -/
def isNaN (x : F) : Bool := decide (infMag < mag x)

/-- ±0.0. -/
def isZero (x : F) : Bool := decide (mag x = 0)

/-- The word with a given sign and given magnitude bits. -/
def pack (neg : Bool) (m : Nat) : F := BitVec.ofNat 32 (m + if neg then 2 ^ 31 else 0)

/-- The number of units of 2^-149 that the magnitude bits of a finite value stand for: a subnormal or a value of
the first normal binade is its own bits; from there each exponent doubles. -/
def unitsOfMag (m : Nat) : Nat :=
  if m < 2 ^ 24 then m else (2 ^ 23 + m % 2 ^ 23) * 2 ^ (m / 2 ^ 23 - 1)

/-- The exact value of a finite `x`, in units of 2^-149. -/
def units (x : F) : Int :=
  if isNeg x then -(unitsOfMag (mag x) : Int) else (unitsOfMag (mag x) : Int)

/-- The exact value of a finite `x` as a rational number. -/
def valueOf (x : F) : ℚ := (units x : ℚ) / 2 ^ 149

/-- The natural number nearest to `n / d`, the even one of two equally near (`d` is positive). -/
def nearestEven (n d : Nat) : Nat :=
  let q := n / d
  let r := n % d
  if 2 * r < d then q else if d < 2 * r then q + 1 else q + q % 2

/-- The magnitude bits of RNE of `n / d` units of 2^-149. `e` is how many binades the value lies above the first
normal one; a rounding that carries out of a binade lands on the bits of the next, and past the last of them on
Infinity. -/
def roundMag (n d : Nat) : Nat :=
  let e := Nat.log2 (n / d) - 23
  min infMag (e * 2 ^ 23 + nearestEven n (d * 2 ^ e))

/-- RNE of `±(n / d)` units of 2^-149; a zero takes the given sign. -/
def rneSigned (neg : Bool) (n d : Nat) : F := pack neg (roundMag n d)

/-- `RNE(r)` of R14 for a real r of `k` units of 2^-149; `RNE(0)` is +0.0. -/
def rneUnits (k : Int) : F := rneSigned (decide (k < 0)) k.natAbs 1

/-- `RNE(r)` of R14 for a rational real r. -/
def rneRat (r : ℚ) : F := rneSigned (decide (r < 0)) (r.num.natAbs * 2 ^ 149) r.den

/-- `toF(n)` of R14: RNE of a natural number. -/
def toF (n : Nat) : F := rneSigned false (n * 2 ^ 149) 1

/-- `fadd(a, b)` of R14. -/
def fadd (a b : F) : F :=
  if isNaN a || isNaN b then canonicalNaN
  else if isInf a then
    if isInf b && isNeg a != isNeg b then canonicalNaN else a
  else if isInf b then b
  else if isZero a && isZero b then pack (isNeg a && isNeg b) 0
  else rneUnits (units a + units b)

/-- The word with the sign bit flipped. -/
def fneg (x : F) : F := x ^^^ 0x80000000

/-- `fsub(a, b)` of R14. -/
def fsub (a b : F) : F := fadd a (fneg b)

/-- `fmul(a, b)` of R14. -/
def fmul (a b : F) : F :=
  let neg := isNeg a != isNeg b
  if isNaN a || isNaN b then canonicalNaN
  else if isInf a || isInf b then
    if isZero a || isZero b then canonicalNaN else pack neg infMag
  else rneSigned neg (unitsOfMag (mag a) * unitsOfMag (mag b)) (2 ^ 149)

/-- `fdiv(a, b)` of R14. -/
def fdiv (a b : F) : F :=
  let neg := isNeg a != isNeg b
  if isNaN a || isNaN b then canonicalNaN
  else if isInf a then
    if isInf b then canonicalNaN else pack neg infMag
  else if isInf b then pack neg 0
  else if isZero b then
    if isZero a then canonicalNaN else pack neg infMag
  else rneSigned neg (unitsOfMag (mag a) * 2 ^ 149) (unitsOfMag (mag b))

/-- `fneq(a, b)` of R14, the quiet not-equal comparison: true when either operand is NaN, false for +0.0
against -0.0. -/
def fneq (a b : F) : Bool :=
  if isNaN a || isNaN b then true
  else if isZero a && isZero b then false
  else a != b

/-- `floor(w)` of R14 for a finite non-negative w. -/
def floorF (w : F) : Nat := unitsOfMag (mag w) / 2 ^ 149

/-- A finite value in [-1.0, 1.0]. -/
def inUnit (x : F) : Bool := decide (mag x ≤ 0x3F800000)

end Sys2Proof.Machine
end

