-- ==== Sys2Proof/Machine/Operands.lean ====
section
/-! DEFINITION. How a command's fields and operand words select and read: a u32 operand (30_encoding.md R73), the ramp of
RI, the matrix of AX and its entry of PB and QO (R72), and the table length as the numbers the rules use. An F operand is
the operand word itself (R73), and needs no function. -/

namespace Sys2Proof.Machine

/-- A u32 operand or register as a natural number, `zext_32` (30_encoding.md R73, R76). -/
def u32 (w : Word) : Nat := w.toNat

/-- R[r], the ramp that field RI selects (R72). -/
def State.ramp (s : State) : RampId → Ramp
  | .az => s.ramp0
  | .el => s.ramp1

/-- The matrix that field AX selects: T or P (R72). -/
def Direction.matrix (d : Direction) : Axis → AxisMatrix
  | .theta => d.t
  | .phi => d.p

/-- `M[p][q]`, the entry that fields PB and QO select (10_state.md R26). -/
def AxisMatrix.entry (m : AxisMatrix) : Phase → Fin 3 → F
  | .direct, 0 => m.d0
  | .direct, 1 => m.d1
  | .direct, 2 => m.d2
  | .quarter, 0 => m.q0
  | .quarter, 1 => m.q1
  | .quarter, 2 => m.q2

/-- The literals 1.0, 2.0, 3.0, 4.0 and 5.0 of 00_scope.md R14. -/
def fOne : F := 0x3F800000

/-- 2.0. -/
def fTwo : F := 0x40000000

/-- 3.0. -/
def fThree : F := 0x40400000

/-- 4.0. -/
def fFour : F := 0x40800000

/-- 5.0. -/
def fFive : F := 0x40A00000

/-- The table length L as a natural number (40_wavetable.md R103). -/
def State.tableLen (s : State) : Nat := u32 s.tlen

/-- The quarter offset `Q = fdiv(toF(TLEN), 4.0)` of 40_wavetable.md R102. -/
def State.quarterOffset (s : State) : F := fdiv (toF s.tableLen) fFour

end Sys2Proof.Machine
end

