-- ==== Sys2Proof/Machine/SinTable.lean ====
section
/-! DEFINITION. The parameter function SIN_TABLE(L, i) of 40_wavetable.md R100: the words an implementation lists in
its configuration, else the default, RNE(sin(2π·i/L)). The default is computed with whole numbers, in units of
2^-192. -/

namespace Sys2Proof.Machine

/-- 1.0 in the units of the sine series. -/
def sinOne : Nat := 2 ^ 192

/-- π in units of 2^-192, rounded down. -/
def piUnits : Nat := 0x3243f6a8885a308d313198a2e03707344a4093822299f31d0

/-- `n` factors of the sine series from the k-th on, nested, in units of 2^-192:
1 - x²/(2k(2k+1))·(1 - x²/((2k+2)(2k+3))·(...)), for x² given. -/
def sinSeries (xx : Nat) : Nat → Nat → Nat
  | 0, _ => sinOne
  | n + 1, k => sinOne - xx * sinSeries xx n (k + 1) / sinOne / (2 * k * (2 * k + 1))

/-- sin(π/2 · a/len) in units of 2^-192, for 0 ≤ a ≤ len, by 28 terms of the series; never above 1.0. -/
def quarterSin (len a : Nat) : Nat :=
  let x := piUnits * a / (2 * len)
  min sinOne (x * sinSeries (x * x / sinOne) 28 1 / sinOne)

/-- |sin(2π·i/len)| in units of 2^-192: the angle is reduced to the first quarter, exactly. -/
def sinUnits (len i : Nat) : Nat :=
  let r := 4 * i % len
  if (4 * i / len) % 2 = 0 then quarterSin len r else quarterSin len (len - r)

/-- The default SIN_TABLE(len, i) of R100: sin(2π·i/len) rounded to binary32, an exact zero stored as +0.0. -/
def defaultSin (len i : Nat) : F :=
  let s := sinUnits len i
  if s = 0 then 0 else rneSigned (decide (2 ≤ 4 * i / len)) s (2 ^ 43)

/-- The error allowed to `sinUnits`, in its units. -/
def sinSlack : Nat := 2 ^ 8

/-- The rounding of `defaultSin` cannot be in doubt: every value within `sinSlack` of `sinUnits` rounds to the same
magnitude. -/
def sinDecided (len i : Nat) : Bool :=
  roundMag (sinUnits len i - sinSlack) (2 ^ 43) == roundMag (sinUnits len i + sinSlack) (2 ^ 43)

/-- `SIN_TABLE(len, i)` of R100, 92_eei_decisions.md D7. -/
def sinTable (cfg : Config) (len i : Nat) : F :=
  match cfg.sinWords.lookup (len, i) with
  | some w => w
  | none => defaultSin len i

end Sys2Proof.Machine
end

