-- ==== Sys2Proof/Machine/Ops.lean ====
section
/-! DEFINITION. The named operations every command is written with: the control primitives `raise` and `respond` of
00_scope.md R15, the rejection of 60_exceptions.md R214 (what this core has in place of taking an exception: it returns from
none, R219), the table memory of 20_memory.md, and the writes of a ramp and of DirectionState. -/

namespace Sys2Proof.Machine

/-- What ends a command early: `raise E(c)` of R15, or the machine's one fault. -/
inductive Raise where
  | cause (c : Cause)
  | fault (f : Fault)
  deriving DecidableEq, Repr

/-- What a command has staged when it ends with `respond(ra, rb)` (R15): the state with its writes, and the result
words. -/
structure Staged where
  state : State
  ra : Word
  rb : Word
  deriving DecidableEq, Repr

/-- `if b: raise E(c)`. -/
def raiseIf (b : Bool) (c : Cause) : Except Raise Unit :=
  if b then .error (.cause c) else .ok ()

/-- A successful response (R15, 30_encoding.md R77). -/
def State.respond (s : State) (ra rb : Word) : State := { s with response := some (.ok ra rb) }

/-- `reject(c)` of 60_exceptions.md R214: the sticky bit, LASTCAUSE and a response without result words. -/
def State.reject (s : State) (c : Cause) : State :=
  { s with
    sticky := s.sticky ||| stickyBit c
    lastCause := causeCode c
    response := some (.rejected c) }

/-- The end of a command that ran from `s` (R15): a success commits what it staged; a `raise` discards it and
rejects the command (R214). -/
def finish (s : State) : Except Raise Staged → Host.Outcome State Fault Refusal
  | .ok r => .next (r.state.respond r.ra r.rb)
  | .error (.cause c) => .next (s.reject c)
  | .error (.fault f) => .fault f

/-- The word a table index holds, `none` where it holds no value (10_state.md R38). -/
def Memory.read : Memory → Nat → Option Word
  | [], _ => none
  | (j, w) :: m, i => if i = j then some w else Memory.read m i

/-- The table memory with word `v` at index `i`; the indices stay strictly rising. -/
def Memory.write : Memory → Nat → Word → Memory
  | [], i, v => [(i, v)]
  | (j, w) :: m, i, v =>
    if i < j then (i, v) :: (j, w) :: m
    else if i = j then (i, v) :: m
    else (j, w) :: Memory.write m i v

/-- The canonical form of a table memory: indices strictly rising. (An index that is not listed reads as no value, so no
entry can equal what an unlisted index reads as.) -/
abbrev Memory.wf (m : Memory) : Prop := (m.map Prod.fst).Pairwise (· < ·)

/-- `MemRead(i, 1)` of 00_scope.md R13. A word without a value cannot be read (10_state.md R25): the machine
faults. -/
def memRead (s : State) (i : Nat) : Except Raise Word :=
  match s.tbl.read i with
  | some w => .ok w
  | none => .error (.fault .tableWordAbsent)

/-- The writes of R[r], staged. -/
def State.setRamp (s : State) (r : RampId) (v : Ramp) : State :=
  match r with
  | .az => { s with ramp0 := v }
  | .el => { s with ramp1 := v }

/-- The writes of BUILD, staged: TBL and TLEN (40_wavetable.md R101). -/
def State.setTable (s : State) (len : Word) (m : Memory) : State := { s with tlen := len, tbl := m }

/-- The writes of DirectionState, staged; DINIT becomes, or stays, 1 (10_state.md R29). -/
def State.setDir (s : State) (d : Direction) : State := { s with dir := some d }

/-- The writes of CLRERR, staged: STATUS[12:8] and STATUS[19:16] (44_system.md R195). -/
def State.clearErrors (s : State) : State := { s with sticky := 0, lastCause := 0 }

/-- DirectionState's values, for a command that has them read: `raise ORDER(2)` while DINIT = 0
(60_exceptions.md R212). -/
def requireDirection (s : State) : Except Raise Direction :=
  match s.dir with
  | some d => .ok d
  | none => .error (.cause .order)

end Sys2Proof.Machine
end

