-- ==== Sys2Proof/Machine/Harmonic.lean ====
section
/-! DEFINITION. The HarmonicEncoder: its constants (10_state.md R32), the channel weights (42_harmonic.md R140, R143) and the
command CHAN (R141). -/

namespace Sys2Proof.Machine

/-- CONST_W, 1/√2 (10_state.md R32). -/
def constW : F := 0x3F3504F3

/-- CONST_L, √(945/1792) (R32). -/
def constL : F := 0x3F39E738

/-- CONST_M, √(945/1792) (R32). -/
def constM : F := 0x3F39E738

/-- CONST_N, 1.5·√3 (R32). -/
def constN : F := 0x402646E1

/-- CONST_O, 1.5·√3 (R32). -/
def constO : F := 0x402646E1

/-- What the weights are computed with: the operations, the literals and the five constants of 42_harmonic.md R140, on
the numbers of one arithmetic. -/
structure WeightArith (α : Type) where
  mul : α → α → α
  sub : α → α → α
  div : α → α → α
  one : α
  two : α
  three : α
  five : α
  w : α
  l : α
  m : α
  n : α
  o : α

/-- The core's arithmetic: binary32, every operation rounded once (00_scope.md R14), with the constants of R32. -/
def binary32 : WeightArith F :=
  { mul := fmul, sub := fsub, div := fdiv, one := fOne, two := fTwo, three := fThree, five := fFive,
    w := constW, l := constL, m := constM, n := constN, o := constO }

/-- The sixteen weights of 42_harmonic.md R140, in channel order W X Y Z R S T U V K L M N O P Q, of the matrices `T[p][q]`
and `P[p][q]`: in binary32 what the core computes, in exact arithmetic the forms of R143. -/
def weightsIn {α : Type} (ar : WeightArith α) (t p : Phase → Fin 3 → α) : Vector α 16 :=
  let mul := ar.mul
  let s2 := mul (p .direct 0) (p .direct 0)
  let c2 := mul (p .quarter 0) (p .quarter 0)
  let c3 := mul c2 (p .quarter 0)
  let kk := ar.sub (mul ar.five s2) ar.one
  #v[ ar.w,
      mul (t .quarter 0) (p .quarter 0),
      mul (t .direct 0) (p .quarter 0),
      p .direct 0,
      ar.div (ar.sub (mul ar.three s2) ar.one) ar.two,
      mul (t .quarter 0) (p .direct 1),
      mul (t .direct 0) (p .direct 1),
      mul (t .quarter 1) c2,
      mul (t .direct 1) c2,
      ar.div (mul (p .direct 0) (ar.sub (mul ar.five s2) ar.three)) ar.two,
      mul (mul (mul (t .quarter 0) kk) (p .quarter 0)) ar.l,
      mul (mul (mul (t .direct 0) kk) (p .quarter 0)) ar.m,
      mul (mul (mul (t .quarter 1) (p .direct 0)) c2) ar.n,
      mul (mul (mul (t .direct 1) (p .direct 0)) c2) ar.o,
      mul (t .quarter 2) c3,
      mul (t .direct 2) c3 ]

/-- The sixteen weights the core computes, from T and P as last committed (R140, R144). -/
def weights (d : Direction) : Vector F 16 := weightsIn binary32 d.t.entry d.p.entry

/-- `Weight(k)` of R140 for a channel index k of 0 to 15. -/
def weight (d : Direction) (k : Fin 16) : F := (weights d)[k]

/-- CHAN, R141: the prerequisite, then the range of the channel index, then the product. -/
def execChan (k : Nat) (sample : F) (s : State) : Host.Outcome State Fault Refusal :=
  finish s do
    let d ← requireDirection s
    if h : k < 16 then .ok ⟨s, fmul sample (weight d ⟨k, h⟩), 0⟩
    else .error (.cause .channel)

end Sys2Proof.Machine
end

