-- ==== Sys2Proof/Machine/WaveTable.lean ====
section
/-! DEFINITION. The WaveTable, 40_wavetable.md: the contents of the table (R100), the lookup function (R103), and the
commands BUILD (R101), LKSIN (R104) and LKCOS (R105). -/

namespace Sys2Proof.Machine

/-- The loop of BUILD: `for i in 0 .. k-1: MemWrite(i, 1, SIN_TABLE(len, i))` (R101). -/
def writeSines (cfg : Config) (len : Nat) : Nat → Memory → Memory
  | 0, m => m
  | k + 1, m => Memory.write (writeSines cfg len k m) k (sinTable cfg len k)

/-- The table memory after BUILD of length `len`: the samples and the guard word (R100, R101). -/
def buildTable (cfg : Config) (len : Nat) (m : Memory) : Memory :=
  Memory.write (writeSines cfg len len m) len 0x00000000

/-- BUILD, R101. -/
def execBuild (n : Word) (s : State) : Host.Outcome State Fault Refusal :=
  finish s do
    raiseIf s.built .order
    raiseIf (decide (u32 n = 0) || decide (s.cfg.lMax < u32 n)) .config
    .ok ⟨s.setTable n (buildTable s.cfg (u32 n) s.tbl), 0, 0⟩

/-- The wrap of Lookup (R103): `r = x - L*floor(x/L)` exactly, rounded once, a result equal to L becoming +0.0. -/
def wrap (len : Nat) (x : F) : F :=
  let r := units x % ((len : Int) * 2 ^ 149)
  let w := rneUnits r
  if w = toF len then 0 else w

/-- The interpolation of Lookup (R103): `a + f*(b - a)`, each operation rounded once. -/
def interpolate (a b f : F) : F := fadd a (fmul f (fsub b a))

/-- `Lookup(x)` of R103. -/
def lookup (s : State) (x : F) : Except Raise F := do
  raiseIf (!isFinite x) .nonfinite
  let w := wrap s.tableLen x
  let i := floorF w
  let f := fsub w (toF i)
  let a ← memRead s i
  let b ← memRead s (i + 1)
  .ok (interpolate a b f)

/-- LKSIN, R104. -/
def execLksin (x : F) (s : State) : Host.Outcome State Fault Refusal :=
  finish s do
    raiseIf (!s.built) .order
    let y ← lookup s x
    .ok ⟨s, y, 0⟩

/-- LKCOS, R105. -/
def execLkcos (x : F) (s : State) : Host.Outcome State Fault Refusal :=
  finish s do
    raiseIf (!s.built) .order
    raiseIf (!isFinite x) .nonfinite
    let y ← lookup s (fadd x s.quarterOffset)
    .ok ⟨s, y, 0⟩

end Sys2Proof.Machine
end

