-- ==== Sys2Proof/Machine/Direction.lean ====
section
/-! DEFINITION. DirectionState, 41_direction.md: the axis computation (R120) and the commands INIT (R121), CHG (R122)
and MATRD (R124). -/

namespace Sys2Proof.Machine

/-- The scaled argument of AxisRow for order index q: `fmul(fmul(v, Lf), toF(q + 1))` (R120). -/
def scaledArg (s : State) (v : F) (q : Nat) : F := fmul (fmul v (toF s.tableLen)) (toF (q + 1))

/-- `AxisRow(v)` of R120: for q = 0, 1, 2 the direct branch, then the quarter-offset branch. -/
def axisRow (s : State) (v : F) : Except Raise AxisMatrix := do
  let d0 ← lookup s (scaledArg s v 0)
  let q0 ← lookup s (fadd (scaledArg s v 0) s.quarterOffset)
  let d1 ← lookup s (scaledArg s v 1)
  let q1 ← lookup s (fadd (scaledArg s v 1) s.quarterOffset)
  let d2 ← lookup s (scaledArg s v 2)
  let q2 ← lookup s (fadd (scaledArg s v 2) s.quarterOffset)
  .ok ⟨d0, d1, d2, q0, q1, q2⟩

/-- INIT, R121. -/
def execInit (theta phi : F) (s : State) : Host.Outcome State Fault Refusal :=
  finish s do
    raiseIf (!s.built) .order
    let t ← axisRow s theta
    let p ← axisRow s phi
    .ok ⟨s.setDir { t := t, p := p, thb := theta, phb := phi }, 0, 0⟩

/-- The theta half of the conditional recompute (R122, R190): T and THB are written only if the value differs from the
baseline (R123). -/
def updateTheta (s : State) (v : F) (d : Direction) : Except Raise Direction :=
  if fneq v d.thb then do
    let m ← axisRow s v
    .ok { d with t := m, thb := v }
  else .ok d

/-- The phi half of the conditional recompute (R122, R190): P and PHB. -/
def updatePhi (s : State) (v : F) (d : Direction) : Except Raise Direction :=
  if fneq v d.phb then do
    let m ← axisRow s v
    .ok { d with p := m, phb := v }
  else .ok d

/-- The mask of recomputed axes that CHG returns (R122): bit 0 for T, bit 1 for P. -/
def changeMask (theta phi : F) (d : Direction) : Word :=
  BitVec.ofNat 32 ((if fneq theta d.thb then 1 else 0) + (if fneq phi d.phb then 2 else 0))

/-- CHG, R122. -/
def execChg (theta phi : F) (s : State) : Host.Outcome State Fault Refusal :=
  finish s do
    let d ← requireDirection s
    let d' ← updateTheta s theta d
    let d'' ← updatePhi s phi d'
    .ok ⟨s.setDir d'', changeMask theta phi d, 0⟩

/-- MATRD, R124. -/
def execMatrd (ax : Axis) (p : Phase) (q : Fin 3) (s : State) : Host.Outcome State Fault Refusal :=
  finish s do
    let d ← requireDirection s
    .ok ⟨s, (d.matrix ax).entry p q, 0⟩

end Sys2Proof.Machine
end

