-- ==== Sys2Proof/Machine/Ramp.lean ====
section
/-! DEFINITION. The ParameterRamp, 43_ramp.md: the commands RNEW (R170) and RPROC (R172) and the ramp step (R171). -/

namespace Sys2Proof.Machine

/-- A ramp as RNEW constructs it: Idle at +0.0 with block size `n` (R170). -/
def Ramp.fresh (n : Word) : Ramp :=
  { cfg := true, bs := n, pin := 0, pout := 0, inc := 0, rem := 0, ramping := false }

/-- RNEW, R170. -/
def execRnew (r : RampId) (n : Word) (s : State) : Host.Outcome State Fault Refusal :=
  finish s do
    raiseIf (decide (u32 n = 0) || decide (s.cfg.bsMax < u32 n)) .config
    .ok ⟨s.setRamp r (Ramp.fresh n), 0, 0⟩

/-- Step 1 of the transition (R171): an input that differs from PIN enters or re-enters Ramping, with the increment
taken from the current output (R173). -/
def Ramp.retarget (g : Ramp) (x : F) : Ramp :=
  if fneq x g.pin then
    { g with ramping := true, inc := fdiv (fsub x g.pout) (toF (u32 g.bs)), rem := g.bs }
  else g

/-- Steps 2 to 4 of the transition (R171), on the ramp that step 1 leaves: PIN takes the input, and the output is
the next point of the ramp or, when Idle, the input. -/
def Ramp.advance (g : Ramp) (x : F) : Ramp :=
  if g.ramping then
    { g with pin := x, pout := fadd g.pout g.inc, rem := g.rem - 1, ramping := g.rem - 1 != 0 }
  else { g with pin := x, pout := x }

/-- The whole transition of a ramp on a finite input, before the finiteness checks (R171). The output is the new
POUT. -/
def Ramp.next (g : Ramp) (x : F) : Ramp := (g.retarget x).advance x

/-- `RampStep(r, x)` of R171, on the ramp's fields: the new fields, whose POUT is the output. -/
def rampStep (g : Ramp) (x : F) : Except Raise Ramp := do
  raiseIf (!isFinite x) .nonfinite
  raiseIf (!isFinite (g.next x).inc || !isFinite (g.next x).pout) .nonfinite
  .ok (g.next x)

/-- RPROC, R172. -/
def execRproc (r : RampId) (x : F) (s : State) : Host.Outcome State Fault Refusal :=
  finish s do
    raiseIf (!(s.ramp r).cfg) .order
    let g ← rampStep (s.ramp r) x
    .ok ⟨s.setRamp r g, g.pout, 0⟩

end Sys2Proof.Machine
end

