-- ==== Sys2Proof/Machine/System.lean ====
section
/-! DEFINITION. The per-sample step and the status commands, 44_system.md: DIRSTEP (R190), RDSTAT (R193), CLRERR (R195) and
NOP (R196). -/

namespace Sys2Proof.Machine

/-- DIRSTEP, R190: both ramps step (azimuth first), then each axis is recomputed where the smoothed value differs from
its baseline; all of it or nothing. -/
def execDirstep (azimuth elevation : F) (s : State) : Host.Outcome State Fault Refusal :=
  finish s do
    raiseIf (!s.ramp0.cfg || !s.ramp1.cfg) .order
    let d ← requireDirection s
    let g0 ← rampStep s.ramp0 azimuth
    let g1 ← rampStep s.ramp1 elevation
    let d' ← updateTheta s g0.pout d
    let d'' ← updatePhi s g1.pout d'
    .ok ⟨((s.setRamp .az g0).setRamp .el g1).setDir d'', g0.pout, g1.pout⟩

/-- RDSTAT, R193: RA is STATUS, RB is TLEN. -/
def execRdstat (s : State) : Host.Outcome State Fault Refusal :=
  finish s (.ok ⟨s, s.status, s.tlen⟩)

/-- CLRERR, R195. -/
def execClrerr (s : State) : Host.Outcome State Fault Refusal :=
  finish s (.ok ⟨s.clearErrors, 0, 0⟩)

/-- NOP, R196. -/
def execNop (s : State) : Host.Outcome State Fault Refusal :=
  finish s (.ok ⟨s, 0, 0⟩)

end Sys2Proof.Machine
end

