-- ==== Sys2Proof/Machine/Dispatch.lean ====
section
/-! DEFINITION. The dispatch: one arm per command of 30_encoding.md R78. -/

namespace Sys2Proof.Machine

def exec (i : Instr) (s : State) : Host.Outcome State Fault Refusal :=
  match i with
  | .nop => Sys2Proof.Machine.execNop s
  | .build n => Sys2Proof.Machine.execBuild n s
  | .lksin x => Sys2Proof.Machine.execLksin x s
  | .lkcos x => Sys2Proof.Machine.execLkcos x s
  | .init theta phi => Sys2Proof.Machine.execInit theta phi s
  | .chg theta phi => Sys2Proof.Machine.execChg theta phi s
  | .matrd ax p q => Sys2Proof.Machine.execMatrd ax p q s
  | .chan k sample => Sys2Proof.Machine.execChan k sample s
  | .rnew r n => Sys2Proof.Machine.execRnew r n s
  | .rproc r x => Sys2Proof.Machine.execRproc r x s
  | .dirstep azimuth elevation => Sys2Proof.Machine.execDirstep azimuth elevation s
  | .rdstat => Sys2Proof.Machine.execRdstat s
  | .clrerr => Sys2Proof.Machine.execClrerr s

end Sys2Proof.Machine
end

