-- ==== Sys2Proof/WellFormed.lean ====
section
/-! DEFINITION. Which terms of `Instr` an encoding has. The fields RI, AX, PB and QO (with 3 excluded, 30_encoding.md R75
item 4) are types of their own, and an operand word takes any 32 bits; the one field a term can overfill is CH. -/

namespace Sys2Proof

/-- A command that 30_encoding.md R74 can encode: the channel index of CHAN fits CMD[15:8] (R72, R76). -/
def Instr.wellFormed : Instr → Bool
  | .chan k _ => decide (k ≤ 255)
  | .nop => true
  | .build _ => true
  | .lksin _ => true
  | .lkcos _ => true
  | .init _ _ => true
  | .chg _ _ => true
  | .matrd _ _ _ => true
  | .rnew _ _ => true
  | .rproc _ _ => true
  | .dirstep _ _ => true
  | .rdstat => true
  | .clrerr => true

end Sys2Proof
end

