-- ==== Sys2Proof/Decode.lean ====
section
/-! DEFINITION. Decoding and encoding of commands, 30_encoding.md R70 to R83, and the expansion of the
pseudo-instructions (R82). -/

namespace Sys2Proof

/-- Why a command word is illegal (30_encoding.md R80): no row of R78 matches it (R75 items 1 to 3), or it is
a MATRD word with QO = 3 (R75 item 4). -/
inductive DecodeError where
  | noRow
  | orderReserved
  deriving DecidableEq, Repr

/-- Field OPC, CMD[7:0] (R72). -/
def fieldOpc (cmd : Word) : Nat := (cmd.extractLsb' 0 8).toNat

/-- Field CH, CMD[15:8] (R72), read as `zext` (R76). -/
def fieldCh (cmd : Word) : Nat := (cmd.extractLsb' 8 8).toNat

/-- Field RI, CMD[16] (R72). -/
def fieldRi (cmd : Word) : RampId := if cmd.getLsbD 16 then .el else .az

/-- Field AX, CMD[17] (R72). -/
def fieldAx (cmd : Word) : Axis := if cmd.getLsbD 17 then .phi else .theta

/-- Field PB, CMD[18] (R72). -/
def fieldPb (cmd : Word) : Phase := if cmd.getLsbD 18 then .quarter else .direct

/-- Field QO, CMD[20:19] (R72), read as `zext` (R76); 3 is reserved. -/
def fieldQo (cmd : Word) : Nat := (cmd.extractLsb' 19 2).toNat

/-- Field RSV, CMD[31:21] (R72). -/
def fieldRsv (cmd : Word) : Nat := (cmd.extractLsb' 21 11).toNat

/-- One line of the opcode map of R78: mnemonic, CMD match, CMD mask, and how the format of R74 reads the command's
words into its fields and operands. -/
structure OpcodeRow where
  mnemonic : String
  pattern : Word
  mask : Word
  read : Command → Except DecodeError Instr

/-- A CMD word w selects the row whose `w & mask = match` (R78). -/
def OpcodeRow.selects (row : OpcodeRow) (cmd : Word) : Bool := cmd &&& row.mask == row.pattern

/-- How MATRD reads its fields; QO = 3 is illegal (R75 item 4, R80). -/
def readMatrd (c : Command) : Except DecodeError Instr :=
  if h : fieldQo c.cmd < 3 then
    .ok (.matrd (fieldAx c.cmd) (fieldPb c.cmd) ⟨fieldQo c.cmd, h⟩)
  else .error .orderReserved

/-- The opcode map, 30_encoding.md R78, with the operand readings of R74 and R76. -/
def opcodeMap : List OpcodeRow :=
  [ ⟨"NOP", 0x00000000, 0xFFFFFFFF, fun _ => .ok .nop⟩,
    ⟨"BUILD", 0x00000001, 0xFFFFFFFF, fun c => .ok (.build c.opa)⟩,
    ⟨"LKSIN", 0x00000002, 0xFFFFFFFF, fun c => .ok (.lksin c.opa)⟩,
    ⟨"LKCOS", 0x00000003, 0xFFFFFFFF, fun c => .ok (.lkcos c.opa)⟩,
    ⟨"INIT", 0x00000010, 0xFFFFFFFF, fun c => .ok (.init c.opa c.opb)⟩,
    ⟨"CHG", 0x00000011, 0xFFFFFFFF, fun c => .ok (.chg c.opa c.opb)⟩,
    ⟨"MATRD", 0x00000012, 0xFFE1FFFF, readMatrd⟩,
    ⟨"CHAN", 0x00000020, 0xFFFF00FF, fun c => .ok (.chan (fieldCh c.cmd) c.opa)⟩,
    ⟨"RNEW", 0x00000030, 0xFFFEFFFF, fun c => .ok (.rnew (fieldRi c.cmd) c.opa)⟩,
    ⟨"RPROC", 0x00000031, 0xFFFEFFFF, fun c => .ok (.rproc (fieldRi c.cmd) c.opa)⟩,
    ⟨"DIRSTEP", 0x00000040, 0xFFFFFFFF, fun c => .ok (.dirstep c.opa c.opb)⟩,
    ⟨"RDSTAT", 0x00000050, 0xFFFFFFFF, fun _ => .ok .rdstat⟩,
    ⟨"CLRERR", 0x00000051, 0xFFFFFFFF, fun _ => .ok .clrerr⟩ ]

/-- `decode(CMD)` of 30_encoding.md R80, on a whole command. Total: every command is an instruction or is rejected
by name. -/
def decode (c : Command) : Except DecodeError Instr :=
  match opcodeMap.find? (fun row => row.selects c.cmd) with
  | some row => row.read c
  | none => .error .noRow

/-- The bit of field RI (R72). -/
def codeRi : RampId → Word
  | .az => 0
  | .el => 1

/-- The bit of field AX (R72). -/
def codeAx : Axis → Word
  | .theta => 0
  | .phi => 1

/-- The bit of field PB (R72). -/
def codePb : Phase → Word
  | .direct => 0
  | .quarter => 1

/-- The command of an instruction, by the column CMD, OPA, OPB of 30_encoding.md R81; an operand written "—" is
0x00000000. -/
def encode : Instr → Command
  | .nop => ⟨0x00000000, 0, 0⟩
  | .build n => ⟨0x00000001, n, 0⟩
  | .lksin x => ⟨0x00000002, x, 0⟩
  | .lkcos x => ⟨0x00000003, x, 0⟩
  | .init theta phi => ⟨0x00000010, theta, phi⟩
  | .chg theta phi => ⟨0x00000011, theta, phi⟩
  | .matrd ax p q =>
    ⟨0x12 + (codeAx ax <<< 17) + (codePb p <<< 18) + (BitVec.ofNat 32 q.val <<< 19), 0, 0⟩
  | .chan k sample => ⟨0x20 + (BitVec.ofNat 32 k <<< 8), sample, 0⟩
  | .rnew r n => ⟨0x30 + (codeRi r <<< 16), n, 0⟩
  | .rproc r x => ⟨0x31 + (codeRi r <<< 16), x, 0⟩
  | .dirstep azimuth elevation => ⟨0x00000040, azimuth, elevation⟩
  | .rdstat => ⟨0x00000050, 0, 0⟩
  | .clrerr => ⟨0x00000051, 0, 0⟩

/-- The mnemonic of an instruction (R78). -/
def Instr.mnemonic : Instr → String
  | .nop => "NOP"
  | .build _ => "BUILD"
  | .lksin _ => "LKSIN"
  | .lkcos _ => "LKCOS"
  | .init _ _ => "INIT"
  | .chg _ _ => "CHG"
  | .matrd _ _ _ => "MATRD"
  | .chan _ _ => "CHAN"
  | .rnew _ _ => "RNEW"
  | .rproc _ _ => "RPROC"
  | .dirstep _ _ => "DIRSTEP"
  | .rdstat => "RDSTAT"
  | .clrerr => "CLRERR"

/-- The expansions of 30_encoding.md R82. -/
def Pseudo.expand : Pseudo → List Instr
  | .enc16 s => (List.range 16).map fun k => .chan k s
  | .rnew2 n => [.rnew .az n, .rnew .el n]
  | .setup len blockSize theta phi =>
    [.build len, .rnew .az blockSize, .rnew .el blockSize, .init theta phi]
  | .sample azimuth elevation s => .dirstep azimuth elevation :: (List.range 16).map fun k => .chan k s

/-- The bytes of a word on a port binding that carries bytes: bits 7:0 first (20_memory.md R51). -/
def wordBytes (w : Word) : List Byte :=
  [w.extractLsb' 0 8, w.extractLsb' 8 8, w.extractLsb' 16 8, w.extractLsb' 24 8]

/-- The word whose bytes, bits 7:0 first, are the four given (20_memory.md R51). -/
def bytesWord (b0 b1 b2 b3 : Byte) : Word := b3 ++ b2 ++ b1 ++ b0

/-- The twelve bytes of a command, CMD first, on a port binding that carries bytes (R51, R70). -/
def Command.bytes (c : Command) : List Byte :=
  wordBytes c.cmd ++ wordBytes c.opa ++ wordBytes c.opb

/-- The command at the head of a sequence of bytes and the bytes after it, none when fewer than twelve are left
(R51, R71). -/
def Command.ofBytes : List Byte → Option (Command × List Byte)
  | a0 :: a1 :: a2 :: a3 :: b0 :: b1 :: b2 :: b3 :: c0 :: c1 :: c2 :: c3 :: rest =>
    some (⟨bytesWord a0 a1 a2 a3, bytesWord b0 b1 b2 b3, bytesWord c0 c1 c2 c3⟩, rest)
  | _ => none

/-- The command whose three words are the bits of `w` below `nbits`: CMD is bits 31..0, OPA bits 63..32, OPB bits
95..64 (R70, R71); every bit from `nbits` up is 0. -/
def commandOfBits (nbits w : Nat) : Command :=
  let bits := w % 2 ^ nbits
  ⟨BitVec.ofNat 32 bits, BitVec.ofNat 32 (bits / 2 ^ 32), BitVec.ofNat 32 (bits / 2 ^ 64)⟩

/-- The instruction the decoder reads from a command whose bits below `nbits` are those of `w`, none where it
rejects the command (R80). -/
def decodeTableWord (nbits w : Nat) : Option Instr :=
  match decode (commandOfBits nbits w) with
  | .ok i => some i
  | .error _ => none

end Sys2Proof
end

