-- ==== Sys2Proof/Machine/Port.lean ====
section
/-! DEFINITION. The command port and `rst`: what the host's next action makes of the state before an instruction's own
meaning runs (30_encoding.md R70 and R80, 70_reset_and_hazards.md R240 and R241, 10_state.md R21). The core fetches nothing (R21):
where another machine reads memory at a program counter, this one takes the host's next command. -/

namespace Sys2Proof.Machine

/-- What the host's next action asks for. -/
inductive Fetched where
  /-- The host does nothing. -/
  | idle
  /-- `rst` was asserted; the state it leaves. -/
  | reset (s : State)
  /-- A command that decoding rejects (R80), and the state that rejects it. -/
  | illegal (s : State)
  /-- A command, decoded, and the state it runs in. -/
  | run (i : Instr) (s : State)
  deriving DecidableEq, Repr

/-- The state reset leaves (70_reset_and_hazards.md R240): every element at its reset value; the parameters are the
implementation's and stay, and so do the host's later actions. -/
def State.afterReset (s : State) (rest : List HostAction) : State :=
  { State.reset with cfg := s.cfg, pending := rest }

/-- The state without the response of an earlier command, which belongs to that command only (10_state.md R39). -/
def State.dropResponse (s : State) : State := { s with response := none }

/-- The state in which an accepted command runs: the command has left the port and the position has advanced by 1,
whether the command will succeed or not (10_state.md R21). The response of the command before it is gone (R39). -/
def State.accept (s : State) (rest : List HostAction) : State :=
  { s.dropResponse with pending := rest, position := s.position + 1 }

/-- The host's next action, decoded (30_encoding.md R80). A command that `rst` interrupts is abandoned, whatever it
was (70_reset_and_hazards.md R241). -/
def fetch (s : State) : Fetched :=
  match s.pending with
  | [] => .idle
  | .reset :: rest => .reset (s.afterReset rest)
  | .resetDuring _ :: rest => .reset (s.afterReset rest)
  | .command c :: rest =>
    match decode c with
    | .ok i => .run i (s.accept rest)
    | .error _ => .illegal (s.accept rest)

/-- The command of table bits `w` put before the host's other actions: the next thing the host does. -/
def State.issueBits (s : State) (nbits w : Nat) : State :=
  { s with pending := .command (commandOfBits nbits w) :: s.pending }

end Sys2Proof.Machine
end

