-- ==== Sys2Proof/Machine/Step.lean ====
section
/-! DEFINITION. One step of the machine: one action of the host, a command being one step (70_reset_and_hazards.md
R251). -/

namespace Sys2Proof.Machine

/-- One step. With no host action the core is idle and keeps its state (60_exceptions.md R228), to which the response of
an earlier command does not belong (10_state.md R39); a command that decoding
rejects is rejected with ILLEGAL before any command's own rule (R211). -/
def step (s : State) : Host.Outcome State Fault Refusal :=
  match fetch s with
  | .idle => .next s.dropResponse
  | .reset s' => .next s'
  | .illegal s' => .next (s'.reject .illegal)
  | .run i s' => exec i s'

/-- The state in which the very next step runs the command whose bits below `nbits` are those of `w`: the core's
program is the host's command stream, and this command is its next one. -/
def State.withFetchWord (s : State) (nbits w : Nat) : State := s.issueBits nbits w

end Sys2Proof.Machine
end

