-- ==== Sys2Proof/Safety.lean ====
section
/-! DEFINITION. What claims about the machine are stated in: the constraints on the parameters (00_scope.md R8,
40_wavetable.md R100), the invariants of 10_state.md R35 and R40, and the observation of a run (60_exceptions.md R229). -/

namespace Sys2Proof.Machine

/-- The constraints the spec puts on an implementation's parameters: R8 on `L_MAX` and `BS_MAX`, R100 on the words of
SIN_TABLE. -/
structure ConfigOk (c : Config) : Prop where
  lMax_pos : 1 ≤ c.lMax
  lMax_le : c.lMax ≤ Config.lMaxBound
  bsMax_pos : 1 ≤ c.bsMax
  bsMax_le : c.bsMax ≤ Config.bsMaxBound
  sin_unit : ∀ e ∈ c.sinWords, inUnit e.2 = true
  sin_zero : ∀ e ∈ c.sinWords, e.1.2 = 0 → e.2 = 0

/-- A ramp's integer fields and its state (10_state.md R35 items 3 and 4, R40). -/
structure RampShape (c : Config) (g : Ramp) : Prop where
  ramping_iff : g.ramping = true ↔ 0 < u32 g.rem
  rem_le : u32 g.rem ≤ u32 g.bs
  unconstructed : g.cfg = false → g = Ramp.reset
  block_pos : g.cfg = true → 1 ≤ u32 g.bs
  block_le : g.cfg = true → u32 g.bs ≤ c.bsMax

/-- A ramp's numbers are finite (10_state.md R35 item 5). -/
structure RampFinite (g : Ramp) : Prop where
  pin : isFinite g.pin = true
  pout : isFinite g.pout = true
  inc : isFinite g.inc = true

/-- The table memory (10_state.md R24, R25, R35 item 1; 20_memory.md R57): in canonical form, empty before BUILD, and
holding a word exactly at indices 0 to TLEN afterwards. -/
structure TableShape (s : State) : Prop where
  wf : s.tbl.wf
  len_le : s.tableLen ≤ s.cfg.lMax
  unbuilt : s.built = false → s.tbl = []
  held : s.built = true → ∀ i, (s.tbl.read i).isSome = true ↔ i ≤ s.tableLen

/-- The words of a built table (10_state.md R35 item 7). -/
structure TableValues (s : State) : Prop where
  unit : s.built = true → ∀ i w, s.tbl.read i = some w → inUnit w = true
  guard : s.built = true → s.tbl.read s.tableLen = some 0

/-- The matrices and baselines (10_state.md R35 item 6). -/
structure DirectionValues (d : Direction) : Prop where
  t_unit : ∀ p q, inUnit (d.t.entry p q) = true
  p_unit : ∀ p q, inUnit (d.p.entry p q) = true
  thb_finite : isFinite d.thb = true
  phb_finite : isFinite d.phb = true

/-- The part of 10_state.md R35 that is about which elements hold a value and about integers: items 1 to 4 and 8, the
ranges of R40, and the parameters of R8. -/
structure State.Shape (s : State) : Prop where
  config : ConfigOk s.cfg
  table : TableShape s
  dinit_built : s.dinit = true → s.built = true
  ramps : ∀ r, RampShape s.cfg (s.ramp r)
  cause_iff : s.lastCause = 0 ↔ s.sticky = 0
  cause_le : s.lastCause.toNat ≤ 5

/-- The invariants of 10_state.md R35, all eight items. -/
structure State.Inv (s : State) : Prop where
  shape : s.Shape
  rampsFinite : ∀ r, RampFinite (s.ramp r)
  tableValues : TableValues s
  direction : ∀ d, s.dir = some d → DirectionValues d

/-- The matrices are those of their baselines: "the matrices always reflect the last values passed to an update call"
(41_direction.md R125 item 3). -/
def State.MatricesFresh (s : State) : Prop :=
  ∀ d, s.dir = some d → axisRow s d.thb = .ok d.t ∧ axisRow s d.phb = .ok d.p

/-- The table holds what BUILD writes for its length and nothing else (40_wavetable.md R100, 20_memory.md R57). -/
def State.TableAsBuilt (s : State) : Prop :=
  s.built = true → ∀ i, s.tbl.read i =
    if i < s.tableLen then some (sinTable s.cfg s.tableLen i)
    else if i = s.tableLen then some 0 else none

/-- A command word is illegal: the four items of 30_encoding.md R75, field by field. -/
def illegalWord (cmd : Word) : Bool :=
  let opc := fieldOpc cmd
  !([0x00, 0x01, 0x02, 0x03, 0x10, 0x11, 0x12, 0x20, 0x30, 0x31, 0x40, 0x50, 0x51].contains opc)
    || fieldRsv cmd != 0
    || (opc != 0x20 && fieldCh cmd != 0)
    || (opc != 0x30 && opc != 0x31 && cmd.getLsbD 16)
    || (opc != 0x12 && (cmd.getLsbD 17 || cmd.getLsbD 18 || fieldQo cmd != 0))
    || (opc == 0x12 && fieldQo cmd == 3)

/-- A command runs before the state it needs exists: the ORDER table of 60_exceptions.md R212. -/
def missingPrerequisite : Instr → State → Bool
  | .build _, s => s.built
  | .lksin _, s => !s.built
  | .lkcos _, s => !s.built
  | .init _ _, s => !s.built
  | .chg _ _, s => !s.dinit
  | .matrd _ _ _, s => !s.dinit
  | .chan _ _, s => !s.dinit
  | .rproc r _, s => !(s.ramp r).cfg
  | .dirstep _ _, s => !s.ramp0.cfg || !s.ramp1.cfg || !s.dinit
  | .rnew _ _, _ => false
  | .nop, _ => false
  | .rdstat, _ => false
  | .clrerr, _ => false

/-- A value that AxisRow can scale: none of its three Lookup arguments on the direct branch is ±Infinity or NaN
(41_direction.md R121, Exceptions). -/
def axisArgsFinite (s : State) (v : F) : Bool :=
  isFinite (scaledArg s v 0) && isFinite (scaledArg s v 1) && isFinite (scaledArg s v 2)

/-- A ramp whose input, increment and output stay finite on input `x` (43_ramp.md R171). -/
def rampInputFinite (g : Ramp) (x : F) : Bool :=
  isFinite x && isFinite (g.next x).inc && isFinite (g.next x).pout

/-- A value that a recompute of an axis meets: it differs from the baseline and cannot be scaled. -/
def axisOverflows (s : State) (v baseline : F) : Bool := fneq v baseline && !axisArgsFinite s v

/-- An operand is outside the range of a CONFIG test (60_exceptions.md R213). -/
def configOutOfRange : Instr → State → Bool
  | .build n, s => decide (u32 n = 0) || decide (s.cfg.lMax < u32 n)
  | .rnew _ n, s => decide (u32 n = 0) || decide (s.cfg.bsMax < u32 n)
  | .lksin _, _ => false
  | .lkcos _, _ => false
  | .init _ _, _ => false
  | .chg _ _, _ => false
  | .matrd _ _ _, _ => false
  | .chan _ _, _ => false
  | .rproc _ _, _ => false
  | .dirstep _ _, _ => false
  | .nop, _ => false
  | .rdstat, _ => false
  | .clrerr, _ => false

/-- The channel index of CHAN is outside 0 to 15 (60_exceptions.md R213). -/
def channelOutOfRange : Instr → Bool
  | .chan k _ => decide (15 < k)
  | .build _ => false
  | .lksin _ => false
  | .lkcos _ => false
  | .init _ _ => false
  | .chg _ _ => false
  | .matrd _ _ _ => false
  | .rnew _ _ => false
  | .rproc _ _ => false
  | .dirstep _ _ => false
  | .nop => false
  | .rdstat => false
  | .clrerr => false

/-- A command meets a non-finite value: the NONFINITE line of 60_exceptions.md R213. -/
def nonfiniteInput : Instr → State → Bool
  | .lksin x, _ => !isFinite x
  | .lkcos x, _ => !isFinite x
  | .init theta phi, s => !axisArgsFinite s theta || !axisArgsFinite s phi
  | .chg theta phi, s =>
    match s.dir with
    | some d => axisOverflows s theta d.thb || axisOverflows s phi d.phb
    | none => false
  | .rproc r x, s => !rampInputFinite (s.ramp r) x
  | .dirstep azimuth elevation, s =>
    match s.dir with
    | some d =>
      !rampInputFinite s.ramp0 azimuth || !rampInputFinite s.ramp1 elevation
        || axisOverflows s (s.ramp0.next azimuth).pout d.thb
        || axisOverflows s (s.ramp1.next elevation).pout d.phb
    | none => false
  | .build _, _ => false
  | .matrd _ _ _, _ => false
  | .chan _ _, _ => false
  | .rnew _ _, _ => false
  | .nop, _ => false
  | .rdstat, _ => false
  | .clrerr, _ => false

/-- The observation of a run of the host's actions (60_exceptions.md R229): the responses, one for each command
that was answered, and the final state. Each action runs as one step. -/
def observe : List HostAction → State → Host.Outcome (List Response × State) Fault Refusal
  | [], s => .next ([], s)
  | a :: rest, s =>
    match step { s with pending := [a] } with
    | .next t =>
      match observe rest t with
      | .next (rs, u) => .next (t.response.toList ++ rs, u)
      | .fault f => .fault f
      | .refused r => .refused r
    | .fault f => .fault f
    | .refused r => .refused r

end Sys2Proof.Machine
end

