-- ==== Sys2Proof/Certificates/Slice0/Obligations.lean ====
section
/-! DEFINITION. The statements about the model. Each docstring names the rule of spec/ it is about. -/

open Sys2Proof Sys2Proof.Machine

/-! ## Encoding -/

/-- 30_encoding.md sections 2, 3 and 7: the decoder reads back every well-formed instruction, with every operand, from
its encoding. -/
def Obligations.DecodeReadsBackEveryEncoding : Prop :=
  ∀ i : Instr, i.wellFormed = true → decode (encode i) = .ok i

/-- 30_encoding.md sections 2 and 7: a decoded instruction is well formed, its encoding has the same command word, and
the command made of that word with the encoding's operand words decodes to it. -/
def Obligations.EncodingKeepsTheDecodedWord : Prop :=
  ∀ (c : Command) (i : Instr), decode c = .ok i →
    i.wellFormed = true ∧ (encode i).cmd = c.cmd ∧ decode (encode i) = .ok i

/-- 30_encoding.md section 3, R75: the decoder rejects exactly the command words of the four items, whatever the
operand words hold (60_exceptions.md R211). -/
def Obligations.DecodingRejectsExactlyTheIllegalWords : Prop :=
  ∀ c : Command, (∃ e, decode c = .error e) ↔ illegalWord c.cmd = true

/-- 30_encoding.md section 7, R83: words written out from the encodings decode to the instructions they stand for. -/
def Obligations.SampleWordsDecode : Prop :=
  decode ⟨0x00000003, 0x40000000, 0⟩ = .ok (.lkcos 0x40000000) ∧
  decode ⟨0x00160012, 0, 0⟩ = .ok (.matrd .phi .quarter 2) ∧
  decode ⟨0x00000F20, 0x3F800000, 0⟩ = .ok (.chan 15 0x3F800000) ∧
  decode ⟨0x00010030, 4, 0⟩ = .ok (.rnew .el 4) ∧
  decode ⟨0x00000040, 0x3E800000, 0xBE000000⟩ = .ok (.dirstep 0x3E800000 0xBE000000) ∧
  decode ⟨0x00180012, 0, 0⟩ = .error .orderReserved

/-! ## The numeric primitives (00_scope.md section 5) -/

/-- R14: rounding gives a value nearest to the exact one, the even one of two; it overflows to the Infinity of
its sign exactly from 2^128 - 2^103 on (the threshold is IEEE 754's, to which R14 refers: log entry 14). -/
def Obligations.RoundingIsNearestTiesToEven : Prop :=
  ∀ r : ℚ,
    (isFinite (rneRat r) = true ↔ |r| < 2 ^ 128 - 2 ^ 103) ∧
    (isFinite (rneRat r) = false → rneRat r = pack (decide (r < 0)) infMag) ∧
    (isFinite (rneRat r) = true → ∀ v : F, isFinite v = true →
      |valueOf (rneRat r) - r| ≤ |valueOf v - r| ∧
      (|valueOf (rneRat r) - r| = |valueOf v - r| → valueOf v ≠ valueOf (rneRat r) →
        (rneRat r).getLsbD 0 = false))

/-- R14, for every pair of operands that holds no NaN (`Obligations.EveryNaNResultIsCanonical` has those): on finite operands each
of the four operations rounds its exact result once, an exact zero with the IEEE sign; an infinite operand and a zero
divisor give what IEEE 754 gives, to which R14 refers (log entry 14). -/
def Obligations.ArithmeticRoundsTheExactResultOnce : Prop :=
  ∀ a b : F,
    (isFinite a = true → isFinite b = true →
      fadd a b = (if valueOf a + valueOf b = 0 then pack (isNeg a && isNeg b) 0
        else rneRat (valueOf a + valueOf b)) ∧
      fsub a b = (if valueOf a - valueOf b = 0 then pack (isNeg a && !isNeg b) 0
        else rneRat (valueOf a - valueOf b)) ∧
      fmul a b = (if valueOf a * valueOf b = 0 then pack (isNeg a != isNeg b) 0
        else rneRat (valueOf a * valueOf b)) ∧
      fdiv a b = (if valueOf b = 0 then
          if valueOf a = 0 then 0x7FC00000 else pack (isNeg a != isNeg b) 0x7F800000
        else if valueOf a = 0 then pack (isNeg a != isNeg b) 0
        else rneRat (valueOf a / valueOf b))) ∧
    (isInf a = true → isFinite b = true →
      fadd a b = a ∧ fadd b a = a ∧ fsub a b = a ∧ fsub b a = pack (!isNeg a) 0x7F800000 ∧
      fmul a b = (if valueOf b = 0 then 0x7FC00000 else pack (isNeg a != isNeg b) 0x7F800000) ∧
      fmul b a = (if valueOf b = 0 then 0x7FC00000 else pack (isNeg a != isNeg b) 0x7F800000) ∧
      fdiv a b = pack (isNeg a != isNeg b) 0x7F800000 ∧ fdiv b a = pack (isNeg a != isNeg b) 0) ∧
    (isInf a = true → isInf b = true →
      fadd a b = (if isNeg a = isNeg b then a else 0x7FC00000) ∧
      fsub a b = (if isNeg a = isNeg b then 0x7FC00000 else a) ∧
      fmul a b = pack (isNeg a != isNeg b) 0x7F800000 ∧ fdiv a b = 0x7FC00000)

/-- R14: an operation on a NaN gives the canonical NaN, and a NaN result is always the canonical one. -/
def Obligations.EveryNaNResultIsCanonical : Prop :=
  ∀ a b : F, ∀ op ∈ [fadd, fsub, fmul, fdiv],
    (isNaN a = true ∨ isNaN b = true → op a b = canonicalNaN) ∧
    (isNaN (op a b) = true → op a b = canonicalNaN)

/-- R14 and 41_direction.md section 3: the change test is IEEE not-equal: a NaN always differs, finite operands
differ exactly when their values do (so +0.0 and -0.0 do not), and an Infinity differs from all but itself. -/
def Obligations.ChangeTestIsQuietNotEqual : Prop :=
  ∀ a b : F,
    (isNaN a = true ∨ isNaN b = true → fneq a b = true) ∧
    (isFinite a = true → isFinite b = true → (fneq a b = true ↔ valueOf a ≠ valueOf b)) ∧
    (isInf a = true → isNaN b = false → (fneq a b = true ↔ b ≠ a) ∧ (fneq b a = true ↔ b ≠ a))

/-- 00_scope.md section 4, R9: every natural number up to 2^24 is exact in binary32, and `floor` undoes `toF` there. -/
def Obligations.IntegersUpTo24BitsAreExact : Prop :=
  ∀ n : Nat, n ≤ 2 ^ 24 → isFinite (toF n) = true ∧ valueOf (toF n) = n ∧ floorF (toF n) = n

/-! ## WaveTable (40_wavetable.md) -/

/-- R102: the quarter offset is `fdiv(toF(TLEN), 4.0)`, and it is exactly TLEN/4. -/
def Obligations.QuarterOffsetIsExact : Prop :=
  ∀ s : State, s.tableLen ≤ 2 ^ 22 →
    s.quarterOffset = fdiv (toF s.tableLen) 0x40800000 ∧
    isFinite s.quarterOffset = true ∧ valueOf s.quarterOffset = (s.tableLen : ℚ) / 4

/-- Section 1: where the 192-bit computation settles the rounding, the default table word is a binary32 value nearest
to sin(2π·i/L). The computation and its condition `sinDecided` are the model's (log entry 5). -/
def Obligations.DefaultTableWordIsNearestToSine : Prop :=
  ∀ len i : Nat, i < len → sinDecided len i = true → ∀ v : F, isFinite v = true →
    |((valueOf (defaultSin len i) : ℚ) : ℝ) - Real.sin (2 * Real.pi * i / len)| ≤
      |((valueOf v : ℚ) : ℝ) - Real.sin (2 * Real.pi * i / len)|

/-- Section 1: under the default SIN_TABLE every i with 4·i mod L = 0 gets the exact value. -/
def Obligations.DefaultTableIsExactAtQuarterPoints : Prop :=
  ∀ len i : Nat, i < len → 4 * i % len = 0 →
    (4 * i / len = 0 → defaultSin len i = 0x00000000) ∧
    (4 * i / len = 1 → defaultSin len i = 0x3F800000) ∧
    (4 * i / len = 2 → defaultSin len i = 0x00000000) ∧
    (4 * i / len = 3 → defaultSin len i = 0xBF800000) ∧ 4 * i / len < 4

/-- Section 2: BUILD with no table and a legal length completes: it writes the samples and the guard word, leaves every
other index as it reads, sets TLEN, answers 0, 0 and changes nothing else. Section 1: a sample is the word that the
parameter SIN_TABLE lists for its length and index, the default where it lists none. -/
def Obligations.BuildWritesTheTable : Prop :=
  ∀ (s : State) (n : Word), s.built = false → 1 ≤ u32 n → u32 n ≤ s.cfg.lMax →
    ∃ m : Memory, exec (.build n) s =
        .next { s with tlen := n, tbl := m, response := some (.ok 0 0) } ∧
      (∀ i, i < u32 n → m.read i = some (sinTable s.cfg (u32 n) i) ∧
        (∀ w, s.cfg.sinWords.lookup (u32 n, i) = some w → sinTable s.cfg (u32 n) i = w) ∧
        (s.cfg.sinWords.lookup (u32 n, i) = none →
          sinTable s.cfg (u32 n) i = defaultSin (u32 n) i)) ∧
      m.read (u32 n) = some 0x00000000 ∧
      ∀ i, u32 n < i → m.read i = s.tbl.read i

/-- Section 3: the wrap of a finite argument is the exact real remainder x - L·floor(x/L) rounded once, and +0.0 where
that rounds to L. -/
def Obligations.WrapRoundsTheExactRemainderOnce : Prop :=
  ∀ (len : Nat) (x : F), 1 ≤ len → isFinite x = true →
    wrap len x =
      (if rneRat (valueOf x - len * ⌊valueOf x / len⌋) = toF len then 0
       else rneRat (valueOf x - len * ⌊valueOf x / len⌋))

/-- Section 6, items 1 and 2: the reduced value is finite, has positive sign and lies in [0, L); its index is below L;
the fraction is exact and lies in [0, 1). -/
def Obligations.WrapSplitsInsideTheTable : Prop :=
  ∀ (len : Nat) (x : F), 1 ≤ len → len ≤ 2 ^ 22 → isFinite x = true →
    isFinite (wrap len x) = true ∧ isNeg (wrap len x) = false ∧ valueOf (wrap len x) < len ∧
    (floorF (wrap len x) : Int) = ⌊valueOf (wrap len x)⌋ ∧ floorF (wrap len x) < len ∧
    valueOf (fsub (wrap len x) (toF (floorF (wrap len x)))) =
      valueOf (wrap len x) - floorF (wrap len x) ∧
    isFinite (fsub (wrap len x) (toF (floorF (wrap len x)))) = true

/-- Section 6, item 3: for a finite x ≥ 0 the remainder is exact. -/
def Obligations.WrapIsExactOnNonNegativeArguments : Prop :=
  ∀ (len : Nat) (x : F), 1 ≤ len → len ≤ 2 ^ 22 → isFinite x = true → 0 ≤ valueOf x →
    valueOf (wrap len x) = valueOf x - len * ⌊valueOf x / len⌋

/-- Section 6, item 6: arguments that differ by exactly k·L look up the same. -/
def Obligations.LookupIsPeriodic : Prop :=
  ∀ (s : State) (x y : F) (k : Int), s.built = true → isFinite x = true → isFinite y = true →
    valueOf y = valueOf x + k * s.tableLen → lookup s y = lookup s x

/-- Section 6, item 7: the interpolation of two table words lies between them. -/
def Obligations.InterpolationStaysBetweenItsSamples : Prop :=
  ∀ a b f : F, inUnit a = true → inUnit b = true → isFinite f = true → 0 ≤ valueOf f → valueOf f < 1 →
    isFinite (interpolate a b f) = true ∧
    min (valueOf a) (valueOf b) ≤ valueOf (interpolate a b f) ∧
    valueOf (interpolate a b f) ≤ max (valueOf a) (valueOf b)

/-- Section 4: LKSIN of a finite argument with a table built completes: it reads the two words around the reduced value,
answers their interpolation by the written sequence of primitives, and changes nothing else. -/
def Obligations.LksinInterpolatesTheTable : Prop :=
  ∀ (s : State) (x : F), s.Shape → s.built = true → isFinite x = true →
    ∃ a b, s.tbl.read (floorF (wrap s.tableLen x)) = some a ∧
      s.tbl.read (floorF (wrap s.tableLen x) + 1) = some b ∧
      exec (.lksin x) s = .next { s with
        response := some (.ok (fadd a (fmul
          (fsub (wrap s.tableLen x) (toF (floorF (wrap s.tableLen x)))) (fsub b a))) 0) }

/-- Section 5: LKCOS of a finite argument with a table built completes with the lookup of the argument plus the quarter
offset, and changes nothing else. -/
def Obligations.LkcosLooksUpAQuarterFurther : Prop :=
  ∀ (s : State) (x : F), s.Shape → s.built = true → isFinite x = true →
    isFinite (fadd x (fdiv (toF s.tableLen) 0x40800000)) = true ∧
    ∃ y, lookup s (fadd x (fdiv (toF s.tableLen) 0x40800000)) = .ok y ∧
      exec (.lkcos x) s = .next { s with response := some (.ok y 0) }

/-- Section 6, item 4: LKSIN at an integer below L answers the table word itself (for every word but -0.0, which R106
does not consider). -/
def Obligations.LksinReadsTheTableAtIntegers : Prop :=
  ∀ (s : State) (i : Nat) (w : Word), s.Shape → TableValues s → i < s.tableLen →
    s.tbl.read i = some w → w ≠ 0x80000000 →
    exec (.lksin (toF i)) s = .next { s with response := some (.ok w 0) }

/-! ## DirectionState (41_direction.md) -/

/-- Section 1: each entry of a computed matrix is the lookup of the scaled argument, a quarter further for the cosine
branch; the offset comes after the multiplication. -/
def Obligations.AxisEntriesAreScaledLookups : Prop :=
  ∀ (s : State) (v : F) (m : AxisMatrix), axisRow s v = .ok m → ∀ q : Fin 3,
    lookup s (fmul (fmul v (toF s.tableLen)) (toF (q.val + 1))) = .ok (m.entry .direct q) ∧
    lookup s (fadd (fmul (fmul v (toF s.tableLen)) (toF (q.val + 1)))
      (fdiv (toF s.tableLen) 0x40800000)) = .ok (m.entry .quarter q)

/-- Section 2: INIT with a table built and two values that can be scaled completes: both matrices are computed, both
baselines and DINIT are set, and nothing else changes. -/
def Obligations.InitComputesBothMatrices : Prop :=
  ∀ (s : State) (theta phi : F), s.Shape → s.built = true →
    axisArgsFinite s theta = true → axisArgsFinite s phi = true →
    ∃ mt mp, axisRow s theta = .ok mt ∧ axisRow s phi = .ok mp ∧
      exec (.init theta phi) s = .next { s with
        dir := some { t := mt, p := mp, thb := theta, phb := phi }
        response := some (.ok 0 0) }

/-- Section 3: CHG completes: each axis is recomputed exactly when its value differs from its baseline, and is
otherwise untouched; RA is the mask of the recomputed axes; nothing else changes. -/
def Obligations.ChgRecomputesExactlyTheChangedAxes : Prop :=
  ∀ (s : State) (theta phi : F) (d : Direction), s.Shape → s.dir = some d →
    axisOverflows s theta d.thb = false → axisOverflows s phi d.phb = false →
    ∃ d' : Direction,
      exec (.chg theta phi) s = .next { s with
        dir := some d'
        response := some (.ok ((if fneq theta d.thb then 1 else 0) + (if fneq phi d.phb then 2 else 0)) 0) } ∧
      (if fneq theta d.thb then axisRow s theta = .ok d'.t ∧ d'.thb = theta
       else d'.t = d.t ∧ d'.thb = d.thb) ∧
      (if fneq phi d.phb then axisRow s phi = .ok d'.p ∧ d'.phb = phi
       else d'.p = d.p ∧ d'.phb = d.phb)

/-- Section 5, item 1: CHG with unchanged values writes nothing. -/
def Obligations.ChgWithUnchangedValuesWritesNothing : Prop :=
  ∀ (s : State) (theta phi : F) (d : Direction), s.dir = some d →
    fneq theta d.thb = false → fneq phi d.phb = false →
    exec (.chg theta phi) s = .next { s with response := some (.ok 0 0) }

/-- Section 5, item 2: changing only phi leaves what INIT with the same pair would leave. -/
def Obligations.ChgOfPhiMatchesInit : Prop :=
  ∀ (s t : State) (phi : F) (d : Direction) (ra rb : Word), s.MatricesFresh → s.built = true →
    s.dir = some d → isFinite d.thb = true → fneq phi d.phb = true →
    exec (.chg d.thb phi) s = .next t → t.response = some (.ok ra rb) →
    ra = 2 ∧ exec (.init d.thb phi) s = .next { t with response := some (.ok 0 0) }

/-- Section 3, R123: the sign of a zero does not show in a matrix. -/
def Obligations.AxisRowIgnoresTheSignOfZero : Prop :=
  ∀ s : State, axisRow s 0x80000000 = axisRow s 0x00000000

/-- Section 4: MATRD completes once DirectionState is initialised: it answers the entry its fields name and changes
nothing else. -/
def Obligations.MatrdReadsTheNamedEntry : Prop :=
  ∀ (s : State) (d : Direction) (p : Phase) (q : Fin 3), s.dir = some d →
    exec (.matrd .theta p q) s = .next { s with response := some (.ok (d.t.entry p q) 0) } ∧
    exec (.matrd .phi p q) s = .next { s with response := some (.ok (d.p.entry p q) 0) }

/-- Section 5, item 3: "the matrices always reflect the last values passed to an update call": every step keeps it,
in a state whose directions were computed from a built table. -/
def Obligations.StepKeepsTheMatricesFresh : Prop :=
  ∀ s t : State, s.MatricesFresh → (s.dinit = true → s.built = true) → step s = .next t →
    t.MatricesFresh ∧ (t.dinit = true → t.built = true)

/-! ## HarmonicEncoder (42_harmonic.md) -/

/-- Sections 1 and 2, with 10_state.md section 6: CHAN of an existing channel completes for every sample, finite or not: it
answers the sample times the channel's weight, each weight by its written sequence of primitives on T and P with the
hardwired constants, and changes nothing else. -/
def Obligations.ChanMultipliesTheSampleByTheWeight : Prop :=
  ∀ (s : State) (d : Direction) (x : F), s.dir = some d →
    let s2 := fmul d.p.d0 d.p.d0
    let c2 := fmul d.p.q0 d.p.q0
    let c3 := fmul c2 d.p.q0
    let kk := fsub (fmul 0x40A00000 s2) 0x3F800000
    let row : Vector F 16 :=
      #v[ 0x3F3504F3, fmul d.t.q0 d.p.q0, fmul d.t.d0 d.p.q0, d.p.d0,
          fdiv (fsub (fmul 0x40400000 s2) 0x3F800000) 0x40000000,
          fmul d.t.q0 d.p.d1, fmul d.t.d0 d.p.d1, fmul d.t.q1 c2, fmul d.t.d1 c2,
          fdiv (fmul d.p.d0 (fsub (fmul 0x40A00000 s2) 0x40400000)) 0x40000000,
          fmul (fmul (fmul d.t.q0 kk) d.p.q0) 0x3F39E738,
          fmul (fmul (fmul d.t.d0 kk) d.p.q0) 0x3F39E738,
          fmul (fmul (fmul d.t.q1 d.p.d0) c2) 0x402646E1,
          fmul (fmul (fmul d.t.d1 d.p.d0) c2) 0x402646E1,
          fmul d.t.q2 c3, fmul d.t.d2 c3 ]
    ∀ k : Fin 16, exec (.chan k x) s = .next { s with response := some (.ok (fmul x row[k]) 0) }

/-- R142: channel 0 is the product with CONST_W for every direction. -/
def Obligations.ChannelZeroIsIndependentOfTheDirection : Prop :=
  ∀ (s : State) (x : F), s.dinit = true →
    exec (.chan 0 x) s = .next { s with response := some (.ok (fmul x 0x3F3504F3) 0) }

/-- Section 2: the weights of a direction whose matrices lie in [-1, 1] are all finite. -/
def Obligations.WeightsAreFinite : Prop :=
  ∀ (d : Direction) (k : Fin 16), DirectionValues d → isFinite (weight d k) = true

/-- Section 3, R143, and 10_state.md section 6: each constant is a binary32 value nearest to its exact value; computed in
exact arithmetic with the exact constants, from matrices that hold sin((q+1)x) and cos((q+1)x) of A and of E, the sixteen
weights are the listed forms; and each of them but W has maximum absolute value 1. -/
def Obligations.WeightsInExactArithmetic : Prop :=
  (constL = constM ∧ constN = constO ∧
    ∀ e ∈ [(constW, 1 / √2), (constL, √(945 / 1792)), (constN, 1.5 * √3)],
      ∀ v : F, isFinite v = true →
        |((valueOf e.1 : ℚ) : ℝ) - e.2| ≤ |((valueOf v : ℚ) : ℝ) - e.2|) ∧
  ∀ ar : WeightArith ℝ,
    ar = { mul := fun a b => a * b, sub := fun a b => a - b, div := fun a b => a / b,
           one := 1, two := 2, three := 3, five := 5, w := 1 / √2,
           l := √(945 / 1792), m := √(945 / 1792), n := 1.5 * √3, o := 1.5 * √3 } →
    ∀ M : ℝ → Phase → Fin 3 → ℝ,
      (∀ x q, M x .direct q = Real.sin ((q.val + 1) * x) ∧ M x .quarter q = Real.cos ((q.val + 1) * x)) →
      (∀ A E : ℝ, weightsIn ar (M A) (M E) =
        #v[ 1 / √2, Real.cos A * Real.cos E, Real.sin A * Real.cos E, Real.sin E,
            (3 * Real.sin E ^ 2 - 1) / 2,
            Real.cos A * Real.sin (2 * E), Real.sin A * Real.sin (2 * E),
            Real.cos (2 * A) * Real.cos E ^ 2, Real.sin (2 * A) * Real.cos E ^ 2,
            Real.sin E * (5 * Real.sin E ^ 2 - 3) / 2,
            √(945 / 1792) * Real.cos A * Real.cos E * (5 * Real.sin E ^ 2 - 1),
            √(945 / 1792) * Real.sin A * Real.cos E * (5 * Real.sin E ^ 2 - 1),
            1.5 * √3 * Real.cos (2 * A) * Real.sin E * Real.cos E ^ 2,
            1.5 * √3 * Real.sin (2 * A) * Real.sin E * Real.cos E ^ 2,
            Real.cos (3 * A) * Real.cos E ^ 3, Real.sin (3 * A) * Real.cos E ^ 3 ]) ∧
      ∀ k : Fin 16, k ≠ 0 →
        (∀ A E, |(weightsIn ar (M A) (M E))[k]| ≤ 1) ∧ ∃ A E, |(weightsIn ar (M A) (M E))[k]| = 1

/-! ## ParameterRamp (43_ramp.md) -/

/-- Section 1: RNEW with a legal block size completes on any ramp: the ramp starts again, Idle at +0.0, and nothing else
changes, not the other ramp either. -/
def Obligations.RnewStartsTheRampIdleAtZero : Prop :=
  ∀ (s : State) (n : Word), 1 ≤ u32 n → u32 n ≤ s.cfg.bsMax →
    exec (.rnew .az n) s = .next { s with
      ramp0 := { cfg := true, bs := n, pin := 0, pout := 0, inc := 0, rem := 0, ramping := false }
      response := some (.ok 0 0) } ∧
    exec (.rnew .el n) s = .next { s with
      ramp1 := { cfg := true, bs := n, pin := 0, pout := 0, inc := 0, rem := 0, ramping := false }
      response := some (.ok 0 0) }

/-- Section 2: RPROC on a constructed ramp, input, increment and output finite, completes by the four numbered steps, on
that ramp alone: a changed input restarts the ramp from the current output; otherwise the ramp goes on, or
passes the input through when Idle. -/
def Obligations.RprocFollowsTheFourSteps : Prop :=
  ∀ (s : State) (x : F) (r : RampId), (s.ramp r).cfg = true → isFinite x = true →
    (fneq x (s.ramp r).pin = true →
      ∀ inc out, inc = fdiv (fsub x (s.ramp r).pout) (toF (u32 (s.ramp r).bs)) →
        out = fadd (s.ramp r).pout inc → isFinite inc = true → isFinite out = true →
        exec (.rproc r x) s = .next { s.setRamp r { (s.ramp r) with
          pin := x, pout := out, inc := inc, rem := (s.ramp r).bs - 1,
          ramping := (s.ramp r).bs - 1 != 0 } with response := some (.ok out 0) }) ∧
    (fneq x (s.ramp r).pin = false → (s.ramp r).ramping = true → isFinite (s.ramp r).inc = true →
      ∀ out, out = fadd (s.ramp r).pout (s.ramp r).inc → isFinite out = true →
        exec (.rproc r x) s = .next { s.setRamp r { (s.ramp r) with
          pin := x, pout := out, rem := (s.ramp r).rem - 1,
          ramping := (s.ramp r).rem - 1 != 0 } with response := some (.ok out 0) }) ∧
    (fneq x (s.ramp r).pin = false → (s.ramp r).ramping = false → isFinite (s.ramp r).inc = true →
      exec (.rproc r x) s = .next { s.setRamp r { (s.ramp r) with pin := x, pout := x } with
        response := some (.ok x 0) })

/-- Section 4, R174 and R175: RPROC with a constant target x that differs from the last input, on a constructed ramp of
block size BS. The outputs o are: call k for 1 ≤ k ≤ BS adds the one increment to the output before it, and every
later call answers x exactly. Where they and the increment are finite, every call completes with its output; after call
k, BS - k steps remain (none from BS on), the ramp is Ramping while k < BS, and nothing else has changed. Call BS itself
answers the value of x when the subtraction, the division and each addition of the chain are exact (the word x, but for the
sign of a zero); otherwise call BS + 1 does (V44). -/
def Obligations.RampReachesItsTargetInBlockSizeCalls : Prop :=
  ∀ (s : State) (r : RampId) (x inc : F) (o : Nat → F) (n : Nat),
    (s.ramp r).cfg = true → 1 ≤ u32 (s.ramp r).bs → isFinite x = true → fneq x (s.ramp r).pin = true →
    inc = fdiv (fsub x (s.ramp r).pout) (toF (u32 (s.ramp r).bs)) → isFinite inc = true →
    o 0 = (s.ramp r).pout →
    (∀ k, o (k + 1) = if k < u32 (s.ramp r).bs then fadd (o k) inc else x) →
    (∀ k, k < n → isFinite (o (k + 1)) = true) →
    (∃ u : Nat → State, u 0 = s ∧ ∀ k, k < n →
      exec (.rproc r x) (u k) = .next (u (k + 1)) ∧
      u (k + 1) = { s.setRamp r { (s.ramp r) with
        pin := x, pout := o (k + 1), inc := inc,
        rem := BitVec.ofNat 32 (u32 (s.ramp r).bs - (k + 1)),
        ramping := decide (k + 1 < u32 (s.ramp r).bs) } with response := some (.ok (o (k + 1)) 0) }) ∧
    (u32 (s.ramp r).bs ≤ n →
      valueOf (fsub x (s.ramp r).pout) = valueOf x - valueOf (s.ramp r).pout →
      valueOf inc = valueOf (fsub x (s.ramp r).pout) / u32 (s.ramp r).bs →
      (∀ k, k < u32 (s.ramp r).bs → valueOf (o (k + 1)) = valueOf (o k) + valueOf inc) →
      valueOf (o (u32 (s.ramp r).bs)) = valueOf x ∧
        (valueOf x ≠ 0 → o (u32 (s.ramp r).bs) = x))

/-! ## The per-sample step and the status commands (44_system.md) -/

/-- Section 1: DIRSTEP with both ramps constructed, DirectionState initialised and every value finite completes: both
ramps step, each axis is recomputed exactly when its smoothed value differs from its baseline, and the smoothed
values are the answer. -/
def Obligations.DirstepStepsBothRampsAndTheDirection : Prop :=
  ∀ (s : State) (az el : F) (d : Direction), s.Shape → s.ramp0.cfg = true → s.ramp1.cfg = true →
    s.dir = some d → nonfiniteInput (.dirstep az el) s = false →
    ∃ d' : Direction,
      exec (.dirstep az el) s = .next { s with
        ramp0 := s.ramp0.next az
        ramp1 := s.ramp1.next el
        dir := some d'
        response := some (.ok (s.ramp0.next az).pout (s.ramp1.next el).pout) } ∧
      (if fneq (s.ramp0.next az).pout d.thb
       then axisRow s (s.ramp0.next az).pout = .ok d'.t ∧ d'.thb = (s.ramp0.next az).pout
       else d'.t = d.t ∧ d'.thb = d.thb) ∧
      (if fneq (s.ramp1.next el).pout d.phb
       then axisRow s (s.ramp1.next el).pout = .ok d'.p ∧ d'.phb = (s.ramp1.next el).pout
       else d'.p = d.p ∧ d'.phb = d.phb)

/-- Section 1, R192: a DIRSTEP that succeeds leaves the state and gives the results of RPROC az, RPROC el and then CHG
with their results. -/
def Obligations.DirstepEqualsItsThreeCommands : Prop :=
  ∀ (s t : State) (az el a e : F), exec (.dirstep az el) s = .next t → t.response = some (.ok a e) →
    ∃ (s1 s2 s3 : State) (mask : Word),
      exec (.rproc .az az) s = .next s1 ∧ s1.response = some (.ok a 0) ∧
      exec (.rproc .el el) s1 = .next s2 ∧ s2.response = some (.ok e 0) ∧
      exec (.chg a e) s2 = .next s3 ∧ s3.response = some (.ok mask 0) ∧
      t = { s3 with response := some (.ok a e) }

/-- Section 2: RDSTAT completes in every state: it answers STATUS and TLEN and changes nothing else. -/
def Obligations.RdstatAnswersStatusAndLength : Prop :=
  ∀ s : State, exec .rdstat s = .next { s with response := some (.ok s.status s.tlen) }

/-- Section 3: CLRERR completes in every state: STATUS[12:8] and STATUS[19:16] become 0 and nothing else changes. -/
def Obligations.ClrerrClearsTheErrorRecordAlone : Prop :=
  ∀ s : State, exec .clrerr s =
    .next { s with sticky := 0, lastCause := 0, response := some (.ok 0 0) }

/-- Section 4: NOP completes in every state and changes nothing. -/
def Obligations.NopChangesNothing : Prop :=
  ∀ s : State, exec .nop s = .next { s with response := some (.ok 0 0) }

/-- 10_state.md section 2, R22 and R23: each bit of STATUS, as RDSTAT reads it. -/
def Obligations.StatusMirrorsTheState : Prop :=
  ∀ s : State,
    s.status.getLsbD 0 = decide (s.tlen ≠ 0) ∧ s.status.getLsbD 1 = s.dir.isSome ∧
    s.status.getLsbD 2 = s.ramp0.cfg ∧ s.status.getLsbD 3 = s.ramp1.cfg ∧
    s.status.getLsbD 4 = s.ramp0.ramping ∧ s.status.getLsbD 5 = s.ramp1.ramping ∧
    s.status.extractLsb' 6 2 = 0 ∧ s.status.extractLsb' 8 5 = s.sticky ∧
    s.status.extractLsb' 13 3 = 0 ∧ s.status.extractLsb' 16 4 = s.lastCause ∧
    s.status.extractLsb' 20 12 = 0

/-! ## Rejections (60_exceptions.md) -/

/-- R214: a rejected command leaves the state before it, but for its own sticky bit and LASTCAUSE (the port's fields
aside: the command has left it, the position has advanced, the response carries the cause and no result word). The codes
are the five of 60_exceptions.md section 1, and the response's CODE is the same; a success has CODE 0 (30_encoding.md
section 5). -/
def Obligations.RejectionsArePrecise : Prop :=
  (∀ ra rb, responseCode (.ok ra rb) = 0) ∧
  ∀ (s t : State) (c : Command) (rest : List HostAction) (k : Cause),
    s.pending = .command c :: rest → step s = .next t → t.response = some (.rejected k) →
    ∃ (code : BitVec 4) (bit : BitVec 5),
      (code, bit) = (match k with
        | .illegal => (1, 0b00001)
        | .order => (2, 0b00010)
        | .config => (3, 0b00100)
        | .channel => (4, 0b01000)
        | .nonfinite => (5, 0b10000)) ∧
      responseCode (.rejected k) = code ∧
      t = { s with
        pending := rest
        position := s.position + 1
        sticky := s.sticky ||| bit
        lastCause := code
        response := some (.rejected k) }

/-- Section 1, R212: a command is rejected with ORDER exactly when its prerequisite is missing, whatever its
operands (R215). -/
def Obligations.OrderMeansAMissingPrerequisite : Prop :=
  ∀ (i : Instr) (s : State),
    (missingPrerequisite i s = true → exec i s = .next (s.reject .order)) ∧
    ∀ t, exec i s = .next t →
      (t.response = some (.rejected .order) ↔ missingPrerequisite i s = true)

/-- Sections 1 and 2, R213 and R215: CONFIG and CHANNEL are raised exactly by an operand out of its range once the
prerequisites are met, and a decoded command is never ILLEGAL. -/
def Obligations.RangeCausesFollowTheOperands : Prop :=
  ∀ (i : Instr) (s t : State), exec i s = .next t →
    (t.response = some (.rejected .config) ↔
      missingPrerequisite i s = false ∧ configOutOfRange i s = true) ∧
    (t.response = some (.rejected .channel) ↔
      missingPrerequisite i s = false ∧ channelOutOfRange i = true) ∧
    t.response ≠ some (.rejected .illegal)

/-- Section 1, R213: once the prerequisites are met, NONFINITE is raised exactly where the rule says a non-finite value is
met. -/
def Obligations.NonfiniteMeansANonFiniteValue : Prop :=
  ∀ (i : Instr) (s t : State), s.Shape → missingPrerequisite i s = false → exec i s = .next t →
    (t.response = some (.rejected .nonfinite) ↔ nonfiniteInput i s = true)

/-- 10_state.md section 2, R23: a command that succeeds leaves the error record as it was, unless it is CLRERR. -/
def Obligations.SuccessLeavesTheErrorRecord : Prop :=
  ∀ (i : Instr) (s t : State) (ra rb : Word), i ≠ .clrerr → exec i s = .next t →
    t.response = some (.ok ra rb) → t.sticky = s.sticky ∧ t.lastCause = s.lastCause

/-! ## The whole machine -/

/-- 10_state.md section 7, R34: each element is written only by the commands of its row. The parameters, the host's actions
and the position are written by none; the error record only by a rejected command and CLRERR; TLEN and every table index
only by BUILD; T, P, THB and PHB only by INIT, CHG and DIRSTEP; DINIT only by INIT; a ramp only by the RNEW and RPROC
that name it and by DIRSTEP. -/
def Obligations.OnlyTheNamedCommandsWrite : Prop :=
  ∀ (i : Instr) (s t : State), exec i s = .next t →
    t.cfg = s.cfg ∧ t.pending = s.pending ∧ t.position = s.position ∧
    (i ≠ .clrerr → (∀ c, t.response ≠ some (.rejected c)) →
      t.sticky = s.sticky ∧ t.lastCause = s.lastCause) ∧
    ((∀ n, i ≠ .build n) → t.tlen = s.tlen ∧ ∀ a, t.tbl.read a = s.tbl.read a) ∧
    ((∀ x y, i ≠ .init x y ∧ i ≠ .chg x y ∧ i ≠ .dirstep x y) → t.dir = s.dir) ∧
    ((∀ x y, i ≠ .init x y) → t.dinit = s.dinit) ∧
    (∀ r, (∀ n, i ≠ .rnew r n) → (∀ x, i ≠ .rproc r x) → (∀ x y, i ≠ .dirstep x y) →
      t.ramp r = s.ramp r)

/-- 70_reset_and_hazards.md section 1, R243: without a reset the table stays built, with its length and every word;
DINIT stays 1; a ramp stays constructed. -/
def Obligations.OnlyResetUnbuilds : Prop :=
  ∀ s t : State, (∀ rest, s.pending ≠ .reset :: rest) → (∀ c rest, s.pending ≠ .resetDuring c :: rest) →
    step s = .next t →
    (s.built = true → t.built = true ∧ t.tlen = s.tlen ∧ ∀ a, t.tbl.read a = s.tbl.read a) ∧
    (s.dinit = true → t.dinit = true) ∧ ∀ r, (s.ramp r).cfg = true → (t.ramp r).cfg = true

/-- 10_state.md sections 1 and 10: the position advances by exactly 1 with every command, succeeded or rejected; no
command's result depends on it, on an earlier response or on the host's later actions; and no step keeps the response
of an earlier command. The three fields are the model's (log entries 1, 2 and 3). -/
def Obligations.PositionCountsCommandsUnread : Prop :=
  (∀ (s t : State) (c : Command) (rest : List HostAction), s.pending = .command c :: rest →
    step s = .next t → t.position = s.position + 1 ∧ t.pending = rest) ∧
  (∀ (i : Instr) (s t : State) (r : Option Response) (n : Nat) (p : List HostAction),
    exec i s = .next t →
    exec i { s with response := r, position := n, pending := p } =
      .next { t with position := n, pending := p }) ∧
  ∀ (s : State) (r : Option Response), step { s with response := r } = step s

/-- 30_encoding.md section 6, R80: the next command of the host, decoded, is what a step runs, in the state in which the
command has left the port, the position has advanced and the response of the command before is gone. -/
def Obligations.StepRunsTheDecodedCommand : Prop :=
  ∀ (s : State) (c : Command) (rest : List HostAction) (i : Instr),
    s.pending = .command c :: rest → decode c = .ok i →
    step s = exec i { s with pending := rest, position := s.position + 1, response := none }

/-- 60_exceptions.md section 1, R211: a command word that decoding rejects is rejected with ILLEGAL, and with no host
action the core keeps its state (R228), to which no response belongs (10_state.md R39). -/
def Obligations.StepRejectsIllegalWordsAndIdles : Prop :=
  (∀ (s : State) (c : Command) (rest : List HostAction), s.pending = .command c :: rest →
    illegalWord c.cmd = true →
    step s = .next { s with
      pending := rest
      position := s.position + 1
      sticky := s.sticky ||| 1
      lastCause := 1
      response := some (.rejected .illegal) }) ∧
  ∀ s : State, s.pending = [] → step s = .next { s with response := none }

/-- 70_reset_and_hazards.md section 1, R240 and R241: reset, also during a command and whatever the command, leaves the
reset state, with no response and position 0. That the implementation's parameters and the host's later actions remain is
the model's choice (log entry 8; the fields are those of log entries 1 and 4). -/
def Obligations.ResetDuringACommandAbandonsIt : Prop :=
  ∀ (s : State) (c : Command) (rest : List HostAction),
    (s.pending = .reset :: rest →
      step s = .next { State.reset with cfg := s.cfg, pending := rest }) ∧
    (s.pending = .resetDuring c :: rest →
      step s = .next { State.reset with cfg := s.cfg, pending := rest })

/-- 10_state.md section 10, R38: what reset leaves: STATUS and TLEN 0, no table word, no matrix or baseline, both ramps
unconstructed, Idle at +0.0. -/
def Obligations.ResetLeavesNothingBuilt : Prop :=
  State.reset.status = 0 ∧ State.reset.tlen = 0 ∧ (∀ i, State.reset.tbl.read i = none) ∧
  State.reset.dir = none ∧
  ∀ r, State.reset.ramp r =
    { cfg := false, bs := 0, pin := 0x00000000, pout := 0x00000000, inc := 0x00000000, rem := 0,
      ramping := false }

/-- 10_state.md section 8, R35: the reset state meets all eight invariants. -/
def Obligations.ResetMeetsTheInvariants : Prop := State.reset.Inv

/-- 10_state.md section 8, R35 items 1 to 4 and 8, and R40: every step keeps them, from every state that meets them. -/
def Obligations.StepKeepsTheShape : Prop :=
  ∀ s t : State, s.Shape → step s = .next t → t.Shape

/-- 10_state.md section 8, R35: every step keeps all eight invariants, from every state that meets them; the matrices
stay in [-1, 1]. -/
def Obligations.StepKeepsTheInvariants : Prop :=
  ∀ s t : State, s.Inv → step s = .next t → t.Inv

/-- 40_wavetable.md section 1 and 20_memory.md section 5: every step keeps the table as BUILD wrote it. -/
def Obligations.StepKeepsTheTableAsBuilt : Prop :=
  ∀ s t : State, s.TableAsBuilt → (s.built = false → s.tbl = []) → step s = .next t →
    t.TableAsBuilt ∧ (t.built = false → t.tbl = [])

/-- 60_exceptions.md section 2, R214: there is no stuck, halted or fault state: from every state that meets the
invariants a step answers a next state. -/
def Obligations.NoStateIsStuck : Prop :=
  ∀ s : State, s.Shape → ∃ t, step s = .next t

/-- 60_exceptions.md section 5, R229: every finite list of host actions runs to its end, and its observation holds one
response for each command that no reset interrupts. -/
def Obligations.EveryRunAnswersEachCommand : Prop :=
  ∀ (acts : List HostAction) (s : State), s.Shape →
    ∃ rs t, observe acts s = .next (rs, t) ∧ t.Shape ∧
      rs.length = acts.countP fun a => match a with
        | .command _ => true
        | .reset => false
        | .resetDuring _ => false
end

