-- ==== Sys2Proof/Laws/Binary32.lean ====
section
/-! SUPPORT. The small lemmas of the numeric primitives: what the parts of a word are after `pack` and `fneg`, what
`nearestEven` answers, and that `roundMag` is exact on what binary32 holds and never answers past Infinity. -/

namespace Sys2Proof.Machine

theorem mag_lt (x : F) : mag x < 2 ^ 31 := Nat.mod_lt _ (by decide)

theorem mag_pack {neg : Bool} {m : Nat} (h : m < 2 ^ 31) : mag (pack neg m) = m := by
  unfold mag pack; cases neg <;> simp <;> omega

theorem isNeg_pack {neg : Bool} {m : Nat} (h : m < 2 ^ 31) : isNeg (pack neg m) = neg := by
  unfold isNeg pack
  rw [BitVec.getLsbD_ofNat]
  cases neg
  · simp [Nat.testBit_lt_two_pow h]
  · have h1 : (m + 2 ^ 31).testBit 31 = true := by
      rw [Nat.add_comm, Nat.testBit_two_pow_add_eq, Nat.testBit_lt_two_pow h]; rfl
    simpa using h1

/-- A word is its sign and its magnitude. -/
theorem pack_isNeg_mag (x : F) : pack (isNeg x) (mag x) = x := by
  apply BitVec.eq_of_toNat_eq
  have hx := x.isLt
  have h : isNeg x = decide (2 ^ 31 ≤ x.toNat) := by
    unfold isNeg
    simpa [BitVec.msb_eq_getLsbD_last] using BitVec.msb_eq_decide x
  unfold pack mag
  rw [h]
  rw [BitVec.toNat_ofNat]
  by_cases hn : 2 ^ 31 ≤ x.toNat
  · simp only [hn, decide_true, if_true]; omega
  · simp only [hn, decide_false, Bool.false_eq_true, if_false]; omega

/-- Two words are equal when their signs and magnitudes are. -/
theorem word_ext {x y : F} (hs : isNeg x = isNeg y) (hm : mag x = mag y) : x = y := by
  rw [← pack_isNeg_mag x, ← pack_isNeg_mag y, hs, hm]

theorem isFinite_pack {neg : Bool} {m : Nat} (h : m < 2 ^ 31) :
    isFinite (pack neg m) = decide (m < infMag) := by
  unfold isFinite; rw [mag_pack h]

@[simp] theorem mag_fneg (x : F) : mag (fneg x) = mag x := by
  unfold mag fneg
  rw [BitVec.toNat_xor, Nat.xor_mod_two_pow]
  simp

@[simp] theorem isNeg_fneg (x : F) : isNeg (fneg x) = !isNeg x := by
  simp [isNeg, fneg]

@[simp] theorem units_fneg (x : F) : units (fneg x) = -units x := by
  unfold units; cases h : isNeg x <;> simp [h]

theorem units_pack {neg : Bool} {m : Nat} (h : m < 2 ^ 31) :
    units (pack neg m) = if neg then -(unitsOfMag m : Int) else (unitsOfMag m : Int) := by
  unfold units; rw [isNeg_pack h, mag_pack h]

/-! ## Rounding -/

/-- `nearestEven` answers a number within half of `n / d`. -/
theorem nearestEven_near (n : Nat) {d : Nat} (hd : 0 < d) :
    2 * n ≤ 2 * (nearestEven n d * d) + d ∧ 2 * (nearestEven n d * d) ≤ 2 * n + d := by
  have h := Nat.div_add_mod n d
  have hr := Nat.mod_lt n hd
  have hc : n / d * d = d * (n / d) := Nat.mul_comm ..
  have h1 : (n / d + 1) * d = d * (n / d) + d := by ring
  simp only [nearestEven]
  split
  · omega
  · split
    · omega
    · rcases Nat.mod_two_eq_zero_or_one (n / d) with h2 | h2 <;> rw [h2]
      · rw [Nat.add_zero]; omega
      · omega

/-- Halfway between two numbers `nearestEven` answers the even one. -/
theorem nearestEven_even {n d : Nat} (h : 2 * (n % d) = d) : nearestEven n d % 2 = 0 := by
  simp only [nearestEven]
  split
  · omega
  · split <;> omega

theorem nearestEven_mul (k : Nat) {d : Nat} (hd : 0 < d) : nearestEven (k * d) d = k := by
  simp [nearestEven, hd]

theorem roundMag_le (n d : Nat) : roundMag n d ≤ infMag := Nat.min_le_left ..

theorem roundMag_lt (n d : Nat) : roundMag n d < 2 ^ 31 := by
  have := roundMag_le n d; unfold infMag at this; omega

/-- The binade of the units of a magnitude: none below the second normal one, then one for each exponent. -/
theorem log2_unitsOfMag (m : Nat) : Nat.log2 (unitsOfMag m) - 23 = m / 2 ^ 23 - 1 := by
  unfold unitsOfMag
  split
  · rename_i h
    have : Nat.log2 m < 24 := by
      by_cases h0 : m = 0
      · simp [h0]
      · exact (Nat.log2_lt h0).2 h
    omega
  · rename_i h
    have hm : m % 2 ^ 23 < 2 ^ 23 := Nat.mod_lt _ (by decide)
    have h0 : (2 ^ 23 + m % 2 ^ 23) * 2 ^ (m / 2 ^ 23 - 1) ≠ 0 := by positivity
    have hl : Nat.log2 ((2 ^ 23 + m % 2 ^ 23) * 2 ^ (m / 2 ^ 23 - 1)) = 23 + (m / 2 ^ 23 - 1) := by
      rw [Nat.log2_eq_iff h0]
      constructor
      · rw [pow_add]; exact Nat.mul_le_mul_right _ (by omega)
      · rw [show 23 + (m / 2 ^ 23 - 1) + 1 = 24 + (m / 2 ^ 23 - 1) by omega, pow_add]
        exact Nat.mul_lt_mul_of_pos_right (by omega) (by positivity)
    rw [hl]; omega

/-- A value that binary32 holds rounds to itself. -/
theorem roundMag_unitsOfMag {m d : Nat} (hd : 0 < d) (hm : m ≤ infMag) :
    roundMag (unitsOfMag m * d) d = m := by
  unfold roundMag
  rw [Nat.mul_div_cancel _ hd, log2_unitsOfMag]
  have key : (m / 2 ^ 23 - 1) * 2 ^ 23 + nearestEven (unitsOfMag m * d) (d * 2 ^ (m / 2 ^ 23 - 1)) = m := by
    unfold unitsOfMag
    split
    · rename_i h
      have : m / 2 ^ 23 - 1 = 0 := by omega
      rw [this]
      simp [nearestEven_mul m hd]
    · rename_i h
      rw [show (2 ^ 23 + m % 2 ^ 23) * 2 ^ (m / 2 ^ 23 - 1) * d
          = (2 ^ 23 + m % 2 ^ 23) * (d * 2 ^ (m / 2 ^ 23 - 1)) by ring,
        nearestEven_mul _ (by positivity)]
      omega
  simp only [key]
  omega

/-- Rounding a larger fraction to a whole number never answers a smaller one. -/
theorem nearestEven_mono {n d n' d' : Nat} (hd : 0 < d) (hd' : 0 < d') (h : n * d' ≤ n' * d) :
    nearestEven n d ≤ nearestEven n' d' := by
  by_contra hlt
  have hlt : nearestEven n' d' + 1 ≤ nearestEven n d := by omega
  have h1 := (nearestEven_near n hd).2
  have h2 := (nearestEven_near n' hd').1
  have e1 : 2 * (nearestEven n d * d) * d' ≤ (2 * n + d) * d' := Nat.mul_le_mul_right _ h1
  have e2 : 2 * n' * d ≤ (2 * (nearestEven n' d' * d') + d') * d := Nat.mul_le_mul_right _ h2
  have e3 : (nearestEven n' d' + 1) * (d * d') ≤ nearestEven n d * (d * d') := Nat.mul_le_mul_right _ hlt
  have hnn : n * d' = n' * d := by nlinarith
  have hqq : nearestEven n d * (d * d') = (nearestEven n' d' + 1) * (d * d') := by nlinarith
  have hq : nearestEven n d = nearestEven n' d' + 1 := Nat.eq_of_mul_eq_mul_right (by positivity) hqq
  have hdiv : n / d = n' / d' := by
    rw [← Nat.mul_div_mul_right n d hd', ← Nat.mul_div_mul_right n' d' hd, hnn, Nat.mul_comm d d']
  have hmod : n % d * d' = n' % d' * d := by
    have m1 := Nat.div_add_mod n d
    have m2 := Nat.div_add_mod n' d'
    rw [hdiv] at m1
    have : (d * (n' / d') + n % d) * d' = (d' * (n' / d') + n' % d') * d := by rw [m1, m2, hnn]
    nlinarith
  have c1 : 2 * (n % d) < d ↔ 2 * (n' % d') < d' := by
    constructor <;> intro hh <;> by_contra hc <;> nlinarith
  have c2 : d < 2 * (n % d) ↔ d' < 2 * (n' % d') := by
    constructor <;> intro hh <;> by_contra hc <;> nlinarith
  have : nearestEven n d = nearestEven n' d' := by simp only [nearestEven, hdiv, c1, c2]
  omega

theorem nearestEven_le {n d k : Nat} (hd : 0 < d) (h : n ≤ k * d) : nearestEven n d ≤ k := by
  have := nearestEven_mono (d' := d) (n' := k * d) hd hd (Nat.mul_le_mul_right _ h)
  rwa [nearestEven_mul k hd] at this

theorem le_nearestEven {n d k : Nat} (hd : 0 < d) (h : k * d ≤ n) : k ≤ nearestEven n d := by
  have := nearestEven_mono (n := k * d) (d' := d) hd hd (Nat.mul_le_mul_right _ h)
  rwa [nearestEven_mul k hd] at this

/-- Rounding is monotone: a larger value never has a smaller magnitude. -/
theorem roundMag_mono {n d n' d' : Nat} (hd : 0 < d) (hd' : 0 < d') (h : n * d' ≤ n' * d) :
    roundMag n d ≤ roundMag n' d' := by
  have hq : n / d ≤ n' / d' := by
    rw [Nat.le_div_iff_mul_le hd']
    have := Nat.div_mul_le_self n d
    by_contra hc
    have h1 : n' + 1 ≤ n / d * d' := by omega
    have h2 : (n' + 1) * d ≤ n / d * d' * d := Nat.mul_le_mul_right _ h1
    have h3 : n / d * d * d' ≤ n * d' := Nat.mul_le_mul_right _ this
    nlinarith
  unfold roundMag
  simp only
  refine min_le_min le_rfl ?_
  have hlog : Nat.log2 (n / d) ≤ Nat.log2 (n' / d') := by
    rw [Nat.log2_eq_log_two, Nat.log2_eq_log_two]; exact Nat.log_mono_right hq
  generalize he : Nat.log2 (n / d) - 23 = e
  generalize he' : Nat.log2 (n' / d') - 23 = e'
  rcases Nat.lt_or_ge e e' with hlt | hge
  · have b1 : nearestEven n (d * 2 ^ e) ≤ 2 ^ 24 := by
      refine nearestEven_le (by positivity) ?_
      have : n / d < 2 ^ (24 + e) := by
        rcases Nat.eq_zero_or_pos (n / d) with hz | hp
        · rw [hz]; positivity
        · exact (Nat.log2_lt (by omega)).1 (by omega)
      have h1 := (Nat.div_lt_iff_lt_mul hd).1 this
      rw [pow_add] at h1
      nlinarith
    have b2 : 2 ^ 23 ≤ nearestEven n' (d' * 2 ^ e') := by
      refine le_nearestEven (by positivity) ?_
      have hne : n' / d' ≠ 0 := by intro hz; rw [hz] at he'; simp at he'; omega
      have : 2 ^ (23 + e') ≤ n' / d' := (Nat.le_log2 hne).1 (by omega)
      have h1 := (Nat.le_div_iff_mul_le hd').1 this
      rw [pow_add] at h1
      nlinarith
    have : (e + 1) * 2 ^ 23 ≤ e' * 2 ^ 23 := Nat.mul_le_mul_right _ hlt
    omega
  · have heq : e = e' := by omega
    rw [heq]
    refine Nat.add_le_add_left (nearestEven_mono (by positivity) (by positivity) ?_) _
    nlinarith [Nat.mul_le_mul_right (2 ^ e') h]

@[simp] theorem unitsOfMag_zero : unitsOfMag 0 = 0 := by decide

@[simp] theorem roundMag_zero (d : Nat) : roundMag 0 d = 0 := by
  simp [roundMag, nearestEven]

/-- A finite value other than zero is the rounding of its own units. -/
theorem rneUnits_units {x : F} (hx : isFinite x = true) (h0 : units x ≠ 0) : rneUnits (units x) = x := by
  have hm : mag x ≤ infMag := Nat.le_of_lt (by simpa [isFinite] using hx)
  have hu : 0 < unitsOfMag (mag x) := by
    rcases Nat.eq_zero_or_pos (unitsOfMag (mag x)) with h | h
    · exact absurd (by simp [units, h]) h0
    · exact h
  have hr := roundMag_unitsOfMag (m := mag x) (d := 1) (by decide) hm
  rw [Nat.mul_one] at hr
  unfold rneUnits rneSigned
  cases hs : isNeg x
  · have : units x = (unitsOfMag (mag x) : Int) := by simp [units, hs]
    rw [this]
    rw [Int.natAbs_natCast, hr, decide_eq_false (by omega), ← hs, pack_isNeg_mag]
  · have : units x = -(unitsOfMag (mag x) : Int) := by simp [units, hs]
    rw [this]
    simp [hr, hu]
    rw [← hs, pack_isNeg_mag]

end Sys2Proof.Machine
end

