-- ==== Sys2Proof/Laws/Encoding.lean ====
section
/-! SUPPORT. The opcode map and the byte form of a command. -/

namespace Sys2Proof

/-- Two different rows of the opcode map differ in a bit that both their masks fix. -/
theorem opcodeMap_rows_differ :
    opcodeMap.Pairwise fun r r' => (r.pattern ^^^ r'.pattern) &&& (r.mask &&& r'.mask) ≠ 0 := by decide

/-- No command word selects two rows whose patterns differ in a bit that both masks fix. -/
theorem OpcodeRow.not_both_select {r r' : OpcodeRow} {w : Word}
    (hd : (r.pattern ^^^ r'.pattern) &&& (r.mask &&& r'.mask) ≠ 0) (h : r.selects w = true) :
    r'.selects w = false := by
  by_contra h'
  simp only [OpcodeRow.selects, beq_iff_eq, Bool.not_eq_false] at h h'
  refine hd ?_
  rw [← h, ← h']
  ext i hi
  simp only [BitVec.getElem_and, BitVec.getElem_xor]
  cases w[i] <;> cases r.mask[i] <;> cases r'.mask[i] <;> simp

/-- At most one row of the opcode map matches any command word (30_encoding.md R78). -/
theorem opcodeMap_selects_one (w : Word) :
    opcodeMap.Pairwise fun r r' => r.selects w = true → r'.selects w = false :=
  opcodeMap_rows_differ.imp fun hd h => OpcodeRow.not_both_select hd h

/-- The four bytes of a word put together are the word (20_memory.md R51). -/
@[simp] theorem bytesWord_wordBytes (w : Word) :
    bytesWord (w.extractLsb' 0 8) (w.extractLsb' 8 8) (w.extractLsb' 16 8) (w.extractLsb' 24 8) = w := by
  refine BitVec.eq_of_getLsbD_eq fun i hi => ?_
  rw [bytesWord, BitVec.getLsbD_append, BitVec.getLsbD_append, BitVec.getLsbD_append]
  simp only [BitVec.getLsbD_extractLsb']
  split
  · simp [*]
  · split
    · rw [show 8 + (i - 8) = i by omega]; simp [*]
    · split
      · rw [show 16 + (i - 8 - 8) = i by omega]; simp [*]
      · rw [show 24 + (i - 8 - 8 - 8) = i by omega, decide_eq_true (by omega : i - 8 - 8 - 8 < 8)]; simp

/-- A command sent as bytes is received as it was (20_memory.md R51). -/
theorem Command.ofBytes_bytes (c : Command) (rest : List Byte) :
    Command.ofBytes (c.bytes ++ rest) = some (c, rest) := by
  simp [Command.bytes, wordBytes, Command.ofBytes]

end Sys2Proof
end

