-- ==== Sys2Proof/Laws/Memory.lean ====
section
/-! SUPPORT. The table memory: a read after a write, and the canonical form that every memory operation keeps. -/

namespace Sys2Proof.Machine

@[simp] theorem Memory.read_nil (i : Nat) : Memory.read [] i = none := rfl

@[simp] theorem Memory.read_write_same (m : Memory) (i : Nat) (v : Word) :
    (Memory.write m i v).read i = some v := by
  induction m with
  | nil => simp [Memory.write, Memory.read]
  | cons e m ih =>
    simp only [Memory.write]
    split
    · simp [Memory.read]
    · split
      · simp [Memory.read]
      · simp [Memory.read, *]

theorem Memory.read_write_other (m : Memory) {i k : Nat} (v : Word) (h : k ≠ i) :
    (Memory.write m i v).read k = m.read k := by
  induction m with
  | nil => simp [Memory.write, Memory.read, h]
  | cons e m ih =>
    simp only [Memory.write]
    split
    · simp [Memory.read, h]
    · split
      · next hi => subst hi; simp [Memory.read, h]
      · simp [Memory.read, ih]

/-- The indices a write leaves listed. -/
theorem Memory.mem_keys_write (m : Memory) (i k : Nat) (v : Word) :
    k ∈ (Memory.write m i v).map Prod.fst ↔ k = i ∨ k ∈ m.map Prod.fst := by
  induction m with
  | nil => simp [Memory.write]
  | cons e m ih =>
    simp only [Memory.write]
    split
    · simp
    · split
      · next hi => subst hi; simp
      · simp only [List.map_cons, List.mem_cons, ih]; tauto

/-- A write keeps the canonical form. -/
theorem Memory.wf_write {m : Memory} (h : m.wf) (i : Nat) (v : Word) : (Memory.write m i v).wf := by
  induction m with
  | nil => simp [Memory.write, Memory.wf]
  | cons e m ih =>
    obtain ⟨hj, hm⟩ := List.pairwise_cons.mp h
    simp only [Memory.write]
    split
    · next hlt =>
      refine List.pairwise_cons.mpr ⟨fun k hk => ?_, h⟩
      rcases List.mem_cons.mp hk with rfl | hk
      · exact hlt
      · exact lt_trans hlt (hj k hk)
    · split
      · next hi => subst hi; exact List.pairwise_cons.mpr ⟨hj, hm⟩
      · refine List.pairwise_cons.mpr ⟨fun k hk => ?_, ih hm⟩
        rcases (Memory.mem_keys_write m i k v).mp hk with rfl | hk
        · omega
        · exact hj k hk

/-- An index that is listed reads as its word, and only such an index holds a value. -/
theorem Memory.read_isSome_iff (m : Memory) (i : Nat) :
    (m.read i).isSome = true ↔ i ∈ m.map Prod.fst := by
  induction m with
  | nil => simp
  | cons e m ih =>
    simp only [Memory.read, List.map_cons, List.mem_cons]
    split
    · simp [*]
    · simp [*]

/-- Two memories in canonical form that read alike are the same data. -/
theorem Memory.ext_of_wf {m m' : Memory} (h : m.wf) (h' : m'.wf)
    (hr : ∀ i, m.read i = m'.read i) : m = m' := by
  induction m generalizing m' with
  | nil =>
    cases m' with
    | nil => rfl
    | cons e m' => have := hr e.1; simp [Memory.read] at this
  | cons e m ih =>
    cases m' with
    | nil => have := hr e.1; simp [Memory.read] at this
    | cons e' m' =>
      obtain ⟨j, w⟩ := e
      obtain ⟨j', w'⟩ := e'
      obtain ⟨hj, hm⟩ := List.pairwise_cons.mp h
      obtain ⟨hj', hm'⟩ := List.pairwise_cons.mp h'
      have key : j = j' := by
        have h1 := (Memory.read_isSome_iff ((j', w') :: m') j).mp
          (by rw [← hr j]; simp [Memory.read])
        have h2 := (Memory.read_isSome_iff ((j, w) :: m) j').mp
          (by rw [hr j']; simp [Memory.read])
        rcases List.mem_cons.mp h1 with h1 | h1
        · exact h1
        · rcases List.mem_cons.mp h2 with h2 | h2
          · exact h2.symm
          · have := hj' j h1
            have := hj j' h2
            simp only at *
            omega
      subst key
      have hw : w = w' := by have := hr j; simpa [Memory.read] using this
      subst hw
      rw [ih hm hm' fun i => ?_]
      by_cases hi : i = j
      · have none_of (l : Memory) (hl : ∀ k ∈ l.map Prod.fst, j < k) : l.read j = none := by
          by_contra hne
          have := (Memory.read_isSome_iff l j).mp (Option.isSome_iff_ne_none.mpr hne)
          exact lt_irrefl _ (hl j this)
        rw [hi, none_of m hj, none_of m' hj']
      · have := hr i; simpa [Memory.read, hi] using this

/-- The loop of BUILD keeps the canonical form. -/
theorem writeSines_wf (cfg : Config) (len k : Nat) {m : Memory} (h : m.wf) :
    (writeSines cfg len k m).wf := by
  induction k with
  | zero => exact h
  | succ k ih => exact Memory.wf_write ih _ _

/-- BUILD keeps the canonical form. -/
theorem buildTable_wf (cfg : Config) (len : Nat) {m : Memory} (h : m.wf) : (buildTable cfg len m).wf :=
  Memory.wf_write (writeSines_wf cfg len len h) _ _

/-- What the loop of BUILD leaves at every index. -/
theorem read_writeSines (cfg : Config) (len k : Nat) (m : Memory) (i : Nat) :
    (writeSines cfg len k m).read i = if i < k then some (sinTable cfg len i) else m.read i := by
  induction k with
  | zero => simp [writeSines]
  | succ k ih =>
    by_cases h : i = k
    · subst h; simp [writeSines]
    · rw [writeSines, Memory.read_write_other _ _ h, ih]
      have : i < k + 1 ↔ i < k := by omega
      simp [this]

/-- What BUILD leaves at every index: the samples, the guard word, and what was there above it. -/
theorem read_buildTable (cfg : Config) (len : Nat) (m : Memory) (i : Nat) :
    (buildTable cfg len m).read i =
      if i < len then some (sinTable cfg len i) else if i = len then some 0 else m.read i := by
  by_cases h : i = len
  · subst h; simp [buildTable]
  · rw [buildTable, Memory.read_write_other _ _ h, read_writeSines]; simp [h]

/-- The memory of the reset state is in canonical form. -/
theorem reset_tbl_wf : State.reset.tbl.wf := List.Pairwise.nil

end Sys2Proof.Machine
end

