-- ==== Sys2Proof/Laws/State.lean ====
section
/-! SUPPORT. One lemma per field per update of the state, so that no proof unfolds a record update; the same for the values
computed from the state (BUILT, DINIT, R[r], L, Q). -/

namespace Sys2Proof.Machine

/-! The fields after `State.respond`. -/

@[simp] theorem State.respond_cfg (s : State) (ra rb : Word) :
    (s.respond ra rb).cfg = s.cfg := rfl

@[simp] theorem State.respond_tlen (s : State) (ra rb : Word) :
    (s.respond ra rb).tlen = s.tlen := rfl

@[simp] theorem State.respond_tbl (s : State) (ra rb : Word) :
    (s.respond ra rb).tbl = s.tbl := rfl

@[simp] theorem State.respond_dir (s : State) (ra rb : Word) :
    (s.respond ra rb).dir = s.dir := rfl

@[simp] theorem State.respond_ramp0 (s : State) (ra rb : Word) :
    (s.respond ra rb).ramp0 = s.ramp0 := rfl

@[simp] theorem State.respond_ramp1 (s : State) (ra rb : Word) :
    (s.respond ra rb).ramp1 = s.ramp1 := rfl

@[simp] theorem State.respond_sticky (s : State) (ra rb : Word) :
    (s.respond ra rb).sticky = s.sticky := rfl

@[simp] theorem State.respond_lastCause (s : State) (ra rb : Word) :
    (s.respond ra rb).lastCause = s.lastCause := rfl

@[simp] theorem State.respond_pending (s : State) (ra rb : Word) :
    (s.respond ra rb).pending = s.pending := rfl

@[simp] theorem State.respond_response (s : State) (ra rb : Word) :
    (s.respond ra rb).response = some (.ok ra rb) := rfl

@[simp] theorem State.respond_position (s : State) (ra rb : Word) :
    (s.respond ra rb).position = s.position := rfl

@[simp] theorem State.respond_built (s : State) (ra rb : Word) :
    (s.respond ra rb).built = s.built := rfl

@[simp] theorem State.respond_tableLen (s : State) (ra rb : Word) :
    (s.respond ra rb).tableLen = s.tableLen := rfl

@[simp] theorem State.respond_quarterOffset (s : State) (ra rb : Word) :
    (s.respond ra rb).quarterOffset = s.quarterOffset := rfl

@[simp] theorem State.respond_dinit (s : State) (ra rb : Word) :
    (s.respond ra rb).dinit = s.dinit := rfl

@[simp] theorem State.respond_ramp (s : State) (ra rb : Word) (r : RampId) :
    (s.respond ra rb).ramp r = s.ramp r := by cases r <;> rfl


/-! The fields after `State.reject`. -/

@[simp] theorem State.reject_cfg (s : State) (c : Cause) :
    (s.reject c).cfg = s.cfg := rfl

@[simp] theorem State.reject_tlen (s : State) (c : Cause) :
    (s.reject c).tlen = s.tlen := rfl

@[simp] theorem State.reject_tbl (s : State) (c : Cause) :
    (s.reject c).tbl = s.tbl := rfl

@[simp] theorem State.reject_dir (s : State) (c : Cause) :
    (s.reject c).dir = s.dir := rfl

@[simp] theorem State.reject_ramp0 (s : State) (c : Cause) :
    (s.reject c).ramp0 = s.ramp0 := rfl

@[simp] theorem State.reject_ramp1 (s : State) (c : Cause) :
    (s.reject c).ramp1 = s.ramp1 := rfl

@[simp] theorem State.reject_sticky (s : State) (c : Cause) :
    (s.reject c).sticky = s.sticky ||| stickyBit c := rfl

@[simp] theorem State.reject_lastCause (s : State) (c : Cause) :
    (s.reject c).lastCause = causeCode c := rfl

@[simp] theorem State.reject_pending (s : State) (c : Cause) :
    (s.reject c).pending = s.pending := rfl

@[simp] theorem State.reject_response (s : State) (c : Cause) :
    (s.reject c).response = some (.rejected c) := rfl

@[simp] theorem State.reject_position (s : State) (c : Cause) :
    (s.reject c).position = s.position := rfl

@[simp] theorem State.reject_built (s : State) (c : Cause) :
    (s.reject c).built = s.built := rfl

@[simp] theorem State.reject_tableLen (s : State) (c : Cause) :
    (s.reject c).tableLen = s.tableLen := rfl

@[simp] theorem State.reject_quarterOffset (s : State) (c : Cause) :
    (s.reject c).quarterOffset = s.quarterOffset := rfl

@[simp] theorem State.reject_dinit (s : State) (c : Cause) :
    (s.reject c).dinit = s.dinit := rfl

@[simp] theorem State.reject_ramp (s : State) (c : Cause) (r : RampId) :
    (s.reject c).ramp r = s.ramp r := by cases r <;> rfl


/-! The fields after `State.setTable`. -/

@[simp] theorem State.setTable_cfg (s : State) (len : Word) (m : Memory) :
    (s.setTable len m).cfg = s.cfg := rfl

@[simp] theorem State.setTable_tlen (s : State) (len : Word) (m : Memory) :
    (s.setTable len m).tlen = len := rfl

@[simp] theorem State.setTable_tbl (s : State) (len : Word) (m : Memory) :
    (s.setTable len m).tbl = m := rfl

@[simp] theorem State.setTable_dir (s : State) (len : Word) (m : Memory) :
    (s.setTable len m).dir = s.dir := rfl

@[simp] theorem State.setTable_ramp0 (s : State) (len : Word) (m : Memory) :
    (s.setTable len m).ramp0 = s.ramp0 := rfl

@[simp] theorem State.setTable_ramp1 (s : State) (len : Word) (m : Memory) :
    (s.setTable len m).ramp1 = s.ramp1 := rfl

@[simp] theorem State.setTable_sticky (s : State) (len : Word) (m : Memory) :
    (s.setTable len m).sticky = s.sticky := rfl

@[simp] theorem State.setTable_lastCause (s : State) (len : Word) (m : Memory) :
    (s.setTable len m).lastCause = s.lastCause := rfl

@[simp] theorem State.setTable_pending (s : State) (len : Word) (m : Memory) :
    (s.setTable len m).pending = s.pending := rfl

@[simp] theorem State.setTable_response (s : State) (len : Word) (m : Memory) :
    (s.setTable len m).response = s.response := rfl

@[simp] theorem State.setTable_position (s : State) (len : Word) (m : Memory) :
    (s.setTable len m).position = s.position := rfl

@[simp] theorem State.setTable_dinit (s : State) (len : Word) (m : Memory) :
    (s.setTable len m).dinit = s.dinit := rfl

@[simp] theorem State.setTable_ramp (s : State) (len : Word) (m : Memory) (r : RampId) :
    (s.setTable len m).ramp r = s.ramp r := by cases r <;> rfl


/-! The fields after `State.setDir`. -/

@[simp] theorem State.setDir_cfg (s : State) (d : Direction) :
    (s.setDir d).cfg = s.cfg := rfl

@[simp] theorem State.setDir_tlen (s : State) (d : Direction) :
    (s.setDir d).tlen = s.tlen := rfl

@[simp] theorem State.setDir_tbl (s : State) (d : Direction) :
    (s.setDir d).tbl = s.tbl := rfl

@[simp] theorem State.setDir_dir (s : State) (d : Direction) :
    (s.setDir d).dir = some d := rfl

@[simp] theorem State.setDir_ramp0 (s : State) (d : Direction) :
    (s.setDir d).ramp0 = s.ramp0 := rfl

@[simp] theorem State.setDir_ramp1 (s : State) (d : Direction) :
    (s.setDir d).ramp1 = s.ramp1 := rfl

@[simp] theorem State.setDir_sticky (s : State) (d : Direction) :
    (s.setDir d).sticky = s.sticky := rfl

@[simp] theorem State.setDir_lastCause (s : State) (d : Direction) :
    (s.setDir d).lastCause = s.lastCause := rfl

@[simp] theorem State.setDir_pending (s : State) (d : Direction) :
    (s.setDir d).pending = s.pending := rfl

@[simp] theorem State.setDir_response (s : State) (d : Direction) :
    (s.setDir d).response = s.response := rfl

@[simp] theorem State.setDir_position (s : State) (d : Direction) :
    (s.setDir d).position = s.position := rfl

@[simp] theorem State.setDir_built (s : State) (d : Direction) :
    (s.setDir d).built = s.built := rfl

@[simp] theorem State.setDir_tableLen (s : State) (d : Direction) :
    (s.setDir d).tableLen = s.tableLen := rfl

@[simp] theorem State.setDir_quarterOffset (s : State) (d : Direction) :
    (s.setDir d).quarterOffset = s.quarterOffset := rfl

@[simp] theorem State.setDir_ramp (s : State) (d : Direction) (r : RampId) :
    (s.setDir d).ramp r = s.ramp r := by cases r <;> rfl


/-! The fields after `State.clearErrors`. -/

@[simp] theorem State.clearErrors_cfg (s : State) :
    (s.clearErrors).cfg = s.cfg := rfl

@[simp] theorem State.clearErrors_tlen (s : State) :
    (s.clearErrors).tlen = s.tlen := rfl

@[simp] theorem State.clearErrors_tbl (s : State) :
    (s.clearErrors).tbl = s.tbl := rfl

@[simp] theorem State.clearErrors_dir (s : State) :
    (s.clearErrors).dir = s.dir := rfl

@[simp] theorem State.clearErrors_ramp0 (s : State) :
    (s.clearErrors).ramp0 = s.ramp0 := rfl

@[simp] theorem State.clearErrors_ramp1 (s : State) :
    (s.clearErrors).ramp1 = s.ramp1 := rfl

@[simp] theorem State.clearErrors_sticky (s : State) :
    (s.clearErrors).sticky = 0 := rfl

@[simp] theorem State.clearErrors_lastCause (s : State) :
    (s.clearErrors).lastCause = 0 := rfl

@[simp] theorem State.clearErrors_pending (s : State) :
    (s.clearErrors).pending = s.pending := rfl

@[simp] theorem State.clearErrors_response (s : State) :
    (s.clearErrors).response = s.response := rfl

@[simp] theorem State.clearErrors_position (s : State) :
    (s.clearErrors).position = s.position := rfl

@[simp] theorem State.clearErrors_built (s : State) :
    (s.clearErrors).built = s.built := rfl

@[simp] theorem State.clearErrors_tableLen (s : State) :
    (s.clearErrors).tableLen = s.tableLen := rfl

@[simp] theorem State.clearErrors_quarterOffset (s : State) :
    (s.clearErrors).quarterOffset = s.quarterOffset := rfl

@[simp] theorem State.clearErrors_dinit (s : State) :
    (s.clearErrors).dinit = s.dinit := rfl

@[simp] theorem State.clearErrors_ramp (s : State) (r : RampId) :
    (s.clearErrors).ramp r = s.ramp r := by cases r <;> rfl


/-! The fields after `State.dropResponse`. -/

@[simp] theorem State.dropResponse_cfg (s : State) :
    s.dropResponse.cfg = s.cfg := rfl

@[simp] theorem State.dropResponse_tlen (s : State) :
    s.dropResponse.tlen = s.tlen := rfl

@[simp] theorem State.dropResponse_tbl (s : State) :
    s.dropResponse.tbl = s.tbl := rfl

@[simp] theorem State.dropResponse_dir (s : State) :
    s.dropResponse.dir = s.dir := rfl

@[simp] theorem State.dropResponse_ramp0 (s : State) :
    s.dropResponse.ramp0 = s.ramp0 := rfl

@[simp] theorem State.dropResponse_ramp1 (s : State) :
    s.dropResponse.ramp1 = s.ramp1 := rfl

@[simp] theorem State.dropResponse_sticky (s : State) :
    s.dropResponse.sticky = s.sticky := rfl

@[simp] theorem State.dropResponse_lastCause (s : State) :
    s.dropResponse.lastCause = s.lastCause := rfl

@[simp] theorem State.dropResponse_pending (s : State) :
    s.dropResponse.pending = s.pending := rfl

@[simp] theorem State.dropResponse_response (s : State) :
    s.dropResponse.response = none := rfl

@[simp] theorem State.dropResponse_position (s : State) :
    s.dropResponse.position = s.position := rfl

@[simp] theorem State.dropResponse_built (s : State) :
    s.dropResponse.built = s.built := rfl

@[simp] theorem State.dropResponse_tableLen (s : State) :
    s.dropResponse.tableLen = s.tableLen := rfl

@[simp] theorem State.dropResponse_quarterOffset (s : State) :
    s.dropResponse.quarterOffset = s.quarterOffset := rfl

@[simp] theorem State.dropResponse_dinit (s : State) :
    s.dropResponse.dinit = s.dinit := rfl

@[simp] theorem State.dropResponse_ramp (s : State) (r : RampId) :
    s.dropResponse.ramp r = s.ramp r := by cases r <;> rfl

/-- A step starts without the response of an earlier one, whatever it was (10_state.md R39). -/
@[simp] theorem State.dropResponse_of_response (s : State) (r : Option Response) :
    ({ s with response := r } : State).dropResponse = s.dropResponse := rfl


/-! The fields after `State.accept`. -/

@[simp] theorem State.accept_cfg (s : State) (rest : List HostAction) :
    (s.accept rest).cfg = s.cfg := rfl

@[simp] theorem State.accept_tlen (s : State) (rest : List HostAction) :
    (s.accept rest).tlen = s.tlen := rfl

@[simp] theorem State.accept_tbl (s : State) (rest : List HostAction) :
    (s.accept rest).tbl = s.tbl := rfl

@[simp] theorem State.accept_dir (s : State) (rest : List HostAction) :
    (s.accept rest).dir = s.dir := rfl

@[simp] theorem State.accept_ramp0 (s : State) (rest : List HostAction) :
    (s.accept rest).ramp0 = s.ramp0 := rfl

@[simp] theorem State.accept_ramp1 (s : State) (rest : List HostAction) :
    (s.accept rest).ramp1 = s.ramp1 := rfl

@[simp] theorem State.accept_sticky (s : State) (rest : List HostAction) :
    (s.accept rest).sticky = s.sticky := rfl

@[simp] theorem State.accept_lastCause (s : State) (rest : List HostAction) :
    (s.accept rest).lastCause = s.lastCause := rfl

@[simp] theorem State.accept_pending (s : State) (rest : List HostAction) :
    (s.accept rest).pending = rest := rfl

@[simp] theorem State.accept_response (s : State) (rest : List HostAction) :
    (s.accept rest).response = none := rfl

@[simp] theorem State.accept_position (s : State) (rest : List HostAction) :
    (s.accept rest).position = s.position + 1 := rfl

@[simp] theorem State.accept_built (s : State) (rest : List HostAction) :
    (s.accept rest).built = s.built := rfl

@[simp] theorem State.accept_tableLen (s : State) (rest : List HostAction) :
    (s.accept rest).tableLen = s.tableLen := rfl

@[simp] theorem State.accept_quarterOffset (s : State) (rest : List HostAction) :
    (s.accept rest).quarterOffset = s.quarterOffset := rfl

@[simp] theorem State.accept_dinit (s : State) (rest : List HostAction) :
    (s.accept rest).dinit = s.dinit := rfl

@[simp] theorem State.accept_ramp (s : State) (rest : List HostAction) (r : RampId) :
    (s.accept rest).ramp r = s.ramp r := by cases r <;> rfl


/-! The fields after `State.issueBits`. -/

@[simp] theorem State.issueBits_cfg (s : State) (nbits w : Nat) :
    (s.issueBits nbits w).cfg = s.cfg := rfl

@[simp] theorem State.issueBits_tlen (s : State) (nbits w : Nat) :
    (s.issueBits nbits w).tlen = s.tlen := rfl

@[simp] theorem State.issueBits_tbl (s : State) (nbits w : Nat) :
    (s.issueBits nbits w).tbl = s.tbl := rfl

@[simp] theorem State.issueBits_dir (s : State) (nbits w : Nat) :
    (s.issueBits nbits w).dir = s.dir := rfl

@[simp] theorem State.issueBits_ramp0 (s : State) (nbits w : Nat) :
    (s.issueBits nbits w).ramp0 = s.ramp0 := rfl

@[simp] theorem State.issueBits_ramp1 (s : State) (nbits w : Nat) :
    (s.issueBits nbits w).ramp1 = s.ramp1 := rfl

@[simp] theorem State.issueBits_sticky (s : State) (nbits w : Nat) :
    (s.issueBits nbits w).sticky = s.sticky := rfl

@[simp] theorem State.issueBits_lastCause (s : State) (nbits w : Nat) :
    (s.issueBits nbits w).lastCause = s.lastCause := rfl

@[simp] theorem State.issueBits_pending (s : State) (nbits w : Nat) :
    (s.issueBits nbits w).pending = .command (commandOfBits nbits w) :: s.pending := rfl

@[simp] theorem State.issueBits_response (s : State) (nbits w : Nat) :
    (s.issueBits nbits w).response = s.response := rfl

@[simp] theorem State.issueBits_position (s : State) (nbits w : Nat) :
    (s.issueBits nbits w).position = s.position := rfl

@[simp] theorem State.issueBits_built (s : State) (nbits w : Nat) :
    (s.issueBits nbits w).built = s.built := rfl

@[simp] theorem State.issueBits_tableLen (s : State) (nbits w : Nat) :
    (s.issueBits nbits w).tableLen = s.tableLen := rfl

@[simp] theorem State.issueBits_quarterOffset (s : State) (nbits w : Nat) :
    (s.issueBits nbits w).quarterOffset = s.quarterOffset := rfl

@[simp] theorem State.issueBits_dinit (s : State) (nbits w : Nat) :
    (s.issueBits nbits w).dinit = s.dinit := rfl

@[simp] theorem State.issueBits_ramp (s : State) (nbits w : Nat) (r : RampId) :
    (s.issueBits nbits w).ramp r = s.ramp r := by cases r <;> rfl


/-! The fields after `State.afterReset`. -/

@[simp] theorem State.afterReset_cfg (s : State) (rest : List HostAction) :
    (s.afterReset rest).cfg = s.cfg := rfl

@[simp] theorem State.afterReset_tlen (s : State) (rest : List HostAction) :
    (s.afterReset rest).tlen = 0 := rfl

@[simp] theorem State.afterReset_tbl (s : State) (rest : List HostAction) :
    (s.afterReset rest).tbl = [] := rfl

@[simp] theorem State.afterReset_dir (s : State) (rest : List HostAction) :
    (s.afterReset rest).dir = none := rfl

@[simp] theorem State.afterReset_ramp0 (s : State) (rest : List HostAction) :
    (s.afterReset rest).ramp0 = Ramp.reset := rfl

@[simp] theorem State.afterReset_ramp1 (s : State) (rest : List HostAction) :
    (s.afterReset rest).ramp1 = Ramp.reset := rfl

@[simp] theorem State.afterReset_sticky (s : State) (rest : List HostAction) :
    (s.afterReset rest).sticky = 0 := rfl

@[simp] theorem State.afterReset_lastCause (s : State) (rest : List HostAction) :
    (s.afterReset rest).lastCause = 0 := rfl

@[simp] theorem State.afterReset_pending (s : State) (rest : List HostAction) :
    (s.afterReset rest).pending = rest := rfl

@[simp] theorem State.afterReset_response (s : State) (rest : List HostAction) :
    (s.afterReset rest).response = none := rfl

@[simp] theorem State.afterReset_position (s : State) (rest : List HostAction) :
    (s.afterReset rest).position = 0 := rfl


/-! The fields after `State.setRamp`. -/

@[simp] theorem State.setRamp_cfg (s : State) (r : RampId) (g : Ramp) :
    (s.setRamp r g).cfg = s.cfg := by cases r <;> rfl

@[simp] theorem State.setRamp_tlen (s : State) (r : RampId) (g : Ramp) :
    (s.setRamp r g).tlen = s.tlen := by cases r <;> rfl

@[simp] theorem State.setRamp_tbl (s : State) (r : RampId) (g : Ramp) :
    (s.setRamp r g).tbl = s.tbl := by cases r <;> rfl

@[simp] theorem State.setRamp_dir (s : State) (r : RampId) (g : Ramp) :
    (s.setRamp r g).dir = s.dir := by cases r <;> rfl

@[simp] theorem State.setRamp_sticky (s : State) (r : RampId) (g : Ramp) :
    (s.setRamp r g).sticky = s.sticky := by cases r <;> rfl

@[simp] theorem State.setRamp_lastCause (s : State) (r : RampId) (g : Ramp) :
    (s.setRamp r g).lastCause = s.lastCause := by cases r <;> rfl

@[simp] theorem State.setRamp_pending (s : State) (r : RampId) (g : Ramp) :
    (s.setRamp r g).pending = s.pending := by cases r <;> rfl

@[simp] theorem State.setRamp_response (s : State) (r : RampId) (g : Ramp) :
    (s.setRamp r g).response = s.response := by cases r <;> rfl

@[simp] theorem State.setRamp_position (s : State) (r : RampId) (g : Ramp) :
    (s.setRamp r g).position = s.position := by cases r <;> rfl

@[simp] theorem State.setRamp_built (s : State) (r : RampId) (g : Ramp) :
    (s.setRamp r g).built = s.built := by cases r <;> rfl

@[simp] theorem State.setRamp_tableLen (s : State) (r : RampId) (g : Ramp) :
    (s.setRamp r g).tableLen = s.tableLen := by cases r <;> rfl

@[simp] theorem State.setRamp_quarterOffset (s : State) (r : RampId) (g : Ramp) :
    (s.setRamp r g).quarterOffset = s.quarterOffset := by cases r <;> rfl

@[simp] theorem State.setRamp_dinit (s : State) (r : RampId) (g : Ramp) :
    (s.setRamp r g).dinit = s.dinit := by cases r <;> rfl

@[simp] theorem State.setRamp_ramp_same (s : State) (r : RampId) (g : Ramp) :
    (s.setRamp r g).ramp r = g := by cases r <;> rfl

theorem State.setRamp_ramp_other (s : State) {r r' : RampId} (g : Ramp) (h : r' ≠ r) :
    (s.setRamp r g).ramp r' = s.ramp r' := by
  cases r <;> cases r' <;> first | rfl | exact absurd rfl h

@[simp] theorem State.ramp_az (s : State) : s.ramp .az = s.ramp0 := rfl

@[simp] theorem State.ramp_el (s : State) : s.ramp .el = s.ramp1 := rfl

@[simp] theorem State.setDir_dinit (s : State) (d : Direction) : (s.setDir d).dinit = true := rfl

theorem State.dinit_iff (s : State) : s.dinit = true ↔ ∃ d, s.dir = some d := Option.isSome_iff_exists

theorem State.built_iff (s : State) : s.built = true ↔ s.tlen ≠ 0 := bne_iff_ne

end Sys2Proof.Machine
end

