-- ==== Sys2Proof/Laws/Ops.lean ====
section
/-! SUPPORT. What each shared operation can do, once each: the control primitives, the table reads, the axis computation, the
conditional recompute, the ramp step, the end of a command, the port and the step. -/

namespace Sys2Proof.Machine

/-! ## Control -/

/-- A sequence of two computations succeeds exactly when both do. -/
theorem bind_ok_iff {ε α β : Type} {x : Except ε α} {f : α → Except ε β} {b : β} :
    (x >>= f) = .ok b ↔ ∃ a, x = .ok a ∧ f a = .ok b := by
  cases x <;> simp [bind, Except.bind]

/-- A sequence of two computations raises what the first raises, or what the second does after it. -/
theorem bind_error_iff {ε α β : Type} {x : Except ε α} {f : α → Except ε β} {e : ε} :
    (x >>= f) = .error e ↔ x = .error e ∨ ∃ a, x = .ok a ∧ f a = .error e := by
  cases x <;> simp [bind, Except.bind]

@[simp] theorem raiseIf_ok_iff {b : Bool} {c : Cause} {u : Unit} : raiseIf b c = .ok u ↔ b = false := by
  cases b <;> simp [raiseIf]

@[simp] theorem raiseIf_error_iff {b : Bool} {c : Cause} {e : Raise} :
    raiseIf b c = .error e ↔ b = true ∧ e = .cause c := by
  cases b <;> simp [raiseIf, eq_comm]

/-- A command answers a next state by committing what it staged or by a rejection, and in no other way. -/
theorem finish_next_iff {s t : State} {r : Except Raise Staged} :
    finish s r = .next t ↔
      (∃ g, r = .ok g ∧ t = g.state.respond g.ra g.rb) ∨
        ∃ c, r = .error (.cause c) ∧ t = s.reject c := by
  cases r with
  | ok g => simp [finish, eq_comm]
  | error e => cases e <;> simp [finish, eq_comm]

/-- A command faults exactly when its body does. -/
theorem finish_fault_iff {s : State} {r : Except Raise Staged} {f : Fault} :
    finish s r = .fault f ↔ r = .error (.fault f) := by
  cases r with
  | ok g => simp [finish]
  | error e => cases e <;> simp [finish]

/-- No command is refused. -/
theorem finish_ne_refused {s : State} {r : Except Raise Staged} {x : Refusal} :
    finish s r ≠ .refused x := by
  cases r with
  | ok g => simp [finish]
  | error e => cases e <;> simp [finish]

@[simp] theorem requireDirection_ok_iff {s : State} {d : Direction} :
    requireDirection s = .ok d ↔ s.dir = some d := by
  unfold requireDirection; cases s.dir <;> simp

@[simp] theorem requireDirection_error_iff {s : State} {e : Raise} :
    requireDirection s = .error e ↔ s.dir = none ∧ e = .cause .order := by
  unfold requireDirection; cases s.dir <;> simp [eq_comm]

/-! ## Table reads -/

@[simp] theorem memRead_ok_iff {s : State} {i : Nat} {w : Word} :
    memRead s i = .ok w ↔ s.tbl.read i = some w := by
  unfold memRead; cases s.tbl.read i <;> simp

@[simp] theorem memRead_error_iff {s : State} {i : Nat} {e : Raise} :
    memRead s i = .error e ↔ s.tbl.read i = none ∧ e = .fault .tableWordAbsent := by
  unfold memRead; cases s.tbl.read i <;> simp [eq_comm]

/-- Lookup succeeds exactly on a finite argument with both words held, with the interpolation as its result
(40_wavetable.md R103). -/
theorem lookup_ok_iff {s : State} {x y : F} :
    lookup s x = .ok y ↔
      isFinite x = true ∧ ∃ a b,
        s.tbl.read (floorF (wrap s.tableLen x)) = some a ∧
        s.tbl.read (floorF (wrap s.tableLen x) + 1) = some b ∧
        y = interpolate a b (fsub (wrap s.tableLen x) (toF (floorF (wrap s.tableLen x)))) := by
  simp only [lookup, bind_ok_iff, raiseIf_ok_iff, memRead_ok_iff, Bool.not_eq_false']
  constructor
  · rintro ⟨_, h, a, ha, b, hb, hy⟩
    cases hy
    exact ⟨h, a, b, ha, hb, rfl⟩
  · rintro ⟨h, a, b, ha, hb, rfl⟩
    exact ⟨(), h, a, ha, b, hb, rfl⟩

/-- The only cause Lookup raises is NONFINITE, and exactly on a non-finite argument. -/
theorem lookup_cause_iff {s : State} {x : F} {c : Cause} :
    lookup s x = .error (.cause c) ↔ isFinite x = false ∧ c = .nonfinite := by
  simp only [lookup, bind_error_iff, raiseIf_error_iff, raiseIf_ok_iff, memRead_error_iff]
  simp

/-- Lookup depends on the state only through the table. -/
theorem lookup_congr {s t : State} (hl : t.tlen = s.tlen) (hm : t.tbl = s.tbl) (x : F) :
    lookup t x = lookup s x := by
  simp only [lookup, memRead, State.tableLen, hl, hm]

/-- AxisRow succeeds exactly when its six lookups do, with their results as the entries (41_direction.md R120). -/
theorem axisRow_ok_iff {s : State} {v : F} {m : AxisMatrix} :
    axisRow s v = .ok m ↔
      lookup s (scaledArg s v 0) = .ok m.d0 ∧
      lookup s (fadd (scaledArg s v 0) s.quarterOffset) = .ok m.q0 ∧
      lookup s (scaledArg s v 1) = .ok m.d1 ∧
      lookup s (fadd (scaledArg s v 1) s.quarterOffset) = .ok m.q1 ∧
      lookup s (scaledArg s v 2) = .ok m.d2 ∧
      lookup s (fadd (scaledArg s v 2) s.quarterOffset) = .ok m.q2 := by
  simp only [axisRow, bind_ok_iff]
  constructor
  · rintro ⟨a, ha, b, hb, c, hc, d, hd, e, he, f, hf, hm⟩
    cases hm
    exact ⟨ha, hb, hc, hd, he, hf⟩
  · rintro ⟨ha, hb, hc, hd, he, hf⟩
    exact ⟨_, ha, _, hb, _, hc, _, hd, _, he, _, hf, rfl⟩

/-- AxisRow depends on the state only through the table. -/
theorem axisRow_congr {s t : State} (hl : t.tlen = s.tlen) (hm : t.tbl = s.tbl) (v : F) :
    axisRow t v = axisRow s v := by
  simp only [axisRow, scaledArg, State.quarterOffset, State.tableLen, hl, lookup_congr hl hm]

/-- The only cause AxisRow raises is NONFINITE. -/
theorem axisRow_cause {s : State} {v : F} {c : Cause} (h : axisRow s v = .error (.cause c)) :
    c = .nonfinite := by
  simp only [axisRow, bind_error_iff, lookup_cause_iff] at h
  rcases h with h | ⟨_, _, h | ⟨_, _, h | ⟨_, _, h | ⟨_, _, h | ⟨_, _, h | ⟨_, _, h⟩⟩⟩⟩⟩⟩ <;>
    first | exact h.2 | cases h

/-! ## The conditional recompute -/

/-- The theta half of an update either recomputes T and THB or leaves all as it is (41_direction.md R122). -/
theorem updateTheta_ok_iff {s : State} {v : F} {d d' : Direction} :
    updateTheta s v d = .ok d' ↔
      (fneq v d.thb = true ∧ ∃ m, axisRow s v = .ok m ∧ d' = { d with t := m, thb := v }) ∨
        (fneq v d.thb = false ∧ d' = d) := by
  unfold updateTheta
  cases h : fneq v d.thb
  · simp [eq_comm]
  · simp only [if_true, bind_ok_iff]
    simp [eq_comm]

/-- The phi half of an update either recomputes P and PHB or leaves all as it is (41_direction.md R122). -/
theorem updatePhi_ok_iff {s : State} {v : F} {d d' : Direction} :
    updatePhi s v d = .ok d' ↔
      (fneq v d.phb = true ∧ ∃ m, axisRow s v = .ok m ∧ d' = { d with p := m, phb := v }) ∨
        (fneq v d.phb = false ∧ d' = d) := by
  unfold updatePhi
  cases h : fneq v d.phb
  · simp [eq_comm]
  · simp only [if_true, bind_ok_iff]
    simp [eq_comm]

/-- The theta half of an update depends on the state only through the table. -/
theorem updateTheta_congr {s t : State} (hl : t.tlen = s.tlen) (hm : t.tbl = s.tbl) (v : F) (d : Direction) :
    updateTheta t v d = updateTheta s v d := by
  simp only [updateTheta, axisRow_congr hl hm]

/-- The phi half of an update depends on the state only through the table. -/
theorem updatePhi_congr {s t : State} (hl : t.tlen = s.tlen) (hm : t.tbl = s.tbl) (v : F) (d : Direction) :
    updatePhi t v d = updatePhi s v d := by
  simp only [updatePhi, axisRow_congr hl hm]

/-! ## The ramp step -/

/-- RampStep succeeds exactly when input, increment and output are finite, with the transition as its result
(43_ramp.md R171). -/
theorem rampStep_ok_iff {g g' : Ramp} {x : F} :
    rampStep g x = .ok g' ↔
      isFinite x = true ∧ isFinite (g.next x).inc = true ∧ isFinite (g.next x).pout = true ∧
        g' = g.next x := by
  simp only [rampStep, bind_ok_iff, raiseIf_ok_iff]
  constructor
  · rintro ⟨_, h, _, h', hg⟩
    cases hg
    simp only [Bool.not_eq_false', Bool.or_eq_false_iff] at h h'
    exact ⟨h, h'.1, h'.2, rfl⟩
  · rintro ⟨h, hi, ho, rfl⟩
    exact ⟨(), by simp [h], (), by simp [hi, ho], rfl⟩

/-- The only thing RampStep raises is NONFINITE. -/
theorem rampStep_error {g : Ramp} {x : F} {e : Raise} (h : rampStep g x = .error e) :
    e = .cause .nonfinite := by
  simp only [rampStep, bind_error_iff, raiseIf_error_iff] at h
  rcases h with h | ⟨_, _, h | ⟨_, _, h⟩⟩
  · exact h.2
  · exact h.2
  · cases h

@[simp] theorem Ramp.next_cfg (g : Ramp) (x : F) : (g.next x).cfg = g.cfg := by
  unfold Ramp.next Ramp.advance Ramp.retarget; split <;> split <;> rfl

@[simp] theorem Ramp.next_bs (g : Ramp) (x : F) : (g.next x).bs = g.bs := by
  unfold Ramp.next Ramp.advance Ramp.retarget; split <;> split <;> rfl

@[simp] theorem Ramp.next_pin (g : Ramp) (x : F) : (g.next x).pin = x := by
  unfold Ramp.next Ramp.advance Ramp.retarget; split <;> split <;> rfl

/-! ## The port and the step -/

/-- The five kinds of host action, and what each makes of the state. -/
theorem fetch_cases (s : State) :
    (s.pending = [] ∧ fetch s = .idle) ∨
    (∃ rest, s.pending = .reset :: rest ∧ fetch s = .reset (s.afterReset rest)) ∨
    (∃ c rest, s.pending = .resetDuring c :: rest ∧ fetch s = .reset (s.afterReset rest)) ∨
    (∃ c rest i, s.pending = .command c :: rest ∧ decode c = .ok i ∧ fetch s = .run i (s.accept rest)) ∨
    (∃ c rest e, s.pending = .command c :: rest ∧ decode c = .error e ∧
      fetch s = .illegal (s.accept rest)) := by
  unfold fetch
  match s.pending with
  | [] => simp
  | .reset :: rest => simp
  | .resetDuring c :: rest => simp
  | .command c :: rest => cases h : decode c <;> simp [h]

/-- Everything one step can do, by the host's next action. -/
theorem step_cases (s : State) :
    (s.pending = [] ∧ step s = .next s.dropResponse) ∨
    (∃ rest, s.pending = .reset :: rest ∧ step s = .next (s.afterReset rest)) ∨
    (∃ c rest, s.pending = .resetDuring c :: rest ∧ step s = .next (s.afterReset rest)) ∨
    (∃ c rest i, s.pending = .command c :: rest ∧ decode c = .ok i ∧
      step s = exec i (s.accept rest)) ∨
    (∃ c rest e, s.pending = .command c :: rest ∧ decode c = .error e ∧
      step s = .next ((s.accept rest).reject .illegal)) := by
  rcases fetch_cases s with ⟨h, hf⟩ | ⟨r, h, hf⟩ | ⟨c, r, h, hf⟩ | ⟨c, r, i, h, hd, hf⟩ | ⟨c, r, e, h, hd, hf⟩
  · exact .inl ⟨h, by simp [step, hf]⟩
  · exact .inr (.inl ⟨r, h, by simp [step, hf]⟩)
  · exact .inr (.inr (.inl ⟨c, r, h, by simp [step, hf]⟩))
  · exact .inr (.inr (.inr (.inl ⟨c, r, i, h, hd, by simp [step, hf]⟩)))
  · exact .inr (.inr (.inr (.inr ⟨c, r, e, h, hd, by simp [step, hf]⟩)))

/-- Every meaning is the end of a command that ran from the state it is given. -/
theorem exec_eq_finish (i : Instr) (s : State) : ∃ r, exec i s = finish s r := by
  cases i <;> simp only [exec, execNop, execBuild, execLksin, execLkcos, execInit, execChg, execMatrd, execChan,
    execRnew, execRproc, execDirstep, execRdstat, execClrerr] <;> exact ⟨_, rfl⟩

end Sys2Proof.Machine
end

