-- ==== Sys2Proof/Laws/PerInstr.lean ====
section
/-! SUPPORT. One family of facts stated for every command: its encoding selects its own row of the opcode map
(30_encoding.md R78). -/

namespace Sys2Proof.Laws.EncodeSelectsRow

/-- The command word of a well-formed instruction selects the row of its mnemonic, and that row only. -/
def Statement (i : Instr) : Prop :=
  i.wellFormed = true →
    (opcodeMap.filter fun row => row.selects (encode i).cmd).map (·.mnemonic) = [i.mnemonic]

theorem nop : Statement .nop := fun _ => by decide

theorem build (n : Word) : Statement (.build n) := fun _ => by
  change List.map _ (List.filter (fun row => row.selects 0x00000001) opcodeMap) = ["BUILD"]; decide

theorem lksin (x : F) : Statement (.lksin x) := fun _ => by
  change List.map _ (List.filter (fun row => row.selects 0x00000002) opcodeMap) = ["LKSIN"]; decide

theorem lkcos (x : F) : Statement (.lkcos x) := fun _ => by
  change List.map _ (List.filter (fun row => row.selects 0x00000003) opcodeMap) = ["LKCOS"]; decide

theorem init (theta phi : F) : Statement (.init theta phi) := fun _ => by
  change List.map _ (List.filter (fun row => row.selects 0x00000010) opcodeMap) = ["INIT"]; decide

theorem chg (theta phi : F) : Statement (.chg theta phi) := fun _ => by
  change List.map _ (List.filter (fun row => row.selects 0x00000011) opcodeMap) = ["CHG"]; decide

theorem matrd (ax : Axis) (p : Phase) (q : Fin 3) : Statement (.matrd ax p q) := fun _ => by
  cases ax <;> cases p <;> revert q <;> decide

/-- Every channel index of CH selects the CHAN row. -/
theorem chan_rows : ∀ k : Fin 256,
    (opcodeMap.filter fun row => row.selects (0x20 + (BitVec.ofNat 32 k.val <<< 8))).map (·.mnemonic)
      = ["CHAN"] := by decide +kernel

theorem chan (k : Nat) (sample : F) : Statement (.chan k sample) := fun h =>
  chan_rows ⟨k, Nat.lt_succ_of_le (of_decide_eq_true h)⟩

theorem rnew (r : RampId) (n : Word) : Statement (.rnew r n) := fun _ => by
  cases r
  · change List.map _ (List.filter (fun row => row.selects 0x00000030) opcodeMap) = ["RNEW"]; decide
  · change List.map _ (List.filter (fun row => row.selects 0x00010030) opcodeMap) = ["RNEW"]; decide

theorem rproc (r : RampId) (x : F) : Statement (.rproc r x) := fun _ => by
  cases r
  · change List.map _ (List.filter (fun row => row.selects 0x00000031) opcodeMap) = ["RPROC"]; decide
  · change List.map _ (List.filter (fun row => row.selects 0x00010031) opcodeMap) = ["RPROC"]; decide

theorem dirstep (azimuth elevation : F) : Statement (.dirstep azimuth elevation) := fun _ => by
  change List.map _ (List.filter (fun row => row.selects 0x00000040) opcodeMap) = ["DIRSTEP"]; decide

theorem rdstat : Statement .rdstat := fun _ => by decide

theorem clrerr : Statement .clrerr := fun _ => by decide

end Sys2Proof.Laws.EncodeSelectsRow
end

