-- ==== Sys2Proof/Machine/Assembler.lean ====
section
/-! DEFINITION. The textual syntax of 30_encoding.md R81 and the pseudo-instructions of R82: one line to the commands it
stands for, none where the line is not in the syntax. -/

namespace Sys2Proof.Machine

/-- The words of a line: what stands between blanks and commas. -/
def lineWords (line : String) : List (List Char) :=
  (line.toList.splitOnP fun c => c = ' ' || c = ',').filter fun w => w ≠ []

/-- The ten decimal digits, each at the place of its value. -/
def decimalDigits : List Char := "0123456789".toList

/-- The sixteen hexadecimal digits of a bit pattern such as `0x3E800000` (R81), each at the place of its value. -/
def hexDigits : List Char := "0123456789ABCDEF".toList

/-- The number a numeral writes, most significant digit first, in the base whose digits are listed; none for an empty
numeral or a character that is not listed. -/
def readNumeral (digits cs : List Char) : Option Nat :=
  if cs = [] then none
  else (cs.mapM digits.idxOf?).map fun values => Nat.ofDigits digits.length values.reverse

/-- Operand `n` of R81: an unsigned decimal integer that an operand word holds. -/
def readU32 (cs : List Char) : Option Word :=
  match readNumeral decimalDigits cs with
  | some n => if n < 2 ^ 32 then some (BitVec.ofNat 32 n) else none
  | none => none

/-- An unsigned decimal, with or without a fraction, rounded once to binary32 (00_scope.md R14) with the given
sign. -/
def readDecimal (neg : Bool) (cs : List Char) : Option F :=
  match cs.splitOn '.' with
  | [whole] => (readNumeral decimalDigits whole).map fun n => rneSigned neg (n * 2 ^ 149) 1
  | [whole, fraction] =>
    match readNumeral decimalDigits whole, readNumeral decimalDigits fraction with
    | some n, some m =>
      let scale := 10 ^ fraction.length
      some (rneSigned neg ((n * scale + m) * 2 ^ 149) scale)
    | _, _ => none
  | _ => none

/-- Operand `f` of R81: a bit pattern of eight hexadecimal digits, or a decimal. -/
def readF (cs : List Char) : Option F :=
  match cs with
  | '0' :: 'x' :: ds =>
    if ds.length = 8 then (readNumeral hexDigits (ds.map Char.toUpper)).map (BitVec.ofNat 32) else none
  | '-' :: ds => readDecimal true ds
  | ds => readDecimal false ds

/-- Operand `ch` of R81: 0 to 255. -/
def readCh (cs : List Char) : Option Nat :=
  match readNumeral decimalDigits cs with
  | some n => if n ≤ 255 then some n else none
  | none => none

/-- Operand `r` of R81. -/
def readRamp (cs : List Char) : Option RampId :=
  if cs = ['a', 'z'] then some .az else if cs = ['e', 'l'] then some .el else none

/-- Operand `ax` of R81. -/
def readAxis (cs : List Char) : Option Axis :=
  if cs = ['T'] then some .theta else if cs = ['P'] then some .phi else none

/-- Operand `p` of R81. -/
def readPhase (cs : List Char) : Option Phase :=
  if cs = ['0'] then some .direct else if cs = ['1'] then some .quarter else none

/-- Operand `q` of R81. -/
def readOrder (cs : List Char) : Option (Fin 3) :=
  if cs = ['0'] then some 0 else if cs = ['1'] then some 1 else if cs = ['2'] then some 2 else none

/-- The commands of R81, by mnemonic and operands. -/
def assembleInstr (mnemonic : String) (operands : List (List Char)) : Option Instr :=
  match mnemonic, operands with
  | "NOP", [] => some .nop
  | "BUILD", [n] => (readU32 n).map .build
  | "LKSIN", [x] => (readF x).map .lksin
  | "LKCOS", [x] => (readF x).map .lkcos
  | "INIT", [a, b] => do some (.init (← readF a) (← readF b))
  | "CHG", [a, b] => do some (.chg (← readF a) (← readF b))
  | "MATRD", [ax, p, q] => do some (.matrd (← readAxis ax) (← readPhase p) (← readOrder q))
  | "CHAN", [k, x] => do some (.chan (← readCh k) (← readF x))
  | "RNEW", [r, n] => do some (.rnew (← readRamp r) (← readU32 n))
  | "RPROC", [r, x] => do some (.rproc (← readRamp r) (← readF x))
  | "DIRSTEP", [a, b] => do some (.dirstep (← readF a) (← readF b))
  | "RDSTAT", [] => some .rdstat
  | "CLRERR", [] => some .clrerr
  | _, _ => none

/-- The pseudo-instructions of R82, by name and operands. -/
def assemblePseudo (name : String) (operands : List (List Char)) : Option Pseudo :=
  match name, operands with
  | "ENC16", [x] => (readF x).map .enc16
  | "RNEW2", [n] => (readU32 n).map .rnew2
  | "SETUP", [l, n, a, b] => do
    some (.setup (← readU32 l) (← readU32 n) (← readF a) (← readF b))
  | "SAMPLE", [a, b, x] => do some (.sample (← readF a) (← readF b) (← readF x))
  | _, _ => none

/-- The commands one line of text stands for (R81, R82). -/
def assemble (line : String) : Option (List Instr) :=
  match lineWords line with
  | [] => none
  | w :: operands =>
    match assembleInstr (String.ofList w) operands with
    | some i => some [i]
    | none => (assemblePseudo (String.ofList w) operands).map Pseudo.expand

end Sys2Proof.Machine
end

