-- ==== Sys2Proof/Tests/Slice0.lean ====
section
/-! SUPPORT. Tests on fixed values, and for every obligation with hypotheses a witness that meets them. Expected values are
those of 95_test_vectors.md (named V<n>, P<n>) or of the encodings of 30_encoding.md. -/

namespace Sys2Proof.Tests

open Sys2Proof Sys2Proof.Machine

/-! ## Helpers -/

/-- The response a step leaves, none where it does not answer a next state. -/
def responseOf : Host.Outcome State Fault Refusal → Option Response
  | .next t => t.response
  | .fault _ => none
  | .refused _ => none

/-- One field of the state a step leaves. -/
def fieldOf {α : Type} (f : State → α) : Host.Outcome State Fault Refusal → Option α
  | .next t => some (f t)
  | .fault _ => none
  | .refused _ => none

/-- A table memory from its words. -/
def tableOf (ws : List Word) : Memory := ws.zipIdx.map fun e => (e.2, e.1)

/-- The core after BUILD 4 (R101, Example). -/
def core4 : State :=
  { State.reset with tlen := 4, tbl := tableOf [0, 0x3F800000, 0, 0xBF800000, 0] }

/-- The core after BUILD 16: the L = 16 row of 95_test_vectors.md. -/
def core16 : State :=
  { State.reset with
    tlen := 16
    tbl := tableOf
      [0x00000000, 0x3EC3EF15, 0x3F3504F3, 0x3F6C835E, 0x3F800000, 0x3F6C835E, 0x3F3504F3, 0x3EC3EF15, 0x00000000,
       0xBEC3EF15, 0xBF3504F3, 0xBF6C835E, 0xBF800000, 0xBF6C835E, 0xBF3504F3, 0xBEC3EF15, 0x00000000] }

/-- The matrix of 0.0 (V20). -/
def matrix0 : AxisMatrix := ⟨0, 0, 0, 0x3F800000, 0x3F800000, 0x3F800000⟩

/-- DirectionState after INIT 0.0, 0.0 (V20). -/
def direction0 : Direction := { t := matrix0, p := matrix0, thb := 0, phb := 0 }

/-- The core after BUILD 4, RNEW2 4, INIT 0.0, 0.0 (P2, #0 to #3). -/
def ready4 : State :=
  { core4 with
    dir := some direction0
    ramp0 := ⟨true, 4, 0, 0, 0, 0, false⟩
    ramp1 := ⟨true, 4, 0, 0, 0, 0, false⟩ }

/-- The core after BUILD 16, INIT 0.125, 0.0625 (V21). -/
def ready16 : State :=
  { core16 with
    dir := some
      { t := ⟨0x3F3504F3, 0x3F800000, 0x3F3504F3, 0x3F3504F3, 0x00000000, 0xBF3504F3⟩
        p := ⟨0x3EC3EF15, 0x3F3504F3, 0x3F6C835E, 0x3F6C835E, 0x3F3504F3, 0x3EC3EF15⟩
        thb := 0x3E000000
        phb := 0x3D800000 } }

/-! ## Well-formedness -/

theorem test_wellFormed_refuses_channel_256 : (Instr.chan 256 0).wellFormed = false := by decide

theorem test_wellFormed_accepts_channel_255 : (Instr.chan 255 0).wellFormed = true := by decide

/-! ## Decoding: words written out from R72, R74 and R78 -/

theorem test_decode_nop : decode ⟨0x00000000, 0xFFFFFFFF, 0⟩ = .ok .nop := by decide

theorem test_decode_build : decode ⟨0x00000001, 0x00000010, 0⟩ = .ok (.build 16) := by decide

theorem test_decode_lksin : decode ⟨0x00000002, 0x40800000, 7⟩ = .ok (.lksin 0x40800000) := by decide

theorem test_decode_lkcos : decode ⟨0x00000003, 0x40000000, 0⟩ = .ok (.lkcos 0x40000000) := by decide

theorem test_decode_init :
    decode ⟨0x00000010, 0x3E000000, 0x3D800000⟩ = .ok (.init 0x3E000000 0x3D800000) := by decide

theorem test_decode_chg : decode ⟨0x00000011, 0, 0x3E800000⟩ = .ok (.chg 0 0x3E800000) := by decide

theorem test_decode_matrd :
    decode ⟨0b00000000000_10_1_1_0_00000000_00010010, 0, 0⟩ = .ok (.matrd .phi .quarter 2) := by decide

theorem test_decode_matrd_theta :
    decode ⟨0b00000000000_01_0_0_0_00000000_00010010, 0, 0⟩ = .ok (.matrd .theta .direct 1) := by decide

theorem test_decode_chan :
    decode ⟨0b00000000000_00_0_0_0_00001111_00100000, 0x3F800000, 0⟩ = .ok (.chan 15 0x3F800000) := by
  decide

theorem test_decode_rnew :
    decode ⟨0b00000000000_00_0_0_1_00000000_00110000, 4, 0⟩ = .ok (.rnew .el 4) := by decide

theorem test_decode_rproc :
    decode ⟨0b00000000000_00_0_0_0_00000000_00110001, 0x40800000, 0⟩ = .ok (.rproc .az 0x40800000) := by
  decide

theorem test_decode_dirstep :
    decode ⟨0x00000040, 0x3E800000, 0xBE000000⟩ = .ok (.dirstep 0x3E800000 0xBE000000) := by decide

theorem test_decode_rdstat : decode ⟨0x00000050, 0, 0⟩ = .ok .rdstat := by decide

theorem test_decode_clrerr : decode ⟨0x00000051, 0, 0⟩ = .ok .clrerr := by decide

/-- V70 to V72: a reserved opcode, RSV set, a field its format does not use set. -/
theorem test_decode_rejects_illegal_words :
    [0x00000004, 0x000000FF, 0x00000052, 0x00200000, 0x80000001, 0x00000100, 0x00010020, 0x00020030,
      0x00010010].map (fun w => decode ⟨w, 0, 0⟩) = List.replicate 9 (.error .noRow) := by decide

/-- V73: MATRD with QO = 3. -/
theorem test_decode_rejects_order_three : decode ⟨0x00180012, 0, 0⟩ = .error .orderReserved := by decide

theorem test_table_word_matrd : decodeTableWord 32 0x00160012 = some (.matrd .phi .quarter 2) := by decide

theorem test_step_runs_the_issued_word :
    responseOf (step (State.reset.withFetchWord 32 0x20)) = some (.rejected .order) := by decide

/-- 20_memory.md R51: bits 7:0 first. -/
theorem test_bytes_of_a_command :
    (⟨0x00160012, 0x40000000, 0⟩ : Command).bytes = [0x12, 0, 0x16, 0, 0, 0, 0, 0x40, 0, 0, 0, 0] := by decide

/-! ## Syntax and pseudo-instructions (R81 to R83) -/

theorem test_assemble_dirstep :
    (assemble "DIRSTEP 0.25, -0.125").map (·.map encode) = some [⟨0x40, 0x3E800000, 0xBE000000⟩] := by decide

theorem test_assemble_matrd :
    (assemble "MATRD P, 1, 2").map (·.map encode) = some [⟨0x00160012, 0, 0⟩] := by decide

theorem test_assemble_setup :
    assemble "SETUP 16, 2, 0.125, 0x3D800000" =
      some [.build 16, .rnew .az 2, .rnew .el 2, .init 0x3E000000 0x3D800000] := by decide

theorem test_assemble_refuses_channel_256 : assemble "CHAN 256, 1.0" = none := by decide

/-- R82 and R191: SAMPLE is DIRSTEP and the sixteen channels in order. -/
theorem test_sample_expands :
    (Pseudo.sample 1 2 3).expand = .dirstep 1 2 :: (Pseudo.enc16 3).expand ∧
      (Pseudo.enc16 3).expand.length = 16 ∧ (Pseudo.enc16 3).expand[15]? = some (.chan 15 3) := by decide

/-! ## Arithmetic and the table -/

/-- V8: the product of channel 0 for s = 0x3F800001. -/
theorem test_fmul_rounds : fmul 0x3F800001 0x3F3504F3 = 0x3F3504F4 := by decide

/-- V44: 1.0 / 10. -/
theorem test_fdiv_rounds : fdiv 0x3F800000 (toF 10) = 0x3DCCCCCD := by decide

/-- V46: -3e38 - 3e38 overflows to -Infinity. -/
theorem test_fsub_overflows : fsub 0xFF61B1E6 0x7F61B1E6 = 0xFF800000 := by decide

/-- The L = 16 row of 95_test_vectors.md. -/
theorem test_default_table_16 :
    (buildTable Config.default 16 []) = core16.tbl := by decide +kernel

/-- The L = 10 row of 95_test_vectors.md. -/
theorem test_default_table_10 :
    (List.range 10).map (defaultSin 10) =
      [0x00000000, 0x3F167918, 0x3F737871, 0x3F737871, 0x3F167918, 0x00000000, 0xBF167918, 0xBF737871,
        0xBF737871, 0xBF167918] := by decide +kernel

/-! ## One step of each command -/

/-- R101, Example. -/
theorem test_build_4 : fieldOf (fun t => (t.tlen, t.tbl)) (exec (.build 4) State.reset) =
    some (4, tableOf [0, 0x3F800000, 0, 0xBF800000, 0]) := by decide +kernel

/-- V12: BUILD 4097 with the default L_MAX. -/
theorem test_build_too_long : fieldOf State.status (exec (.build 4097) State.reset) = some 0x00030400 := by
  decide

/-- V50: 3.25. -/
theorem test_lksin_interpolates : responseOf (exec (.lksin 0x40500000) core16) = some (.ok 0x3F716286 0) := by
  decide

/-- V50: -1.0e-8 wraps to +0.0. -/
theorem test_lksin_wraps : responseOf (exec (.lksin 0xB22BCC77) core16) = some (.ok 0 0) := by decide

/-- V5: LKCOS 0.5. -/
theorem test_lkcos : responseOf (exec (.lkcos 0x3F000000) core16) = some (.ok 0x3F7641AF 0) := by decide

/-- V52: LKCOS -Infinity. -/
theorem test_lkcos_nonfinite : responseOf (exec (.lkcos 0xFF800000) core16) = some (.rejected .nonfinite) := by
  decide

/-- V21. -/
theorem test_init : fieldOf State.dir (exec (.init 0x3E000000 0x3D800000) core16) = some ready16.dir := by
  decide +kernel

/-- V26: INIT 3.0e37 with L = 16 overflows. -/
theorem test_init_overflows :
    responseOf (exec (.init 0x7DB48E52 0) core16) = some (.rejected .nonfinite) := by decide

/-- V22. -/
theorem test_chg : fieldOf (fun t => (t.response, t.dir)) (exec (.chg 0 0x3E800000) ready4) =
    some (some (.ok 2 0), some { direction0 with
      p := ⟨0x3F800000, 0, 0xBF800000, 0, 0xBF800000, 0⟩, phb := 0x3E800000 }) := by decide +kernel

/-- V24: the sign of zero is no change. -/
theorem test_chg_sign_of_zero : responseOf (exec (.chg 0x80000000 0x80000000) ready4) = some (.ok 0 0) := by
  decide

/-- V21: MATRD P, 1, 2. -/
theorem test_matrd : responseOf (exec (.matrd .phi .quarter 2) ready16) = some (.ok 0x3EC3EF15 0) := by decide

/-- V32: CHAN 10, 0.5. -/
theorem test_chan_10 : responseOf (exec (.chan 10 0x3F000000) ready16) = some (.ok 0xBD821400 0) := by decide

/-- V34. -/
theorem test_chan_16 : fieldOf State.status (exec (.chan 16 0x3F800000)
    { core4 with dir := some direction0 }) = some 0x00040803 := by decide

/-- R170, Example. -/
theorem test_rnew : fieldOf State.ramp1 (exec (.rnew .el 4) State.reset) =
    some ⟨true, 4, 0, 0, 0, 0, false⟩ := by decide

/-- V41, call 3: a new target in the middle of a ramp. -/
theorem test_rproc_retargets :
    fieldOf (fun t => (t.response, t.ramp0)) (exec (.rproc .az 0x41000000)
      { State.reset with ramp0 := ⟨true, 4, 0x40800000, 0x40000000, 0x3F800000, 2, true⟩ }) =
    some (some (.ok 0x40600000 0), ⟨true, 4, 0x41000000, 0x40600000, 0x3FC00000, 3, true⟩) := by decide

/-- V44, call 11: the Idle ramp snaps to its input. -/
theorem test_rproc_snaps :
    responseOf (exec (.rproc .az 0x3F800000)
      { State.reset with ramp0 := ⟨true, 10, 0x3F800000, 0x3F800001, 0x3DCCCCCD, 0, false⟩ }) =
    some (.ok 0x3F800000 0) := by decide

/-- V60, call 1. -/
theorem test_dirstep :
    fieldOf (fun t => (t.response, t.dir.map (·.t), t.status)) (exec (.dirstep 0x3F800000 0) ready4) =
    some (some (.ok 0x3E800000 0), some ⟨0x3F800000, 0, 0xBF800000, 0, 0xBF800000, 0⟩, 0x0000001F) := by
  decide +kernel

/-- V62: a NaN elevation leaves ramp 0 where it was. -/
theorem test_dirstep_is_atomic :
    fieldOf (fun t => (t.response, t.ramp0)) (exec (.dirstep 0x3F800000 0x7FC00000) ready4) =
    some (some (.rejected .nonfinite), ready4.ramp0) := by decide

/-- V68. -/
theorem test_rdstat : responseOf (exec .rdstat
    { core4 with dir := some direction0, sticky := 0b01000, lastCause := 4 }) =
    some (.ok 0x00040803 4) := by decide

/-- P4, #9. -/
theorem test_clrerr : fieldOf State.status (exec .clrerr
    { core4 with dir := some direction0, sticky := 0b11111, lastCause := 1 }) = some 0x00000003 := by decide

/-- V67. -/
theorem test_nop : responseOf (exec .nop State.reset) = some (.ok 0 0) := by decide

/-- V77: a rejected CLRERR clears nothing. -/
theorem test_illegal_clrerr :
    fieldOf State.status (step { State.reset with
      sticky := 0b00110, lastCause := 3, pending := [.command ⟨0x151, 0, 0⟩] }) = some 0x00010700 := by decide

/-- R39: an idle step does not keep the response of the command before it. -/
theorem test_idle_drops_the_response :
    step { ready4 with response := some (.ok 1 2) } = .next ready4 := rfl

/-- R241: a reset during BUILD leaves no table and no response. -/
theorem test_reset_during_build :
    fieldOf (fun t => (t.tlen, t.response)) (step { ready4 with
      pending := [.resetDuring ⟨1, 8, 0⟩] }) = some (0, none) := by decide

/-! ## Witnesses: concrete states and operands that meet the hypotheses of the obligations -/

theorem default_config_ok : ConfigOk Config.default :=
  ⟨by decide, by decide, by decide, by decide, by simp [Config.default], by simp [Config.default]⟩

/-- A memory of the five words of `core4` holds a word exactly at 0 to 4. -/
theorem core4_held (i : Nat) : (core4.tbl.read i).isSome = true ↔ i ≤ 4 := by
  rw [Memory.read_isSome_iff]
  show i ∈ [0, 1, 2, 3, 4] ↔ i ≤ 4
  simp only [List.mem_cons, List.not_mem_nil, or_false]
  constructor
  · rintro (h | h | h | h | h) <;> omega
  · intro h; omega

theorem core4_table : TableShape core4 :=
  ⟨by decide, by decide, fun h => absurd h (by decide), fun _ => core4_held⟩

theorem core4_values : TableValues core4 := by
  refine ⟨fun _ i w h => ?_, fun _ => by decide⟩
  have hi : i ≤ 4 := (core4_held i).mp (by rw [h]; rfl)
  interval_cases i <;> (cases h; decide)

theorem reset_ramp_shape : RampShape Config.default Ramp.reset :=
  ⟨by decide, by decide, fun _ => rfl, by decide, by decide⟩

theorem fresh_ramp_shape : RampShape Config.default (Ramp.fresh 4) :=
  ⟨by decide, by decide, by decide, by decide, by decide⟩

theorem core4_shape : core4.Shape :=
  ⟨default_config_ok, core4_table, by decide, fun r => by cases r <;> exact reset_ramp_shape, by decide, by decide⟩

theorem ready4_shape : ready4.Shape :=
  ⟨default_config_ok, ⟨core4_table.wf, core4_table.len_le, core4_table.unbuilt, core4_table.held⟩, by decide,
    fun r => by cases r <;> exact fresh_ramp_shape, by decide, by decide⟩

theorem direction0_values : DirectionValues direction0 :=
  ⟨fun p q => by cases p <;> revert q <;> decide, fun p q => by cases p <;> revert q <;> decide, by decide, by decide⟩

theorem ready4_inv : ready4.Inv :=
  ⟨ready4_shape, fun r => by cases r <;> exact ⟨by decide, by decide, by decide⟩,
    ⟨core4_values.unit, core4_values.guard⟩, fun d h => by cases h; exact direction0_values⟩

theorem ready4_fresh : ready4.MatricesFresh := fun d h => by
  cases h; exact ⟨by decide +kernel, by decide +kernel⟩

/-- The largest table length the parameters allow, 2^22 (R8). -/
def longest : State := { State.reset with tlen := 0x400000 }

theorem witness_DecodeReadsBackEveryEncoding :
    (Instr.chan 255 0).wellFormed = true ∧ (Instr.matrd .phi .quarter 2).wellFormed = true := by decide

theorem witness_EncodingKeepsTheDecodedWord : decode ⟨0x0000FF20, 7, 0⟩ = .ok (.chan 255 7) := by decide

/-- R75: each of the four items on its own, and the largest legal CH. -/
theorem witness_DecodingRejectsExactlyTheIllegalWords :
    [0x00000052, 0x00200000, 0x00000100, 0x00010020, 0x00020030, 0x00180012].map illegalWord =
      List.replicate 6 true ∧ illegalWord 0x0000FF20 = false := by decide

/-- The overflow threshold, its last value below, and a tie. -/
theorem witness_RoundingIsNearestTiesToEven :
    isFinite (rneRat (2 ^ 128 - 2 ^ 103)) = false ∧ isFinite (rneRat (2 ^ 128 - 2 ^ 103 - 1)) = true ∧
      rneRat (1 + 1 / 2 ^ 24) = 0x3F800000 ∧ rneRat (1 + 3 / 2 ^ 24) = 0x3F800002 := by decide +kernel

/-- Finite operands with a zero sum, a zero divisor, an infinite and a finite operand, two Infinities. -/
theorem witness_ArithmeticRoundsTheExactResultOnce :
    (isFinite 0x3F800000 = true ∧ isFinite 0xBF800000 = true ∧ valueOf 0x3F800000 + valueOf 0xBF800000 = 0 ∧
      valueOf 0xBF800000 ≠ 0) ∧ (isFinite 0x80000000 = true ∧ valueOf 0x80000000 = 0) ∧
      isInf 0x7F800000 = true ∧ isInf 0xFF800000 = true := by decide +kernel

theorem witness_EveryNaNResultIsCanonical :
    isNaN 0x7F800001 = true ∧ isNaN (fadd 0x7F800000 0xFF800000) = true := by decide

theorem witness_ChangeTestIsQuietNotEqual :
    isNaN 0xFFC00000 = true ∧ (isFinite 0x80000000 = true ∧ isFinite 0 = true) ∧
      isInf 0xFF800000 = true ∧ isNaN 0x7F800000 = false := by decide

theorem witness_IntegersUpTo24BitsAreExact : 2 ^ 24 ≤ 2 ^ 24 ∧ toF (2 ^ 24) = 0x4B800000 := by decide

theorem witness_QuarterOffsetIsExact : longest.tableLen ≤ 2 ^ 22 := by decide

theorem witness_DefaultTableWordIsNearestToSine : 1 < 3 ∧ sinDecided 3 1 = true ∧ isFinite 0x3F5DB3D7 = true := by
  decide +kernel

/-- One index for each of the four quarter points. -/
theorem witness_DefaultTableIsExactAtQuarterPoints :
    (List.range 4).map (fun i => (4 * i % 4, 4 * i / 4)) = [(0, 0), (0, 1), (0, 2), (0, 3)] := by decide

/-- The shortest and the longest table of the default parameters. -/
theorem witness_BuildWritesTheTable :
    State.reset.built = false ∧ 1 ≤ u32 1 ∧ u32 4096 ≤ State.reset.cfg.lMax := by decide

/-- A configuration that lists a word for one index of a length and none for the next. -/
theorem witness_BuildOfAListedWord :
    let s : State := { State.reset with cfg := { Config.default with sinWords := [((8, 1), 0x3F3504F4)] } }
    s.built = false ∧ u32 8 ≤ s.cfg.lMax ∧ s.cfg.sinWords.lookup (u32 8, 1) = some 0x3F3504F4 ∧
      s.cfg.sinWords.lookup (u32 8, 2) = none := by decide

theorem witness_WrapRoundsTheExactRemainderOnce : 1 ≤ 1 ∧ isFinite 0xB22BCC77 = true := by decide

theorem witness_WrapSplitsInsideTheTable :
    1 ≤ 2 ^ 22 ∧ 2 ^ 22 ≤ 2 ^ 22 ∧ isFinite 0xFF7FFFFF = true := by decide

theorem witness_WrapIsExactOnNonNegativeArguments :
    isFinite 0x71800000 = true ∧ 0 ≤ valueOf 0x71800000 := by decide +kernel

/-- V4: 1.0 and 17.0 with L = 16. -/
theorem witness_LookupIsPeriodic :
    core16.built = true ∧ isFinite 0x3F800000 = true ∧ isFinite 0x41880000 = true ∧
      valueOf 0x41880000 = valueOf 0x3F800000 + (1 : Int) * core16.tableLen := by decide +kernel

theorem witness_InterpolationStaysBetweenItsSamples :
    inUnit 0xBF800000 = true ∧ inUnit 0x3F800000 = true ∧ isFinite 0x3F7FFFFF = true ∧
      0 ≤ valueOf 0x3F7FFFFF ∧ valueOf 0x3F7FFFFF < 1 := by decide +kernel

theorem witness_LksinInterpolatesTheTable :
    core4.Shape ∧ core4.built = true ∧ isFinite 0xFF7FFFFF = true := ⟨core4_shape, by decide, by decide⟩

theorem witness_LkcosLooksUpAQuarterFurther :
    core4.Shape ∧ core4.built = true ∧ isFinite 0x7F7FFFFF = true := ⟨core4_shape, by decide, by decide⟩

theorem witness_LksinReadsTheTableAtIntegers :
    core4.Shape ∧ TableValues core4 ∧ 3 < core4.tableLen ∧ core4.tbl.read 3 = some 0xBF800000 ∧
      (0xBF800000 : Word) ≠ 0x80000000 :=
  ⟨core4_shape, core4_values, by decide, by decide, by decide⟩

theorem witness_AxisEntriesAreScaledLookups : axisRow core4 0 = .ok matrix0 := by decide +kernel

theorem witness_InitComputesBothMatrices :
    core4.Shape ∧ core4.built = true ∧ axisArgsFinite core4 0x3E000000 = true ∧
      axisArgsFinite core4 0xBF800000 = true := ⟨core4_shape, by decide, by decide, by decide⟩

/-- No axis, the theta axis, the phi axis changed. -/
theorem witness_ChgRecomputesExactlyTheChangedAxes :
    ready4.Shape ∧ ready4.dir = some direction0 ∧ axisOverflows ready4 0x80000000 direction0.thb = false ∧
      axisOverflows ready4 0x3F800000 direction0.thb = false ∧ fneq 0x3F800000 direction0.thb = true ∧
      fneq 0x80000000 direction0.phb = false :=
  ⟨ready4_shape, rfl, by decide, by decide, by decide, by decide⟩

theorem witness_ChgWithUnchangedValuesWritesNothing :
    ready4.dir = some direction0 ∧ fneq 0x80000000 direction0.thb = false ∧ fneq 0 direction0.phb = false := by
  decide

theorem witness_ChgOfPhiMatchesInit :
    ready4.MatricesFresh ∧ ready4.built = true ∧ ready4.dir = some direction0 ∧
      isFinite direction0.thb = true ∧ fneq 0x3E800000 direction0.phb = true ∧
      ∃ t, exec (.chg direction0.thb 0x3E800000) ready4 = .next t ∧ t.response = some (.ok 2 0) :=
  ⟨ready4_fresh, by decide, rfl, by decide, by decide, _, rfl, by decide +kernel⟩

theorem witness_MatrdReadsTheNamedEntry : ready16.dir.isSome = true := by decide

theorem witness_StepKeepsTheMatricesFresh :
    ready4.MatricesFresh ∧ (ready4.dinit = true → ready4.built = true) ∧ ∃ t, step ready4 = .next t :=
  ⟨ready4_fresh, by decide, _, rfl⟩

theorem witness_ChanMultipliesTheSampleByTheWeight : ready4.dir = some direction0 := by decide

theorem witness_ChannelZeroIsIndependentOfTheDirection : ready4.dinit = true := by decide

theorem witness_WeightsAreFinite : DirectionValues direction0 := direction0_values

theorem witness_WeightsInExactArithmetic : isFinite 0x7F7FFFFF = true ∧ (15 : Fin 16) ≠ 0 ∧
    ∃ M : ℝ → Phase → Fin 3 → ℝ, ∀ x q,
      M x .direct q = Real.sin ((q.val + 1) * x) ∧ M x .quarter q = Real.cos ((q.val + 1) * x) :=
  ⟨by decide, by decide, fun x p q => match p with
    | .direct => Real.sin ((q.val + 1) * x)
    | .quarter => Real.cos ((q.val + 1) * x), fun _ _ => ⟨rfl, rfl⟩⟩

/-- The least and the greatest block size of the default parameters. -/
theorem witness_RnewStartsTheRampIdleAtZero : 1 ≤ u32 1 ∧ u32 65536 ≤ State.reset.cfg.bsMax := by decide

/-- V41: a changed input, a ramp that goes on, an Idle ramp. -/
theorem witness_RprocFollowsTheFourSteps :
    (ready4.ramp .az).cfg = true ∧ fneq 0x40800000 (ready4.ramp .az).pin = true ∧
      isFinite (fdiv (fsub 0x40800000 0) (toF 4)) = true ∧
      isFinite (fadd 0 (fdiv (fsub 0x40800000 0) (toF 4))) = true ∧
      fneq 0 (ready4.ramp .el).pin = false ∧ (ready4.ramp .el).ramping = false ∧
      isFinite (ready4.ramp .el).inc = true := by decide

theorem witness_RprocGoesOn :
    let g : Ramp := ⟨true, 4, 0x40800000, 0x3F800000, 0x3F800000, 3, true⟩
    g.cfg = true ∧ fneq 0x40800000 g.pin = false ∧ g.ramping = true ∧ isFinite g.inc = true ∧
      isFinite (fadd g.pout g.inc) = true := by decide

/-- V40: the four calls of a ramp 0 to 4 of block size 4, every operation exact, and two calls after them. -/
theorem witness_RampReachesItsTargetInBlockSizeCalls :
    (ready4.ramp .az).cfg = true ∧ 1 ≤ u32 (ready4.ramp .az).bs ∧ isFinite 0x40800000 = true ∧
      fneq 0x40800000 (ready4.ramp .az).pin = true ∧
      0x3F800000 = fdiv (fsub 0x40800000 (ready4.ramp .az).pout) (toF (u32 (ready4.ramp .az).bs)) ∧
      isFinite 0x3F800000 = true ∧ u32 (ready4.ramp .az).bs ≤ 6 ∧
      valueOf (fsub 0x40800000 (ready4.ramp .az).pout) = valueOf 0x40800000 - valueOf (ready4.ramp .az).pout ∧
      valueOf 0x3F800000 =
        valueOf (fsub 0x40800000 (ready4.ramp .az).pout) / u32 (ready4.ramp .az).bs ∧
      ∃ o : Nat → F, o 0 = (ready4.ramp .az).pout ∧
        (∀ k, o (k + 1) = if k < u32 (ready4.ramp .az).bs then fadd (o k) 0x3F800000 else 0x40800000) ∧
        (∀ k, k < 6 → isFinite (o (k + 1)) = true) ∧
        ∀ k, k < 4 → valueOf (o (k + 1)) = valueOf (o k) + valueOf 0x3F800000 :=
  ⟨by decide, by decide, by decide, by decide, by decide, by decide, by decide, by decide +kernel,
    by decide +kernel,
    fun n => Nat.rec 0 (fun k y => if k < 4 then fadd y 0x3F800000 else 0x40800000) n, rfl, fun _ => rfl,
    fun k h => by interval_cases k <;> decide, fun k h => by interval_cases k <;> decide +kernel⟩

theorem witness_DirstepStepsBothRampsAndTheDirection :
    ready4.Shape ∧ ready4.ramp0.cfg = true ∧ ready4.ramp1.cfg = true ∧ ready4.dir = some direction0 ∧
      nonfiniteInput (.dirstep 0x3F800000 0) ready4 = false :=
  ⟨ready4_shape, by decide, by decide, rfl, by decide⟩

theorem witness_DirstepEqualsItsThreeCommands :
    ∃ t, exec (.dirstep 0x3F800000 0) ready4 = .next t ∧ t.response = some (.ok 0x3E800000 0) :=
  ⟨_, rfl, by decide +kernel⟩

/-- A rejection by a command's rule, and one by decoding. -/
theorem witness_RejectionsArePrecise :
    responseOf (step { ready4 with pending := [.command ⟨0x1020, 0, 0⟩] }) = some (.rejected .channel) ∧
      responseOf (step { ready4 with pending := [.command ⟨0x4, 0, 0⟩] }) = some (.rejected .illegal) := by
  decide

theorem witness_OrderMeansAMissingPrerequisite :
    missingPrerequisite (.build 0) ready4 = true ∧ missingPrerequisite (.chan 16 0) core4 = true ∧
      missingPrerequisite (.dirstep 0 0) ready16 = true ∧
      ∃ t, exec (.build 0) ready4 = .next t ∧ t.response = some (.rejected .order) :=
  ⟨by decide, by decide, by decide, _, rfl, by decide⟩

/-- The nearest values outside and inside each range. -/
theorem witness_RangeCausesFollowTheOperands :
    responseOf (exec (.build 4097) State.reset) = some (.rejected .config) ∧
      responseOf (exec (.rnew .el 65537) State.reset) = some (.rejected .config) ∧
      responseOf (exec (.rnew .el 65536) State.reset) = some (.ok 0 0) ∧
      responseOf (exec (.chan 16 0) ready4) = some (.rejected .channel) ∧
      responseOf (exec (.chan 15 0x3F800000) ready4) = some (.ok 0 0) := by decide

theorem witness_NonfiniteMeansANonFiniteValue :
    ready4.Shape ∧ missingPrerequisite (.chg 0x7FC00000 0) ready4 = false ∧
      nonfiniteInput (.chg 0x7FC00000 0) ready4 = true ∧
      ∃ t, exec (.chg 0x7FC00000 0) ready4 = .next t ∧ t.response = some (.rejected .nonfinite) :=
  ⟨ready4_shape, by decide, by decide, _, rfl, by decide⟩

theorem witness_SuccessLeavesTheErrorRecord :
    Instr.rdstat ≠ .clrerr ∧ ∃ t, exec .rdstat ready4 = .next t ∧ t.response = some (.ok 0xF 4) :=
  ⟨by decide, _, rfl, by decide⟩

/-- A success, and a rejection. -/
theorem witness_OnlyTheNamedCommandsWrite :
    (∃ t, exec (.rnew .az 8) ready4 = .next t ∧ t.response = some (.ok 0 0)) ∧
      ∃ t, exec (.chan 16 0) ready4 = .next t ∧ t.response = some (.rejected .channel) :=
  ⟨⟨_, rfl, rfl⟩, _, rfl, rfl⟩

theorem witness_OnlyResetUnbuilds :
    (∀ rest, ready4.pending ≠ .reset :: rest) ∧ (∀ c rest, ready4.pending ≠ .resetDuring c :: rest) ∧
      ready4.built = true ∧ ready4.dinit = true ∧ (∀ r, (ready4.ramp r).cfg = true) ∧
      ∃ t, step ready4 = .next t :=
  ⟨by simp [ready4, core4, State.reset], by simp [ready4, core4, State.reset], by decide, by decide,
    fun r => by cases r <;> decide, _, rfl⟩

theorem witness_PositionCountsCommandsUnread :
    ∃ t, step { ready4 with pending := [.command ⟨0x50, 0, 0⟩] } = .next t := ⟨_, rfl⟩

theorem witness_StepRunsTheDecodedCommand :
    ({ ready4 with pending := [.command ⟨0x40, 1, 2⟩, .reset] } : State).pending =
      [.command ⟨0x40, 1, 2⟩, .reset] ∧ decode ⟨0x40, 1, 2⟩ = .ok (.dirstep 1 2) := by decide

theorem witness_StepRejectsIllegalWordsAndIdles :
    illegalWord 0x00000151 = true ∧ ready4.pending = [] := by decide

/-- The plain reset, and a reset during BUILD. -/
theorem witness_ResetDuringACommandAbandonsIt :
    ({ ready4 with pending := [.reset, .command ⟨0, 0, 0⟩] } : State).pending = [.reset, .command ⟨0, 0, 0⟩] ∧
      ({ ready4 with pending := [.resetDuring ⟨1, 8, 0⟩] } : State).pending = [.resetDuring ⟨1, 8, 0⟩] := by
  decide

theorem witness_StepKeepsTheShape : ready4.Shape ∧ ∃ t, step ready4 = .next t := ⟨ready4_shape, _, rfl⟩

theorem witness_StepKeepsTheInvariants :
    ready4.Inv ∧ ({ ready4 with pending := [.command ⟨0x40, 0x3F800000, 0⟩] } : State).Inv ∧
      ∃ t, step { ready4 with pending := [.command ⟨0x40, 0x3F800000, 0⟩] } = .next t ∧
        t.response = some (.ok 0x3E800000 0) :=
  ⟨ready4_inv,
    ⟨⟨ready4_shape.config, ⟨core4_table.wf, core4_table.len_le, core4_table.unbuilt, core4_table.held⟩,
        by decide, ready4_shape.ramps, by decide, by decide⟩,
      ready4_inv.rampsFinite, ⟨core4_values.unit, core4_values.guard⟩, ready4_inv.direction⟩,
    _, rfl, by decide +kernel⟩

theorem witness_StepKeepsTheTableAsBuilt :
    State.reset.TableAsBuilt ∧ (State.reset.built = false → State.reset.tbl = []) ∧
      ∃ t, step State.reset = .next t :=
  ⟨fun h => absurd h (by decide), fun _ => rfl, _, rfl⟩

theorem witness_NoStateIsStuck : ready4.Shape := ready4_shape

theorem witness_EveryRunAnswersEachCommand : core4.Shape := core4_shape

end Sys2Proof.Tests
end

section
/-! PROOFS. The quarter offset of 40_wavetable.md R102 is exact. A whole number of at most 24 bits times a power of
two, inside the exponent range, is a binary32 value (`exists_mag_of_dyadic`), so its rounding is exact
(`rneSigned_of_dyadic`); TLEN and TLEN/4 are of that form. -/

namespace Sys2Proof.Machine

/-! ## Values that binary32 holds -/

/-- The magnitude bits of twice a value: a subnormal is shifted, any other magnitude goes up one exponent. -/
def doubleMag (m : Nat) : Nat := if m < 2 ^ 23 then 2 * m else m + 2 ^ 23

theorem doubleMag_le (m : Nat) : doubleMag m ≤ m + 2 ^ 23 := by
  unfold doubleMag; split <;> omega

theorem unitsOfMag_of_le {m : Nat} (h : m ≤ 2 ^ 24) : unitsOfMag m = m := by
  rcases Nat.lt_or_eq_of_le h with hlt | rfl
  · exact if_pos hlt
  · decide

theorem unitsOfMag_of_normal {m : Nat} (h : 2 ^ 23 ≤ m) :
    unitsOfMag m = (2 ^ 23 + m % 2 ^ 23) * 2 ^ (m / 2 ^ 23 - 1) := by
  by_cases hlt : m < 2 ^ 24
  · have he : m / 2 ^ 23 - 1 = 0 := by omega
    rw [unitsOfMag_of_le hlt.le, he]; omega
  · exact if_neg hlt

theorem unitsOfMag_doubleMag (m : Nat) : unitsOfMag (doubleMag m) = 2 * unitsOfMag m := by
  unfold doubleMag
  split
  case isTrue hsub => rw [unitsOfMag_of_le (by omega), unitsOfMag_of_le (by omega)]
  case isFalse hnormal =>
    have he : (m + 2 ^ 23) / 2 ^ 23 - 1 = m / 2 ^ 23 - 1 + 1 := by omega
    rw [unitsOfMag_of_normal (by omega), unitsOfMag_of_normal (by omega), Nat.add_mod_right, he, pow_succ]
    ring

/-- `k · 2^j` units with `k` of at most 24 bits are the units of some magnitude: that of `k`, doubled `j` times. -/
theorem exists_mag_of_dyadic {k : Nat} (hk : k ≤ 2 ^ 24) (j : Nat) :
    ∃ m ≤ 2 ^ 24 + j * 2 ^ 23, unitsOfMag m = k * 2 ^ j := by
  induction j with
  | zero => exact ⟨k, by omega, by rw [unitsOfMag_of_le hk, pow_zero, Nat.mul_one]⟩
  | succ j ih =>
    obtain ⟨m, hm, hu⟩ := ih
    refine ⟨doubleMag m, ?_, ?_⟩
    · have := doubleMag_le m; omega
    · rw [unitsOfMag_doubleMag, hu]; ring

/-- A quotient that is `k · 2^j` units, with `k` of at most 24 bits, is rounded to exactly that value. The bound on
`j` keeps it below Infinity. -/
theorem rneSigned_of_dyadic {k j d : Nat} (neg : Bool) (hk : k ≤ 2 ^ 24) (hj : j ≤ 252) (hd : 0 < d) :
    isNeg (rneSigned neg (k * 2 ^ j * d) d) = neg ∧ isFinite (rneSigned neg (k * 2 ^ j * d) d) = true ∧
      unitsOfMag (mag (rneSigned neg (k * 2 ^ j * d) d)) = k * 2 ^ j := by
  obtain ⟨m, hm, hu⟩ := exists_mag_of_dyadic hk j
  have hfin : m < infMag := by unfold infMag; omega
  have hlt : m < 2 ^ 31 := by unfold infMag at hfin; omega
  have hround : rneSigned neg (k * 2 ^ j * d) d = pack neg m := by
    rw [rneSigned, ← hu, roundMag_unitsOfMag hd hfin.le]
  rw [hround, isNeg_pack hlt, isFinite_pack hlt, mag_pack hlt]
  exact ⟨rfl, decide_eq_true hfin, hu⟩

theorem valueOf_of_not_isNeg {x : F} (h : isNeg x = false) : valueOf x = (unitsOfMag (mag x) : ℚ) / 2 ^ 149 := by
  simp [valueOf, units, h]

/-! ## `toF` and `fdiv` -/

/-- A natural number of at most 24 bits is exact in binary32 (00_scope.md R9). -/
theorem toF_exact {n : Nat} (hn : n ≤ 2 ^ 24) :
    isNeg (toF n) = false ∧ isFinite (toF n) = true ∧ unitsOfMag (mag (toF n)) = n * 2 ^ 149 := by
  have h := rneSigned_of_dyadic (j := 149) (d := 1) false hn (by omega) Nat.one_pos
  rwa [Nat.mul_one] at h

theorem isNaN_of_isFinite {x : F} (h : isFinite x = true) : isNaN x = false := by
  simp only [isFinite, isNaN, decide_eq_true_eq, decide_eq_false_iff_not] at *; omega

theorem isInf_of_isFinite {x : F} (h : isFinite x = true) : isInf x = false := by
  simp only [isFinite, isInf, decide_eq_true_eq, decide_eq_false_iff_not] at *; omega

/-- Division of finite values by one that is not zero rounds the exact quotient. -/
theorem fdiv_of_isFinite {a b : F} (ha : isFinite a = true) (hb : isFinite b = true) (h0 : isZero b = false) :
    fdiv a b = rneSigned (isNeg a != isNeg b) (unitsOfMag (mag a) * 2 ^ 149) (unitsOfMag (mag b)) := by
  simp [fdiv, isNaN_of_isFinite ha, isNaN_of_isFinite hb, isInf_of_isFinite ha, isInf_of_isFinite hb, h0]

theorem unitsOfMag_fFour : unitsOfMag (mag fFour) = 2 ^ 151 := by decide

/-- A quarter of a natural number of at most 24 bits is the rounding of its exact units. -/
theorem fdiv_toF_fFour {n : Nat} (hn : n ≤ 2 ^ 24) :
    fdiv (toF n) fFour = rneSigned false (n * 2 ^ 147 * 2 ^ 151) (2 ^ 151) := by
  obtain ⟨hneg, hfin, hunits⟩ := toF_exact hn
  have hsign : (isNeg (toF n) != isNeg fFour) = false := by rw [hneg]; decide
  have hquot : n * 2 ^ 149 * 2 ^ 149 = n * 2 ^ 147 * 2 ^ 151 := by ring
  rw [fdiv_of_isFinite hfin (by decide) (by decide), hsign, hunits, unitsOfMag_fFour, hquot]

theorem fdiv_toF_fFour_exact {n : Nat} (hn : n ≤ 2 ^ 24) :
    isFinite (fdiv (toF n) fFour) = true ∧ valueOf (fdiv (toF n) fFour) = (n : ℚ) / 4 := by
  rw [fdiv_toF_fFour hn]
  obtain ⟨hneg, hfin, hunits⟩ := rneSigned_of_dyadic (j := 147) (d := 2 ^ 151) false hn (by omega) (by positivity)
  refine ⟨hfin, ?_⟩
  rw [valueOf_of_not_isNeg hneg, hunits]
  push_cast
  ring

/-! ## The statement -/

/-- Settles O10: TLEN is at most 22 bits, so dividing it by 4.0 is exact in binary32. -/
theorem quarterOffsetIsExact : Obligations.QuarterOffsetIsExact := by
  intro s hlen
  have hexact := fdiv_toF_fFour_exact (n := s.tableLen) (by omega)
  exact ⟨rfl, hexact⟩

end Sys2Proof.Machine
end

section
/-! PROOFS. CHAN of an existing channel (42_harmonic.md R141), and channel 0, whose weight names no matrix entry
(R142). -/

namespace Sys2Proof.Machine

/-- CHAN of an existing channel, in a state that holds a direction, answers with the sample times the channel's weight
(42_harmonic.md R141). -/
theorem exec_chan_of_dir {s : State} {d : Direction} (hdir : s.dir = some d) (k : Fin 16) (x : F) :
    exec (.chan k x) s = .next (s.respond (fmul x (weight d k)) 0) := by
  have hreq : requireDirection s = .ok d := requireDirection_ok_iff.mpr hdir
  simp [exec, execChan, hreq, bind, Except.bind, finish]

/-- The weight of channel 0, W, is CONST_W and reads neither T nor P (42_harmonic.md R140). -/
theorem weight_zero (d : Direction) : weight d 0 = 0x3F3504F3 := rfl

/-- Settles O31: with DINIT = 1 some direction is held, and W does not depend on which. -/
theorem channelZeroIsIndependentOfTheDirection : Obligations.ChannelZeroIsIndependentOfTheDirection := by
  intro s x hdinit
  obtain ⟨d, hdir⟩ := s.dinit_iff.mp hdinit
  have hchan := exec_chan_of_dir hdir 0 x
  rwa [weight_zero] at hchan

end Sys2Proof.Machine
end

section
/-! PROOFS. Rejections are precise (60_exceptions.md R214). Whatever rejects a command, its decoding or its own rule, the
state after is `State.reject` of the state in which the command was accepted: what a rejected command had staged is
dropped by `finish`, and a success answers with result words. -/

namespace Sys2Proof.Machine

/-- A command whose response is a rejection with cause `k` has kept nothing of what it staged (R214). -/
theorem finish_rejected {s t : State} {r : Except Raise Staged} {k : Cause}
    (h : finish s r = .next t) (hk : t.response = some (.rejected k)) : t = s.reject k := by
  rcases finish_next_iff.mp h with ⟨g, -, rfl⟩ | ⟨c, -, rfl⟩
  · simp at hk
  · have hc : c = k := by simpa using hk
    rw [hc]

/-- The same of every instruction's meaning. -/
theorem exec_rejected {i : Instr} {s t : State} {k : Cause}
    (h : exec i s = .next t) (hk : t.response = some (.rejected k)) : t = s.reject k := by
  obtain ⟨r, hr⟩ := exec_eq_finish i s
  exact finish_rejected (hr ▸ h) hk

/-- A command is one step: the meaning it decodes to, or the rejection of a word that decodes to none (R211). -/
theorem step_command {s : State} {c : Command} {rest : List HostAction} (hp : s.pending = .command c :: rest) :
    (∃ i, decode c = .ok i ∧ step s = exec i (s.accept rest)) ∨
      (∃ e, decode c = .error e ∧ step s = .next ((s.accept rest).reject .illegal)) := by
  simpa [hp] using step_cases s

/-- A rejected command, by decoding or by its own rule, leaves the rejection of the state that accepted it. -/
theorem step_rejected {s t : State} {c : Command} {rest : List HostAction} {k : Cause}
    (hp : s.pending = .command c :: rest) (h : step s = .next t) (hk : t.response = some (.rejected k)) :
    t = (s.accept rest).reject k := by
  rcases step_command hp with ⟨i, -, hstep⟩ | ⟨e, -, hstep⟩
  · exact exec_rejected (hstep ▸ h) hk
  · obtain rfl : (s.accept rest).reject .illegal = t := by simpa [hstep] using h
    have hk' : Cause.illegal = k := by simpa using hk
    rw [hk']

/-- Settles O42: a rejected step is `State.accept` and then `State.reject`, whose codes and bits are those of R210 and
R22. -/
theorem rejectionsArePrecise : Obligations.RejectionsArePrecise := by
  refine ⟨fun _ _ => rfl, fun s t c rest k hp h hk => ?_⟩
  obtain rfl := step_rejected hp h hk
  exact ⟨causeCode k, stickyBit k, by cases k <;> rfl, rfl, rfl⟩

end Sys2Proof.Machine
end

section
/-! PROOFS. Only reset undoes the setup (70_reset_and_hazards.md R243). `State.KeepsSetup` is what R243 says of the states
before and after; each write of the machine keeps it, so each command does, whether it commits or is rejected, and so
does every step that is no reset. -/

namespace Sys2Proof.Machine

/-- What R243 leaves to reset alone is not undone between `s` and `t`: a built table, DINIT = 1, a constructed ramp. -/
structure State.KeepsSetup (s t : State) : Prop where
  table : s.built = true → t.built = true ∧ t.tlen = s.tlen ∧ ∀ a, t.tbl.read a = s.tbl.read a
  dinit : s.dinit = true → t.dinit = true
  ramp : ∀ r, (s.ramp r).cfg = true → (t.ramp r).cfg = true

namespace State.KeepsSetup

/-- What leaves the table, the direction and the ramps alone keeps the setup. -/
theorem of_eq {s t : State} (htlen : t.tlen = s.tlen) (htbl : t.tbl = s.tbl) (hdir : t.dir = s.dir)
    (hramp : ∀ r, t.ramp r = s.ramp r) : s.KeepsSetup t where
  table hs := ⟨by rwa [State.built, htlen], htlen, fun a => by rw [htbl]⟩
  dinit hs := by rwa [State.dinit, hdir]
  ramp r hr := by rwa [hramp r]

theorem refl (s : State) : s.KeepsSetup s := of_eq rfl rfl rfl fun _ => rfl

theorem trans {s t u : State} (hst : s.KeepsSetup t) (htu : t.KeepsSetup u) : s.KeepsSetup u where
  table hs := by
    obtain ⟨hbt, hlt, hrt⟩ := hst.table hs
    obtain ⟨hbu, hlu, hru⟩ := htu.table hbt
    exact ⟨hbu, hlu.trans hlt, fun a => (hru a).trans (hrt a)⟩
  dinit := htu.dinit ∘ hst.dinit
  ramp r := htu.ramp r ∘ hst.ramp r

/-! ## The writes of the machine -/

theorem dropResponse (s : State) : s.KeepsSetup s.dropResponse := of_eq rfl rfl rfl (s.dropResponse_ramp)

theorem accept (s : State) (rest : List HostAction) : s.KeepsSetup (s.accept rest) :=
  of_eq rfl rfl rfl (s.accept_ramp rest)

theorem respond (s : State) (ra rb : Word) : s.KeepsSetup (s.respond ra rb) := of_eq rfl rfl rfl (s.respond_ramp ra rb)

theorem reject (s : State) (c : Cause) : s.KeepsSetup (s.reject c) := of_eq rfl rfl rfl (s.reject_ramp c)

theorem clearErrors (s : State) : s.KeepsSetup s.clearErrors := of_eq rfl rfl rfl (s.clearErrors_ramp)

/-- The table is written only while there is none. -/
theorem setTable {s : State} (hb : s.built = false) (len : Word) (m : Memory) : s.KeepsSetup (s.setTable len m) where
  table hs := by simp [hb] at hs
  dinit h := by simpa using h
  ramp r h := by simpa using h

theorem setDir (s : State) (d : Direction) : s.KeepsSetup (s.setDir d) where
  table := (refl s).table
  dinit _ := s.setDir_dinit d
  ramp r h := by simpa using h

/-- A write of a ramp keeps the setup if it leaves a constructed ramp constructed. -/
theorem setRamp {s : State} {r : RampId} {g : Ramp} (hg : (s.ramp r).cfg = true → g.cfg = true) :
    s.KeepsSetup (s.setRamp r g) where
  table h := by simpa using h
  dinit h := by simpa using h
  ramp r' h := by
    by_cases hr : r' = r
    · subst hr
      simpa using hg h
    · rwa [s.setRamp_ramp_other g hr]

end State.KeepsSetup

/-! ## The commands -/

/-- RampStep leaves CFG as it is (43_ramp.md R171). -/
theorem rampStep_cfg {g g' : Ramp} {x : F} (h : rampStep g x = .ok g') : g'.cfg = g.cfg := by
  obtain ⟨-, -, -, rfl⟩ := rampStep_ok_iff.mp h
  exact g.next_cfg x

/-- A rejection keeps the setup, so a command does if what it stages does. -/
theorem finish_keepsSetup {s t : State} {r : Except Raise Staged} (h : finish s r = .next t)
    (hr : ∀ g, r = .ok g → s.KeepsSetup g.state) : s.KeepsSetup t := by
  rcases finish_next_iff.mp h with ⟨g, hg, rfl⟩ | ⟨c, -, rfl⟩
  · exact (hr g hg).trans (.respond g.state g.ra g.rb)
  · exact .reject s c

/-- A command keeps the setup: BUILD needs BUILT = 0, no command removes the direction, and each ramp a command writes is
a fresh one or the step of the one that was there. -/
theorem exec_keepsSetup {i : Instr} {s t : State} (h : exec i s = .next t) : s.KeepsSetup t := by
  cases i
  all_goals
    simp only [exec, execNop, execBuild, execLksin, execLkcos, execInit, execChg, execMatrd, execChan, execRnew,
      execRproc, execDirstep, execRdstat, execClrerr] at h
    refine finish_keepsSetup h fun g hg => ?_
    simp only [bind_ok_iff, raiseIf_ok_iff, requireDirection_ok_iff, Except.ok.injEq] at hg
  case nop | rdstat => subst hg; exact .refl s
  case clrerr => subst hg; exact .clearErrors s
  case build n =>
    obtain ⟨-, hbuilt, -, -, rfl⟩ := hg
    exact .setTable hbuilt n _
  case lksin x =>
    obtain ⟨-, -, y, -, rfl⟩ := hg
    exact .refl s
  case lkcos x =>
    obtain ⟨-, -, -, -, y, -, rfl⟩ := hg
    exact .refl s
  case init theta phi =>
    obtain ⟨-, -, t, -, p, -, rfl⟩ := hg
    exact .setDir s _
  case chg theta phi =>
    obtain ⟨d, -, d', -, d'', -, rfl⟩ := hg
    exact .setDir s d''
  case matrd ax p q =>
    obtain ⟨d, -, rfl⟩ := hg
    exact .refl s
  case chan k sample =>
    obtain ⟨d, -, hg⟩ := hg
    split at hg
    · cases hg
      exact .refl s
    · cases hg
  case rnew r n =>
    obtain ⟨-, -, rfl⟩ := hg
    exact .setRamp fun _ => rfl
  case rproc r x =>
    obtain ⟨-, -, g', hstep, rfl⟩ := hg
    exact .setRamp fun hcfg => (rampStep_cfg hstep).trans hcfg
  case dirstep azimuth elevation =>
    obtain ⟨-, -, d, -, g0, hstep0, g1, hstep1, d', -, d'', -, rfl⟩ := hg
    have haz : s.KeepsSetup (s.setRamp .az g0) := .setRamp fun hcfg => (rampStep_cfg hstep0).trans hcfg
    have hel : (s.setRamp .az g0).KeepsSetup ((s.setRamp .az g0).setRamp .el g1) :=
      .setRamp fun hcfg => (rampStep_cfg hstep1).trans hcfg
    exact (haz.trans hel).trans (.setDir _ d'')

/-! ## The statement -/

/-- A step whose next host action is not a reset keeps the setup. -/
theorem step_keepsSetup {s t : State} (hreset : ∀ rest, s.pending ≠ .reset :: rest)
    (hduring : ∀ c rest, s.pending ≠ .resetDuring c :: rest) (h : step s = .next t) : s.KeepsSetup t := by
  rcases step_cases s with ⟨-, hs⟩ | ⟨rest, hp, -⟩ | ⟨c, rest, hp, -⟩ | ⟨c, rest, i, -, -, hs⟩ | ⟨c, rest, e, -, -, hs⟩
  · obtain rfl : s.dropResponse = t := by simpa [hs] using h
    exact .dropResponse s
  · exact absurd hp (hreset rest)
  · exact absurd hp (hduring c rest)
  · exact (State.KeepsSetup.accept s rest).trans (exec_keepsSetup (hs ▸ h))
  · obtain rfl : (s.accept rest).reject .illegal = t := by simpa [hs] using h
    exact (State.KeepsSetup.accept s rest).trans (.reject _ .illegal)

/-- Settles O48: the three conclusions are those of `State.KeepsSetup`. -/
theorem onlyResetUnbuilds : Obligations.OnlyResetUnbuilds := by
  intro s t hreset hduring h
  obtain ⟨htable, hdinit, hramp⟩ := step_keepsSetup hreset hduring h
  exact ⟨htable, hdinit, hramp⟩

end Sys2Proof.Machine
end

section
/-! PROOFS. Decoding and encoding (30_encoding.md sections 2, 3 and 7). The decoder accepts exactly what some row of the
opcode map selects and reads (`decode_ok_iff`). Whether a row selects a command word is a condition on the word as a
number (`selects_*_iff`), and so is each field of R72, which leaves arithmetic. -/

namespace Sys2Proof

/-! ## A command word as a number -/

theorem toNat_extract (w : Word) (start len : Nat) :
    (w.extractLsb' start len).toNat = w.toNat / 2 ^ start % 2 ^ len := by
  rw [BitVec.extractLsb'_toNat, Nat.shiftRight_eq_div_pow]

theorem getLsbD_eq_decide (w : Word) (i : Nat) : w.getLsbD i = decide (w.toNat / 2 ^ i % 2 = 1) := by
  rw [BitVec.getLsbD, Nat.testBit_eq_decide_div_mod_eq]

/-- Two command words are equal when their fields OPC, CH, RI, the four bits of AX, PB and QO, and RSV are (R72). -/
theorem word_eq_iff_fields {v w : Word} :
    v = w ↔ v.extractLsb' 0 8 = w.extractLsb' 0 8 ∧ v.extractLsb' 8 8 = w.extractLsb' 8 8 ∧
      v.extractLsb' 16 1 = w.extractLsb' 16 1 ∧ v.extractLsb' 17 4 = w.extractLsb' 17 4 ∧
      v.extractLsb' 21 11 = w.extractLsb' 21 11 := by
  refine ⟨fun h => by simp [h], fun ⟨hopc, hch, hri, hm, hrsv⟩ => BitVec.eq_of_toNat_eq ?_⟩
  have hv := v.isLt
  have hw := w.isLt
  simp only [← BitVec.toNat_inj, toNat_extract] at hopc hch hri hm hrsv
  omega

theorem and_ones_1 (x : BitVec 1) : x &&& 1#1 = x := BitVec.and_allOnes
theorem and_ones_4 (x : BitVec 4) : x &&& 15#4 = x := BitVec.and_allOnes
theorem and_ones_8 (x : BitVec 8) : x &&& 255#8 = x := BitVec.and_allOnes
theorem and_ones_11 (x : BitVec 11) : x &&& 2047#11 = x := BitVec.and_allOnes

/-- The mask of formats N, U, F1 and F2 (R74, R78). -/
theorem and_fullMask (w : Word) : w &&& 0xFFFFFFFF = w := BitVec.and_allOnes

/-- The mask of format M leaves AX, PB and QO open. -/
theorem and_matrdMask_iff {w : Word} :
    w &&& 0xFFE1FFFF = 0x12 ↔ w.toNat % 2 ^ 17 = 0x12 ∧ w.toNat / 2 ^ 21 = 0 := by
  have hw := w.isLt
  rw [word_eq_iff_fields]
  simp [BitVec.extractLsb'_and, and_ones_1, and_ones_8, and_ones_11, ← BitVec.toNat_inj]
  omega

/-- The mask of format C leaves CH open. -/
theorem and_chanMask_iff {w : Word} :
    w &&& 0xFFFF00FF = 0x20 ↔ w.toNat % 2 ^ 8 = 0x20 ∧ w.toNat / 2 ^ 16 = 0 := by
  have hw := w.isLt
  rw [word_eq_iff_fields]
  simp [BitVec.extractLsb'_and, and_ones_1, and_ones_4, and_ones_8, and_ones_11, ← BitVec.toNat_inj]
  omega

/-- The mask of formats RU and RF leaves RI open. -/
theorem and_rampMask_iff {w p : Word} {n : Nat} (hp : p.toNat = n) (hn : n < 2 ^ 8) :
    w &&& 0xFFFEFFFF = p ↔ w.toNat % 2 ^ 16 = n ∧ w.toNat / 2 ^ 17 = 0 := by
  have hw := w.isLt
  rw [word_eq_iff_fields]
  simp [BitVec.extractLsb'_and, and_ones_4, and_ones_8, and_ones_11, ← BitVec.toNat_inj]
  omega

/-! ## The decoder -/

/-- Among rows of which no two select the same word, a search finds the row that selects it. -/
theorem find?_of_selects {rows : List OpcodeRow} {w : Word} {row : OpcodeRow}
    (hone : rows.Pairwise fun r r' => r.selects w = true → r'.selects w = false)
    (hmem : row ∈ rows) (hsel : row.selects w = true) : rows.find? (fun r => r.selects w) = some row := by
  induction rows with
  | nil => simp at hmem
  | cons r rows ih =>
    obtain ⟨hr, hrows⟩ := List.pairwise_cons.mp hone
    rcases List.mem_cons.mp hmem with rfl | hmem
    · simp [hsel]
    · have hno : r.selects w = false := by
        by_contra h
        simp [hr row hmem (by simpa using h)] at hsel
      simp [hno, ih hrows hmem]

/-- The decoder accepts exactly what a row of the opcode map selects and reads (R80). -/
theorem decode_ok_iff {c : Command} {i : Instr} :
    decode c = .ok i ↔ ∃ row ∈ opcodeMap, row.selects c.cmd = true ∧ row.read c = .ok i := by
  constructor
  · intro h
    unfold decode at h
    split at h
    · next row hfind =>
      exact ⟨row, List.mem_of_find?_eq_some hfind, by simpa using List.find?_some hfind, h⟩
    · cases h
  · rintro ⟨row, hmem, hsel, hread⟩
    simp [decode, find?_of_selects (opcodeMap_selects_one c.cmd) hmem hsel, hread]

/-! ## The statements -/

/-- The number of CHAN's command word, whose channel index fits its field (R72, R76). -/
theorem toNat_encode_chan {k : Nat} (hk : k ≤ 255) (x : F) :
    (encode (.chan k x)).cmd.toNat = 0x20 + k * 2 ^ 8 := by
  simp [encode, Nat.shiftLeft_eq]
  omega

theorem fieldCh_eq (w : Word) : fieldCh w = w.toNat / 2 ^ 8 % 2 ^ 8 := toNat_extract w 8 8

theorem fieldQo_eq (w : Word) : fieldQo w = w.toNat / 2 ^ 19 % 2 ^ 2 := toNat_extract w 19 2

theorem fieldOpc_eq (w : Word) : fieldOpc w = w.toNat % 2 ^ 8 := by
  simp [fieldOpc]

theorem fieldRsv_eq (w : Word) : fieldRsv w = w.toNat / 2 ^ 21 := by
  have hw := w.isLt
  have h := toNat_extract w 21 11
  unfold fieldRsv
  omega

theorem decode_encode_chan {k : Nat} (hk : k ≤ 255) (x : F) : decode (encode (.chan k x)) = .ok (.chan k x) := by
  refine decode_ok_iff.mpr ⟨⟨"CHAN", 0x00000020, 0xFFFF00FF, fun c => .ok (.chan (fieldCh c.cmd) c.opa)⟩,
    by simp [opcodeMap], ?_, ?_⟩
  · rw [OpcodeRow.selects, beq_iff_eq, and_chanMask_iff, toNat_encode_chan hk]
    omega
  · have hch : fieldCh (encode (.chan k x)).cmd = k := by
      rw [fieldCh_eq, toNat_encode_chan hk]
      omega
    simp only [hch]
    rfl

/-- Settles O1. Only CHAN has a field that its term can overfill; every other command word is one of finitely many. -/
theorem decodeReadsBackEveryEncoding : Obligations.DecodeReadsBackEveryEncoding := by
  intro i hwf
  cases i
  case chan k x => exact decode_encode_chan (of_decide_eq_true hwf) x
  case matrd ax p q => cases ax <;> cases p <;> fin_cases q <;> rfl
  case rnew r n => cases r <;> simp [decode, encode, opcodeMap, OpcodeRow.selects, codeRi, fieldRi]
  case rproc r x => cases r <;> simp [decode, encode, opcodeMap, OpcodeRow.selects, codeRi, fieldRi]
  all_goals simp [decode, encode, opcodeMap, OpcodeRow.selects]

/-- Fields and operands read by a row make an instruction that has an encoding, with the word they were read from. -/
theorem encode_cmd_of_decode {c : Command} {i : Instr} (h : decode c = .ok i) :
    i.wellFormed = true ∧ (encode i).cmd = c.cmd := by
  obtain ⟨row, hmem, hsel, hread⟩ := decode_ok_iff.mp h
  have hw := c.cmd.isLt
  simp only [opcodeMap, List.mem_cons, List.not_mem_nil, or_false] at hmem
  rcases hmem with rfl | rfl | rfl | rfl | rfl | rfl | hmatrd | hchan | hrnew | hrproc | rfl | rfl | rfl
  case inr.inr.inr.inr.inr.inr.inl =>
    subst hmatrd
    simp only [OpcodeRow.selects, beq_iff_eq, and_matrdMask_iff] at hsel
    simp only [readMatrd] at hread
    split at hread
    case isFalse => cases hread
    case isTrue hqo =>
      cases hread
      refine ⟨rfl, BitVec.eq_of_toNat_eq ?_⟩
      simp only [encode, fieldAx, fieldPb, getLsbD_eq_decide, decide_eq_true_eq, fieldQo_eq]
      split <;> split <;> simp [codeAx, codePb, Nat.shiftLeft_eq] <;> omega
  case inr.inr.inr.inr.inr.inr.inr.inl =>
    subst hchan
    simp only [OpcodeRow.selects, beq_iff_eq, and_chanMask_iff] at hsel
    cases hread
    have hch : fieldCh c.cmd ≤ 255 := by rw [fieldCh_eq]; omega
    refine ⟨decide_eq_true hch, BitVec.eq_of_toNat_eq ?_⟩
    rw [toNat_encode_chan hch, fieldCh_eq]
    omega
  case inr.inr.inr.inr.inr.inr.inr.inr.inl =>
    subst hrnew
    obtain ⟨hlow, hhigh⟩ := (and_rampMask_iff (p := 0x30) (n := 0x30) rfl (by decide)).mp (beq_iff_eq.mp hsel)
    cases hread
    refine ⟨rfl, BitVec.eq_of_toNat_eq ?_⟩
    simp only [encode, fieldRi, getLsbD_eq_decide, decide_eq_true_eq]
    split <;> simp [codeRi] <;> omega
  case inr.inr.inr.inr.inr.inr.inr.inr.inr.inl =>
    subst hrproc
    obtain ⟨hlow, hhigh⟩ := (and_rampMask_iff (p := 0x31) (n := 0x31) rfl (by decide)).mp (beq_iff_eq.mp hsel)
    cases hread
    refine ⟨rfl, BitVec.eq_of_toNat_eq ?_⟩
    simp only [encode, fieldRi, getLsbD_eq_decide, decide_eq_true_eq]
    split <;> simp [codeRi] <;> omega
  all_goals
    simp only [OpcodeRow.selects, beq_iff_eq, and_fullMask] at hsel
    cases hread
    exact ⟨rfl, hsel.symm⟩

/-- Settles O2. -/
theorem encodingKeepsTheDecodedWord : Obligations.EncodingKeepsTheDecodedWord := by
  intro c i h
  obtain ⟨hwf, hcmd⟩ := encode_cmd_of_decode h
  exact ⟨hwf, hcmd, decodeReadsBackEveryEncoding i hwf⟩

theorem readMatrd_isOk_iff {c : Command} : (∃ i, readMatrd c = .ok i) ↔ fieldQo c.cmd < 3 := by
  unfold readMatrd
  split <;> simp [*]

/-- The opcodes whose format opens no field of the command word (R74, R78). -/
def fixedOpcodes : List Nat := [0x00, 0x01, 0x02, 0x03, 0x10, 0x11, 0x40, 0x50, 0x51]

/-- The command words of the opcode map as numbers: the fixed ones, then MATRD, CHAN, RNEW and RPROC (R78). -/
def acceptedWord (w : Nat) : Prop :=
  w ∈ fixedOpcodes ∨ (w % 2 ^ 17 = 0x12 ∧ w / 2 ^ 21 = 0 ∧ w / 2 ^ 19 % 2 ^ 2 < 3) ∨
    (w % 2 ^ 8 = 0x20 ∧ w / 2 ^ 16 = 0) ∨ (w % 2 ^ 16 = 0x30 ∧ w / 2 ^ 17 = 0) ∨ (w % 2 ^ 16 = 0x31 ∧ w / 2 ^ 17 = 0)

theorem decode_isOk_iff {c : Command} : (∃ i, decode c = .ok i) ↔ acceptedWord c.cmd.toNat := by
  have hfixed {w : Word} : w.toNat ∈ fixedOpcodes ↔
      w = 0x00 ∨ w = 0x01 ∨ w = 0x02 ∨ w = 0x03 ∨ w = 0x10 ∨ w = 0x11 ∨ w = 0x40 ∨ w = 0x50 ∨ w = 0x51 := by
    simp [fixedOpcodes, ← BitVec.toNat_inj]
  simp only [decode_ok_iff, opcodeMap, List.mem_cons, List.not_mem_nil, or_false, or_and_right, exists_or,
    exists_eq_left, OpcodeRow.selects, beq_iff_eq, and_fullMask, and_matrdMask_iff, and_chanMask_iff,
    and_rampMask_iff (p := 0x30) (n := 0x30) rfl (by decide), and_rampMask_iff (p := 0x31) (n := 0x31) rfl (by decide),
    exists_and_left, Except.ok.injEq, exists_eq', and_true, readMatrd_isOk_iff, acceptedWord, hfixed, fieldQo_eq,
    or_assoc, and_assoc]
  rw [iff_eq_eq]
  ac_rfl

/-- The four items of R75 on the word as a number; the four bits of AX, PB and QO are one of its digits. -/
theorem illegalWord_eq_false_iff {w : Word} : Machine.illegalWord w = false ↔
    (w.toNat % 2 ^ 8 ∈ fixedOpcodes ∨ w.toNat % 2 ^ 8 = 0x12 ∨ w.toNat % 2 ^ 8 = 0x20 ∨ w.toNat % 2 ^ 8 = 0x30 ∨
        w.toNat % 2 ^ 8 = 0x31) ∧
      w.toNat / 2 ^ 21 = 0 ∧ (w.toNat % 2 ^ 8 ≠ 0x20 → w.toNat / 2 ^ 8 % 2 ^ 8 = 0) ∧
      (w.toNat % 2 ^ 8 ≠ 0x30 → w.toNat % 2 ^ 8 ≠ 0x31 → w.toNat / 2 ^ 16 % 2 = 0) ∧
      (w.toNat % 2 ^ 8 ≠ 0x12 → w.toNat / 2 ^ 17 % 2 ^ 4 = 0) ∧
      (w.toNat % 2 ^ 8 = 0x12 → w.toNat / 2 ^ 19 % 2 ^ 2 ≠ 3) := by
  have hm : w.toNat / 2 ^ 17 % 2 ^ 4 = 0 ↔
      w.toNat / 2 ^ 17 % 2 = 0 ∧ w.toNat / 2 ^ 18 % 2 = 0 ∧ w.toNat / 2 ^ 19 % 2 ^ 2 = 0 := by
    omega
  have hopc {n : Nat} :
      [0x00, 0x01, 0x02, 0x03, 0x10, 0x11, 0x12, 0x20, 0x30, 0x31, 0x40, 0x50, 0x51].contains n = true ↔
        n ∈ fixedOpcodes ∨ n = 0x12 ∨ n = 0x20 ∨ n = 0x30 ∨ n = 0x31 := by
    simp only [List.contains_iff_mem, fixedOpcodes, List.mem_cons, List.not_mem_nil, or_false, or_assoc]
    rw [iff_eq_eq]
    ac_rfl
  simp only [Machine.illegalWord, fieldOpc_eq, fieldCh_eq, fieldQo_eq, fieldRsv_eq, getLsbD_eq_decide, hm, hopc,
    Bool.or_eq_false_iff, Bool.not_eq_false', bne_eq_false_iff_eq, Bool.and_eq_false_imp, bne_iff_ne, beq_iff_eq,
    beq_eq_false_iff_ne, decide_eq_false_iff_not, Bool.and_eq_true,
    Nat.mod_two_not_eq_one, and_imp, and_assoc]

/-- The words the decoder accepts are those that no item of R75 names: a word whose fields outside OPC are 0 is its opcode. -/
theorem acceptedWord_iff {w : Word} : acceptedWord w.toNat ↔ Machine.illegalWord w = false := by
  have hw := w.isLt
  rw [illegalWord_eq_false_iff, acceptedWord]
  generalize w.toNat = w at *
  constructor
  · rintro (hopc | h | h | h | h)
    · have hle : w < 0x100 := by
        simp only [fixedOpcodes, List.mem_cons, List.not_mem_nil, or_false] at hopc
        omega
      rw [show w % 2 ^ 8 = w from Nat.mod_eq_of_lt hle]
      exact ⟨.inl hopc, by omega, by omega, by omega, by omega, by omega⟩
    all_goals exact ⟨by omega, by omega, by omega, by omega, by omega, by omega⟩
  · rintro ⟨hopc | h | h | h | h, hrsv, hch, hri, hm, hqo⟩
    · have hne {n : Nat} (hn : n ∉ fixedOpcodes) : w % 2 ^ 8 ≠ n := fun h => hn (h ▸ hopc)
      have hch := hch (hne (by decide))
      have hri := hri (hne (by decide)) (hne (by decide))
      have hm := hm (hne (by decide))
      have hfixed : w % 2 ^ 8 = w := by omega
      exact .inl (hfixed ▸ hopc)
    all_goals omega

/-- Settles O3. -/
theorem decodingRejectsExactlyTheIllegalWords : Obligations.DecodingRejectsExactlyTheIllegalWords := by
  intro c
  have hok : (∃ i, decode c = .ok i) ↔ ¬ ∃ e, decode c = .error e := by
    cases decode c <;> simp
  rw [← not_iff_not, ← hok, decode_isOk_iff, acceptedWord_iff, Bool.not_eq_true]

/-- Settles O4. -/
theorem sampleWordsDecode : Obligations.SampleWordsDecode :=
  ⟨by decide, by decide, by decide, by decide, by decide, by decide⟩

end Sys2Proof
end

section
/-! PROOFS. Rounding to nearest, ties to even (00_scope.md R14). A rounding that stays finite is a number of at most 24 bits
times a power of two (`roundMag_shape`). Every magnitude is a multiple of that power or lies below the whole binade
(`pow_dvd_or_lt_unitsOfMag`), so among all magnitudes none is nearer than the nearest multiple. -/

namespace Sys2Proof.Machine

/-! ## Magnitudes -/

/-- Magnitudes up to Infinity's are ordered as what they stand for. -/
theorem unitsOfMag_le_iff {m m' : Nat} (hm : m ≤ infMag) (hm' : m' ≤ infMag) :
    unitsOfMag m ≤ unitsOfMag m' ↔ m ≤ m' := by
  have hle {a b : Nat} (ha : a ≤ infMag) (hb : b ≤ infMag) (h : unitsOfMag a ≤ unitsOfMag b) : a ≤ b := by
    have hmono := roundMag_mono (n := unitsOfMag a * 1) (n' := unitsOfMag b * 1) Nat.one_pos Nat.one_pos (by omega)
    rwa [roundMag_unitsOfMag Nat.one_pos ha, roundMag_unitsOfMag Nat.one_pos hb] at hmono
  refine ⟨hle hm hm', fun h => ?_⟩
  by_contra hlt
  have heq : m = m' := le_antisymm h (hle hm' hm (by omega))
  simp [heq] at hlt

theorem unitsOfMag_inj {m m' : Nat} (hm : m ≤ infMag) (hm' : m' ≤ infMag) (h : unitsOfMag m = unitsOfMag m') :
    m = m' :=
  le_antisymm ((unitsOfMag_le_iff hm hm').mp h.le) ((unitsOfMag_le_iff hm' hm).mp h.ge)

/-- What the magnitude with exponent `e` and significand `k` stands for. -/
theorem unitsOfMag_binade {e k : Nat} (hk : k ≤ 2 ^ 24) (hnormal : e = 0 ∨ 2 ^ 23 ≤ k) :
    unitsOfMag (e * 2 ^ 23 + k) = k * 2 ^ e := by
  rcases hnormal with rfl | hlow
  · simpa using unitsOfMag_of_le hk
  · rw [unitsOfMag_of_normal (by omega)]
    rcases Nat.lt_or_eq_of_le hk with hlt | rfl
    · have hmod : (e * 2 ^ 23 + k) % 2 ^ 23 = k - 2 ^ 23 := by omega
      have hdiv : (e * 2 ^ 23 + k) / 2 ^ 23 - 1 = e := by omega
      rw [hmod, hdiv, Nat.add_sub_cancel' hlow]
    · have hmod : (e * 2 ^ 23 + 2 ^ 24) % 2 ^ 23 = 0 := by omega
      have hdiv : (e * 2 ^ 23 + 2 ^ 24) / 2 ^ 23 - 1 = e + 1 := by omega
      rw [hmod, hdiv]
      ring

/-- A magnitude is a multiple of `2^e` units or lies below the binade of `2^(23 + e)`. -/
theorem pow_dvd_or_lt_unitsOfMag (m e : Nat) : 2 ^ e ∣ unitsOfMag m ∨ unitsOfMag m < 2 ^ (23 + e) := by
  by_cases hsub : m ≤ 2 ^ 23
  · rw [unitsOfMag_of_le (by omega)]
    rcases Nat.eq_zero_or_pos e with rfl | he
    · exact .inl (one_dvd m)
    · refine .inr (lt_of_le_of_lt hsub (Nat.pow_lt_pow_right (by decide) (by omega)))
  · rw [unitsOfMag_of_normal (by omega)]
    rcases Nat.lt_or_ge (m / 2 ^ 23 - 1) e with hlt | hge
    · refine .inr ?_
      have hpow : 2 ^ (m / 2 ^ 23 - 1 + 1) ≤ 2 ^ e := Nat.pow_le_pow_right (by decide) hlt
      have hmod : m % 2 ^ 23 < 2 ^ 23 := Nat.mod_lt _ (by decide)
      have hpos : 0 < 2 ^ (m / 2 ^ 23 - 1) := by positivity
      rw [pow_succ] at hpow
      rw [pow_add]
      nlinarith
    · exact .inl (Dvd.dvd.mul_left (pow_dvd_pow 2 hge) _)

/-! ## Rounding a fraction of units -/

/-- Equal fractions round alike. -/
theorem roundMag_congr {n d n' d' : Nat} (hd : 0 < d) (hd' : 0 < d') (h : n * d' = n' * d) :
    roundMag n d = roundMag n' d' :=
  le_antisymm (roundMag_mono hd hd' h.le) (roundMag_mono hd' hd h.ge)

/-- The exponent and the significand of a rounding, before it is cut off at Infinity. -/
theorem roundMag_shape (n : Nat) {d : Nat} (hd : 0 < d) :
    ∃ e k, roundMag n d = min infMag (e * 2 ^ 23 + k) ∧ k = nearestEven n (d * 2 ^ e) ∧ k ≤ 2 ^ 24 ∧
      (e = 0 ∨ 2 ^ 23 ≤ k ∧ 2 ^ (23 + e) * d ≤ n) ∧ n < 2 ^ (24 + e) * d := by
  have hbelow : n < 2 ^ (24 + (Nat.log2 (n / d) - 23)) * d := by
    rw [← Nat.div_lt_iff_lt_mul hd]
    rcases Nat.eq_zero_or_pos (n / d) with hzero | hpos
    · rw [hzero]; positivity
    · exact (Nat.log2_lt hpos.ne').mp (by omega)
  refine ⟨Nat.log2 (n / d) - 23, _, rfl, rfl, ?_, ?_, hbelow⟩
  · refine nearestEven_le (by positivity) ?_
    rw [pow_add] at hbelow
    nlinarith
  · rcases Nat.eq_zero_or_pos (Nat.log2 (n / d) - 23) with he | he
    · exact .inl he
    · refine .inr ?_
      have hne : n / d ≠ 0 := fun h => by simp [h] at he
      have habove : 2 ^ (23 + (Nat.log2 (n / d) - 23)) * d ≤ n :=
        (Nat.le_div_iff_mul_le hd).mp ((Nat.le_log2 hne).mp (by omega))
      refine ⟨le_nearestEven (by positivity) ?_, habove⟩
      rw [pow_add] at habove
      nlinarith

/-- An odd number of halves lies halfway between two whole numbers. -/
theorem two_mul_mod_of_odd_halves {n d k : Nat} (hd : 0 < d) (h : 2 * n = (2 * k + 1) * d) : 2 * (n % d) = d := by
  have hcop : Nat.Coprime 2 (2 * k + 1) := by simp
  have heven : 2 ∣ d := hcop.dvd_of_dvd_mul_left ⟨n, h.symm⟩
  obtain ⟨c, rfl⟩ := heven
  have hn : n = c + 2 * c * k := by nlinarith
  rw [hn, Nat.add_mul_mod_self_left, Nat.mod_eq_of_lt (by omega)]

theorem abs_nearestEven_sub_le (n : Nat) {d : Nat} (hd : 0 < d) : |(nearestEven n d : ℚ) - n / d| ≤ 1 / 2 := by
  have hdq : (0 : ℚ) < d := by exact_mod_cast hd
  obtain ⟨hlow, hhigh⟩ := nearestEven_near n hd
  have hlow' : 2 * (n : ℚ) ≤ 2 * (nearestEven n d * d) + d := by exact_mod_cast hlow
  have hhigh' : 2 * ((nearestEven n d : ℚ) * d) ≤ 2 * n + d := by exact_mod_cast hhigh
  rw [abs_le, sub_div' hdq.ne', le_div_iff₀ hdq, div_le_iff₀ hdq]
  constructor <;> linarith

/-- At distance one half `nearestEven` answers the even neighbour. -/
theorem nearestEven_even_of_tie {n d : Nat} (hd : 0 < d) (h : |(nearestEven n d : ℚ) - n / d| = 1 / 2) :
    nearestEven n d % 2 = 0 := by
  have hdq : (d : ℚ) ≠ 0 := by exact_mod_cast hd.ne'
  refine nearestEven_even ?_
  rcases eq_or_eq_neg_of_abs_eq h with h | h
  · have hnat : 2 * n + d = 2 * nearestEven n d * d := by
      field_simp at h
      have hq : 2 * (n : ℚ) + d = 2 * nearestEven n d * d := by linarith
      exact_mod_cast hq
    obtain ⟨k, hk⟩ : ∃ k, nearestEven n d = k + 1 := Nat.exists_eq_succ_of_ne_zero fun h0 => by
      rw [h0] at hnat; omega
    exact two_mul_mod_of_odd_halves (k := k) hd (by rw [hk] at hnat; linarith)
  · refine two_mul_mod_of_odd_halves (k := nearestEven n d) hd ?_
    field_simp at h
    have hq : 2 * (n : ℚ) = (2 * nearestEven n d + 1) * d := by linarith
    exact_mod_cast hq

/-- No whole number is nearer to a fraction than `nearestEven`, and where another is as near it answers the even one. -/
theorem nearestEven_nearest (n : Nat) {d : Nat} (hd : 0 < d) (j : ℤ) :
    |(nearestEven n d : ℚ) - n / d| ≤ |(j : ℚ) - n / d| ∧
      (|(nearestEven n d : ℚ) - n / d| = |(j : ℚ) - n / d| → j ≠ nearestEven n d → nearestEven n d % 2 = 0) := by
  have hnear := abs_nearestEven_sub_le n hd
  rcases eq_or_ne j (nearestEven n d) with rfl | hne
  · simp
  · have hone : (1 : ℚ) ≤ |(j : ℚ) - nearestEven n d| := by
      exact_mod_cast Int.one_le_abs (sub_ne_zero.mpr hne)
    have htri : |(j : ℚ) - nearestEven n d| ≤ |(j : ℚ) - n / d| + |(nearestEven n d : ℚ) - n / d| := by
      rw [abs_sub_comm (nearestEven n d : ℚ)]
      exact abs_sub_le ..
    exact ⟨by linarith, fun htie _ => nearestEven_even_of_tie hd (by linarith)⟩

/-- Among the multiples of 2^e the nearest one to a fraction is that of `nearestEven`. -/
theorem nearestEven_multiple_nearest (n : Nat) {d : Nat} (hd : 0 < d) (e : Nat) (j : ℤ) :
    |(nearestEven n (d * 2 ^ e) : ℚ) * 2 ^ e - n / d| ≤ |(j : ℚ) * 2 ^ e - n / d| ∧
      (|(nearestEven n (d * 2 ^ e) : ℚ) * 2 ^ e - n / d| = |(j : ℚ) * 2 ^ e - n / d| → j ≠ nearestEven n (d * 2 ^ e) →
        nearestEven n (d * 2 ^ e) % 2 = 0) := by
  have hpow : (0 : ℚ) < 2 ^ e := by positivity
  have hscale (i : ℤ) : |(i : ℚ) * 2 ^ e - n / d| = |(i : ℚ) - n / (d * 2 ^ e : ℕ)| * 2 ^ e := by
    rw [← abs_of_pos hpow, ← abs_mul, abs_of_pos hpow]
    push_cast
    field_simp
  obtain ⟨hnear, htie⟩ := nearestEven_nearest n (d := d * 2 ^ e) (by positivity) j
  have hself := hscale (nearestEven n (d * 2 ^ e))
  rw [Int.cast_natCast] at hself
  rw [hself, hscale j]
  exact ⟨mul_le_mul_of_nonneg_right hnear hpow.le, fun h => htie (mul_right_cancel₀ hpow.ne' h)⟩

/-- No magnitude, of either sign, is nearer to a fraction of units than a rounding that stays finite, and where another
is as near the rounding is even. -/
theorem roundMag_nearest {n d : Nat} (hd : 0 < d) (hfin : roundMag n d < infMag) {z : ℤ} {m : Nat}
    (hz : z.natAbs = unitsOfMag m) :
    |(unitsOfMag (roundMag n d) : ℚ) - n / d| ≤ |(z : ℚ) - n / d| ∧
      (|(unitsOfMag (roundMag n d) : ℚ) - n / d| = |(z : ℚ) - n / d| → z ≠ unitsOfMag (roundMag n d) →
        roundMag n d % 2 = 0) := by
  obtain ⟨e, k, hround, hk, hle, hnormal, -⟩ := roundMag_shape n hd
  have hround : roundMag n d = e * 2 ^ 23 + k := by omega
  rw [hround, unitsOfMag_binade hle (hnormal.imp_right And.left)]
  have hpow : (0 : ℚ) < 2 ^ e := by positivity
  have hmultiple (j : ℤ) := nearestEven_multiple_nearest n hd e j
  simp only [← hk] at hmultiple
  rw [Nat.cast_mul, Nat.cast_pow, Nat.cast_ofNat]
  rcases em (2 ^ e ∣ unitsOfMag m) with hdvd | hndvd
  · obtain ⟨j, rfl⟩ : ∃ j : ℤ, z = j * 2 ^ e := by
      obtain ⟨j, hj⟩ := Int.natAbs_dvd_natAbs.mp
        (show ((2 : ℤ) ^ e).natAbs ∣ z.natAbs by simpa [Int.natAbs_pow, hz] using hdvd)
      exact ⟨j, by rw [hj, mul_comm]⟩
    obtain ⟨hnear, htie⟩ := hmultiple j
    push_cast
    refine ⟨hnear, fun h hne => ?_⟩
    have := htie h fun hjk => hne (by rw [hjk])
    omega
  · have hlt := (pow_dvd_or_lt_unitsOfMag m e).resolve_left hndvd
    have he : e ≠ 0 := fun he => hndvd (by simp [he])
    obtain ⟨hlow, habove⟩ := hnormal.resolve_left he
    have hz' : z < 2 ^ (23 + e) := by
      have : z < ((2 ^ (23 + e) : ℕ) : ℤ) := by omega
      exact_mod_cast this
    have hzq : (z : ℚ) < 2 ^ 23 * 2 ^ e := by rw [← pow_add]; exact_mod_cast hz'
    have hq : (2 : ℚ) ^ 23 * 2 ^ e ≤ n / d := by
      rw [← pow_add, le_div_iff₀ (by exact_mod_cast hd)]
      exact_mod_cast habove
    have hstrict : |(k : ℚ) * 2 ^ e - n / d| < |(z : ℚ) - n / d| := by
      have hbinade := (hmultiple (2 ^ 23)).1
      rw [Int.cast_pow, Int.cast_ofNat] at hbinade
      rw [abs_of_nonpos (by linarith : (2 : ℚ) ^ 23 * 2 ^ e - n / d ≤ 0)] at hbinade
      rw [abs_of_neg (by linarith : (z : ℚ) - n / d < 0)]
      linarith
    exact ⟨hstrict.le, fun h => absurd h hstrict.ne⟩

/-! ## Overflow -/

/-- The first magnitude of units that rounds to Infinity: 2^128 - 2^103 (IEEE 754). -/
def overflowUnits : Nat := (2 ^ 25 - 1) * 2 ^ 252

theorem roundMag_lt_infMag_iff {n d : Nat} (hd : 0 < d) : roundMag n d < infMag ↔ n < overflowUnits * d := by
  constructor
  · intro h
    by_contra hge
    have hthreshold : roundMag overflowUnits 1 = infMag := by decide +kernel
    have hmono := roundMag_mono (n := overflowUnits) (n' := n) Nat.one_pos hd (by omega)
    omega
  · intro h
    obtain ⟨e, k, hround, hk, hle, hnormal, -⟩ := roundMag_shape n hd
    have hexp : e ≤ 253 := by
      rcases hnormal with rfl | ⟨-, habove⟩
      · omega
      · by_contra hgt
        have hpow : 2 ^ 25 * 2 ^ 252 ≤ 2 ^ (23 + e) := by
          rw [show 23 + e = 25 + (e - 2) by omega, pow_add]
          exact Nat.mul_le_mul_left _ (Nat.pow_le_pow_right (by decide) (by omega))
        have hbelow : 2 ^ (23 + e) * d < overflowUnits * d := by omega
        have := Nat.lt_of_mul_lt_mul_right hbelow
        unfold overflowUnits at this
        omega
    unfold infMag at hround ⊢
    rcases Nat.lt_or_eq_of_le hexp with hlt | rfl
    · omega
    · have hfar := (nearestEven_near n (d := d * 2 ^ 253) (by positivity)).2
      rw [← hk] at hfar
      have hklt : k < 2 ^ 24 := by
        unfold overflowUnits at h
        by_contra hkge
        have hprod : 2 ^ 24 * (d * 2 ^ 253) ≤ k * (d * 2 ^ 253) := Nat.mul_le_mul_right _ (by omega)
        omega
      omega

end Sys2Proof.Machine
end

section
/-! PROOFS. The numeric primitives on values (00_scope.md section 5). `RNE` of a rational number has the value `rnd`, a monotone
and odd function that keeps every value binary32 holds; on finite operands each operation has the value of `rnd` of its
exact result. -/

namespace Sys2Proof.Machine

/-! ## The value of a word -/

theorem natAbs_units (x : F) : (units x).natAbs = unitsOfMag (mag x) := by
  unfold units; split <;> simp

theorem isFinite_iff {x : F} : isFinite x = true ↔ mag x < infMag := decide_eq_true_iff

theorem mag_le_of_isFinite {x : F} (h : isFinite x = true) : mag x ≤ infMag := (isFinite_iff.mp h).le

@[simp] theorem isFinite_fneg (x : F) : isFinite (fneg x) = isFinite x := by simp [isFinite]
@[simp] theorem isInf_fneg (x : F) : isInf (fneg x) = isInf x := by simp [isInf]
@[simp] theorem isNaN_fneg (x : F) : isNaN (fneg x) = isNaN x := by simp [isNaN]
@[simp] theorem isZero_fneg (x : F) : isZero (fneg x) = isZero x := by simp [isZero]
@[simp] theorem valueOf_fneg (x : F) : valueOf (fneg x) = -valueOf x := by simp [valueOf, neg_div]

theorem unitsOfMag_eq_zero_iff {m : Nat} (hm : m ≤ infMag) : unitsOfMag m = 0 ↔ m = 0 := by
  refine ⟨fun h => unitsOfMag_inj hm (Nat.zero_le _) (by simpa using h), fun h => by simp [h]⟩

theorem isZero_iff_units {x : F} (h : isFinite x = true) : isZero x = true ↔ units x = 0 := by
  rw [← Int.natAbs_eq_zero, natAbs_units, unitsOfMag_eq_zero_iff (mag_le_of_isFinite h)]
  exact decide_eq_true_iff

theorem valueOf_eq_zero_iff_units (x : F) : valueOf x = 0 ↔ units x = 0 := by
  simp [valueOf]

theorem isZero_iff_valueOf {x : F} (h : isFinite x = true) : isZero x = true ↔ valueOf x = 0 := by
  rw [isZero_iff_units h, valueOf_eq_zero_iff_units]

theorem valueOf_pack {neg : Bool} {m : Nat} (h : m < 2 ^ 31) :
    valueOf (pack neg m) = (if neg then -1 else 1) * (unitsOfMag m / 2 ^ 149) := by
  rw [valueOf, units_pack h]
  cases neg <;> simp [neg_div]

theorem units_nonpos_of_isNeg {x : F} (h : isNeg x = true) : units x ≤ 0 := by simp [units, h]

/-- A finite word is its value, but for the sign of a zero. -/
theorem eq_of_units_eq {x y : F} (hx : isFinite x = true) (hy : isFinite y = true) (h : units x = units y)
    (h0 : units x ≠ 0) : x = y := by
  rw [← rneUnits_units hx h0, h, rneUnits_units hy (h ▸ h0)]

theorem valueOf_inj_units {x y : F} : valueOf x = valueOf y ↔ units x = units y := by
  simp [valueOf, div_left_inj']

/-! ## RNE of a rational number -/

/-- The magnitude bits of RNE of a rational number. -/
def rneMag (r : ℚ) : Nat := roundMag (r.num.natAbs * 2 ^ 149) r.den

theorem rneRat_eq_pack (r : ℚ) : rneRat r = pack (decide (r < 0)) (rneMag r) := rfl

theorem rneMag_lt (r : ℚ) : rneMag r < 2 ^ 31 := roundMag_lt ..

theorem rneMag_le (r : ℚ) : rneMag r ≤ infMag := roundMag_le ..

/-- The number of units of an exact result, as the fraction that is rounded. -/
theorem abs_mul_units (r : ℚ) : |r| * 2 ^ 149 = ((r.num.natAbs * 2 ^ 149 : ℕ) : ℚ) / r.den := by
  have h := Rat.num_div_den |r|
  rw [Rat.num_abs_eq_abs_num, Rat.den_abs_eq_den] at h
  rw [← h, Nat.cast_mul, Nat.cast_natAbs]
  push_cast
  ring

theorem rneMag_eq_roundMag {r : ℚ} {n d : Nat} (hd : 0 < d) (h : |r| * 2 ^ 149 = n / d) :
    rneMag r = roundMag n d := by
  refine roundMag_congr r.pos hd ?_
  rw [abs_mul_units, div_eq_div_iff (by exact_mod_cast r.pos.ne') (by exact_mod_cast hd.ne')] at h
  exact_mod_cast h

theorem rneMag_neg (r : ℚ) : rneMag (-r) = rneMag r := by simp [rneMag]

theorem rneMag_mono {r r' : ℚ} (h : |r| ≤ |r'|) : rneMag r ≤ rneMag r' := by
  refine roundMag_mono r.pos r'.pos ?_
  have h' := mul_le_mul_of_nonneg_right h (by positivity : (0 : ℚ) ≤ 2 ^ 149)
  rw [abs_mul_units, abs_mul_units, div_le_div_iff₀ (by exact_mod_cast r.pos) (by exact_mod_cast r'.pos)] at h'
  exact_mod_cast h'

theorem rneMag_zero : rneMag 0 = 0 := by simp [rneMag]

/-- The value of RNE of a rational number. -/
def rnd (r : ℚ) : ℚ := valueOf (rneRat r)

theorem rnd_eq (r : ℚ) : rnd r = (if r < 0 then -1 else 1) * (unitsOfMag (rneMag r) / 2 ^ 149) := by
  rw [rnd, rneRat_eq_pack, valueOf_pack (rneMag_lt r)]
  simp

@[simp] theorem rnd_zero : rnd 0 = 0 := by simp [rnd_eq, rneMag_zero]

theorem rnd_of_nonneg {r : ℚ} (h : 0 ≤ r) : rnd r = unitsOfMag (rneMag r) / 2 ^ 149 := by
  simp [rnd_eq, h.not_gt]

theorem rnd_neg (r : ℚ) : rnd (-r) = -rnd r := by
  rcases lt_trichotomy r 0 with h | rfl | h
  · rw [rnd_eq, rnd_eq, rneMag_neg]
    simp [h, h.le]
  · simp
  · rw [rnd_eq, rnd_eq, rneMag_neg]
    simp [h, h.le]

theorem rnd_nonneg {r : ℚ} (h : 0 ≤ r) : 0 ≤ rnd r := by rw [rnd_of_nonneg h]; positivity

theorem rnd_mono {r r' : ℚ} (h : r ≤ r') : rnd r ≤ rnd r' := by
  have hpos {a b : ℚ} (ha : 0 ≤ a) (hab : a ≤ b) : rnd a ≤ rnd b := by
    rw [rnd_of_nonneg ha, rnd_of_nonneg (ha.trans hab)]
    have hmag := (unitsOfMag_le_iff (rneMag_le a) (rneMag_le b)).mpr
      (rneMag_mono (by rwa [abs_of_nonneg ha, abs_of_nonneg (ha.trans hab)]))
    gcongr
  rcases le_total 0 r with hr | hr
  · exact hpos hr h
  · rcases le_total 0 r' with hr' | hr'
    · have hneg := rnd_nonneg (neg_nonneg.mpr hr)
      have := rnd_nonneg hr'
      rw [rnd_neg] at hneg
      linarith
    · have := hpos (neg_nonneg.mpr hr') (neg_le_neg h)
      rw [rnd_neg, rnd_neg] at this
      linarith

/-- The least magnitude of a rational number that rounds to Infinity (IEEE 754). -/
theorem isFinite_rneRat_iff {r : ℚ} : isFinite (rneRat r) = true ↔ |r| < 2 ^ 128 - 2 ^ 103 := by
  rw [rneRat_eq_pack, isFinite_pack (rneMag_lt r), decide_eq_true_iff, rneMag, roundMag_lt_infMag_iff r.pos]
  have hunits : (overflowUnits : ℚ) = (2 ^ 128 - 2 ^ 103) * 2 ^ 149 := by norm_num [overflowUnits]
  rw [← mul_lt_mul_iff_left₀ (by positivity : (0 : ℚ) < 2 ^ 149), abs_mul_units, ← hunits,
    div_lt_iff₀ (by exact_mod_cast r.pos)]
  norm_cast

/-- No value with a magnitude that binary32 has is nearer to a rational number than its finite RNE, and where another is
as near the lowest bit of RNE is 0. -/
theorem rnd_nearest {r : ℚ} (hfin : isFinite (rneRat r) = true) {z : ℤ} {m : Nat} (hz : z.natAbs = unitsOfMag m) :
    |rnd r - r| ≤ |(z : ℚ) / 2 ^ 149 - r| ∧
      (|rnd r - r| = |(z : ℚ) / 2 ^ 149 - r| → (z : ℚ) / 2 ^ 149 ≠ rnd r → rneMag r % 2 = 0) := by
  have hmag : roundMag (r.num.natAbs * 2 ^ 149) r.den < infMag := by
    rwa [rneRat_eq_pack, isFinite_pack (rneMag_lt r), decide_eq_true_iff] at hfin
  have hpos : (0 : ℚ) < 2 ^ 149 := by positivity
  have hscale (a b : ℚ) : |a / 2 ^ 149 - b| = |a - b * 2 ^ 149| / 2 ^ 149 := by
    rw [← abs_of_pos hpos, ← abs_div, abs_of_pos hpos]
    field_simp
  have habs := abs_mul_units r
  rcases le_or_gt 0 r with hr | hr
  · obtain ⟨hnear, htie⟩ := roundMag_nearest r.pos hmag hz
    rw [abs_of_nonneg hr] at habs
    rw [← habs] at hnear htie
    rw [rnd_of_nonneg hr, hscale, hscale, div_le_div_iff_of_pos_right hpos, div_left_inj' hpos.ne']
    exact ⟨hnear, fun h hne => htie h fun heq => hne (by rw [heq]; rfl)⟩
  · obtain ⟨hnear, htie⟩ := roundMag_nearest r.pos hmag (z := -z) (by rwa [Int.natAbs_neg])
    rw [abs_of_neg hr] at habs
    rw [← habs] at hnear htie
    have hflip (a : ℚ) : |a - r * 2 ^ 149| = |-a - -r * 2 ^ 149| := by
      rw [← abs_neg]
      ring_nf
    have hrnd : rnd r = -(unitsOfMag (rneMag r) : ℚ) / 2 ^ 149 := by rw [rnd_eq, if_pos hr]; ring
    rw [hrnd, hscale, hscale, div_le_div_iff_of_pos_right hpos, div_left_inj' hpos.ne', hflip, hflip z, neg_neg]
    rw [Int.cast_neg] at hnear htie
    refine ⟨hnear, fun h hne => htie h fun heq => hne ?_⟩
    have hz' : (z : ℚ) = -unitsOfMag (rneMag r) := by
      have : (z : ℤ) = -unitsOfMag (rneMag r) := by rw [rneMag, ← heq, neg_neg]
      exact_mod_cast this
    rw [hz']

theorem getLsbD_zero_pack {neg : Bool} {m : Nat} (h : m % 2 = 0) : (pack neg m).getLsbD 0 = false := by
  rw [getLsbD_eq_decide, pack, BitVec.toNat_ofNat, decide_eq_false_iff_not]
  cases neg <;> simp <;> omega

/-- Settles O5. -/
theorem roundingIsNearestTiesToEven : Obligations.RoundingIsNearestTiesToEven := by
  intro r
  refine ⟨isFinite_rneRat_iff, fun hinf => ?_, fun hfin v _ => ?_⟩
  · have hmag : rneMag r = infMag := by
      rw [rneRat_eq_pack, isFinite_pack (rneMag_lt r), decide_eq_false_iff_not] at hinf
      exact le_antisymm (rneMag_le r) (not_lt.mp hinf)
    rw [rneRat_eq_pack, hmag]
  · obtain ⟨hnear, htie⟩ := rnd_nearest hfin (natAbs_units v)
    exact ⟨hnear, fun h hne => getLsbD_zero_pack (htie h hne)⟩

/-- A finite value is its own rounding. -/
theorem rnd_valueOf {x : F} (h : isFinite x = true) : rnd (valueOf x) = valueOf x := by
  have hfin : isFinite (rneRat (valueOf x)) = true := by
    have habs : |valueOf x| * 2 ^ 149 = (unitsOfMag (mag x) : ℚ) / (1 : ℕ) := by
      rw [valueOf, abs_div, ← natAbs_units, Nat.cast_natAbs]
      simp
    have hround := roundMag_unitsOfMag (d := 1) Nat.one_pos (mag_le_of_isFinite h)
    rw [Nat.mul_one] at hround
    rw [rneRat_eq_pack, isFinite_pack (rneMag_lt _), rneMag_eq_roundMag Nat.one_pos habs, hround]
    exact h
  have hnear := (rnd_nearest hfin (natAbs_units x)).1
  rw [show (units x : ℚ) / 2 ^ 149 = valueOf x from rfl, sub_self, abs_zero] at hnear
  exact sub_eq_zero.mp (abs_nonpos_iff.mp hnear)

/-- A rounding that is not zero is the RNE of its exact value. -/
theorem rneSigned_eq_rneRat {neg : Bool} {n d : Nat} {r : ℚ} (hd : 0 < d) (hr : r ≠ 0)
    (h : r = (if neg then -1 else 1) * (n / d / 2 ^ 149)) : rneSigned neg n d = rneRat r := by
  have hnonneg : (0 : ℚ) ≤ n / d / 2 ^ 149 := by positivity
  have hsign : decide (r < 0) = neg := by
    cases neg
    · simp only [Bool.false_eq_true, if_false, one_mul] at h
      exact decide_eq_false (by rw [h]; exact hnonneg.not_gt)
    · simp only [if_true, neg_one_mul] at h
      exact decide_eq_true (lt_of_le_of_ne (by rw [h]; exact neg_nonpos.mpr hnonneg) hr)
  have habs : |r| * 2 ^ 149 = n / d := by
    rw [h, abs_mul, abs_of_nonneg hnonneg]
    cases neg <;> simp
  rw [rneSigned, rneRat_eq_pack, hsign, rneMag_eq_roundMag hd habs]

theorem rneUnits_eq_rneRat (k : ℤ) : rneUnits k = rneRat (k / 2 ^ 149) := by
  rcases eq_or_ne k 0 with rfl | hk
  · simp [rneUnits, rneSigned, rneRat_eq_pack, rneMag_zero]
  · refine rneSigned_eq_rneRat Nat.one_pos (by simpa using hk) ?_
    rcases lt_or_ge k 0 with h | h
    · simp [h, Nat.cast_natAbs, abs_of_neg h, neg_div]
    · simp [h.not_gt, Nat.cast_natAbs, abs_of_nonneg h]

/-! ## The operations on finite operands -/

theorem isNeg_ne_of_units_add_eq_zero {a b : F} (h : units a + units b = 0) (h0 : units a ≠ 0) :
    (isNeg a && isNeg b) = false := by
  cases ha : isNeg a
  · rfl
  · cases hb : isNeg b
    · rfl
    · have := units_nonpos_of_isNeg ha
      have := units_nonpos_of_isNeg hb
      omega

theorem fadd_of_isFinite {a b : F} (ha : isFinite a = true) (hb : isFinite b = true) :
    fadd a b = if valueOf a + valueOf b = 0 then pack (isNeg a && isNeg b) 0
      else rneRat (valueOf a + valueOf b) := by
  have hsum : valueOf a + valueOf b = ((units a + units b : ℤ) : ℚ) / 2 ^ 149 := by
    simp [valueOf, add_div]
  have hzero : valueOf a + valueOf b = 0 ↔ units a + units b = 0 := by
    rw [hsum, div_eq_zero_iff]
    norm_cast
    simp
  simp only [fadd, isNaN_of_isFinite ha, isNaN_of_isFinite hb, isInf_of_isFinite ha, isInf_of_isFinite hb,
    Bool.or_self, Bool.false_eq_true, if_false, Bool.and_eq_true, isZero_iff_units ha, isZero_iff_units hb, hzero]
  by_cases hboth : units a = 0 ∧ units b = 0
  · simp [hboth]
  · rw [if_neg hboth]
    split
    · next h =>
      have h0 : units a ≠ 0 := fun h0 => hboth ⟨h0, by omega⟩
      rw [h, isNeg_ne_of_units_add_eq_zero h h0]
      simp [rneUnits, rneSigned]
    · rw [rneUnits_eq_rneRat, hsum]

theorem fsub_of_isFinite {a b : F} (ha : isFinite a = true) (hb : isFinite b = true) :
    fsub a b = if valueOf a - valueOf b = 0 then pack (isNeg a && !isNeg b) 0
      else rneRat (valueOf a - valueOf b) := by
  rw [fsub, fadd_of_isFinite ha (by simpa using hb)]
  simp [sub_eq_add_neg]

/-- The sign and the magnitude of a value. -/
theorem valueOf_eq_sign_mul (x : F) : valueOf x = (if isNeg x then -1 else 1) * (unitsOfMag (mag x) / 2 ^ 149) := by
  unfold valueOf units
  cases isNeg x <;> simp [neg_div]

theorem sign_mul_sign (a b : F) :
    (if (isNeg a != isNeg b) then -1 else 1 : ℚ) = (if isNeg a then -1 else 1) * (if isNeg b then -1 else 1) := by
  cases isNeg a <;> cases isNeg b <;> simp

theorem fmul_of_isFinite {a b : F} (ha : isFinite a = true) (hb : isFinite b = true) :
    fmul a b = if valueOf a * valueOf b = 0 then pack (isNeg a != isNeg b) 0
      else rneRat (valueOf a * valueOf b) := by
  simp only [fmul, isNaN_of_isFinite ha, isNaN_of_isFinite hb, isInf_of_isFinite ha, isInf_of_isFinite hb,
    Bool.or_self, Bool.false_eq_true, if_false]
  split
  · next h =>
    have hmag : unitsOfMag (mag a) * unitsOfMag (mag b) = 0 := by
      rw [mul_eq_zero, valueOf_eq_zero_iff_units, valueOf_eq_zero_iff_units, ← Int.natAbs_eq_zero,
        ← Int.natAbs_eq_zero (a := units b), natAbs_units, natAbs_units] at h
      exact mul_eq_zero.mpr h
    rw [hmag, rneSigned, roundMag_zero]
  · next h =>
    refine rneSigned_eq_rneRat (by positivity) h ?_
    rw [sign_mul_sign, valueOf_eq_sign_mul a, valueOf_eq_sign_mul b]
    push_cast
    ring

theorem fdiv_of_isFinite_eq {a b : F} (ha : isFinite a = true) (hb : isFinite b = true) (h0 : valueOf b ≠ 0) :
    fdiv a b = if valueOf a = 0 then pack (isNeg a != isNeg b) 0 else rneRat (valueOf a / valueOf b) := by
  have hz : isZero b = false := by
    rw [← Bool.not_eq_true, isZero_iff_valueOf hb]
    exact h0
  have hpos : 0 < unitsOfMag (mag b) := by
    rw [← natAbs_units, Int.natAbs_pos]
    exact fun h => h0 ((valueOf_eq_zero_iff_units b).mpr h)
  rw [fdiv_of_isFinite ha hb hz]
  split
  · next h =>
    rw [valueOf_eq_zero_iff_units, ← Int.natAbs_eq_zero, natAbs_units] at h
    rw [h, Nat.zero_mul, rneSigned, roundMag_zero]
  · next h =>
    refine rneSigned_eq_rneRat hpos (div_ne_zero h h0) ?_
    have hb0 : (unitsOfMag (mag b) : ℚ) ≠ 0 := by exact_mod_cast hpos.ne'
    have hp : (2 : ℚ) ^ 149 ≠ 0 := by positivity
    rw [sign_mul_sign, valueOf_eq_sign_mul a, valueOf_eq_sign_mul b]
    rw [Nat.cast_mul, Nat.cast_pow, Nat.cast_ofNat]
    generalize (2 : ℚ) ^ 149 = p at *
    cases isNeg a <;> cases isNeg b <;> simp only [Bool.false_eq_true, if_false, if_true] <;> field_simp

/-! ## Infinities and NaN -/

theorem isNaN_of_isInf {x : F} (h : isInf x = true) : isNaN x = false := by
  simp only [isInf, isNaN, decide_eq_true_eq, decide_eq_false_iff_not] at *; omega

theorem isZero_of_isInf {x : F} (h : isInf x = true) : isZero x = false := by
  simp only [isInf, isZero, decide_eq_true_eq, decide_eq_false_iff_not] at *
  rw [h]
  decide

theorem pack_of_isInf {x : F} (h : isInf x = true) : pack (isNeg x) infMag = x := by
  simp only [isInf, decide_eq_true_eq] at h
  rw [← h, pack_isNeg_mag]

/-- Every word is finite, an Infinity or a NaN. -/
theorem word_trichotomy (x : F) : isFinite x = true ∨ isInf x = true ∨ isNaN x = true := by
  simp only [isFinite, isInf, isNaN, decide_eq_true_eq]
  omega

theorem isNaN_pack {neg : Bool} {m : Nat} (h : m ≤ infMag) : isNaN (pack neg m) = false := by
  have hlt : m < 2 ^ 31 := by unfold infMag at h; omega
  rw [isNaN, mag_pack hlt, decide_eq_false_iff_not]
  omega

theorem isNaN_rneSigned (neg : Bool) (n d : Nat) : isNaN (rneSigned neg n d) = false := isNaN_pack (roundMag_le n d)

/-- Settles O6. -/
theorem arithmeticRoundsTheExactResultOnce : Obligations.ArithmeticRoundsTheExactResultOnce := by
  refine fun a b => ⟨fun ha hb => ⟨fadd_of_isFinite ha hb, fsub_of_isFinite ha hb, fmul_of_isFinite ha hb, ?_⟩,
    fun ha hb => ?_, fun ha hb => ?_⟩
  · by_cases hb0 : valueOf b = 0
    · have hz := (isZero_iff_valueOf hb).mpr hb0
      simp [fdiv, isNaN_of_isFinite ha, isNaN_of_isFinite hb, isInf_of_isFinite ha, isInf_of_isFinite hb, hz, hb0,
        isZero_iff_valueOf ha, canonicalNaN, infMag]
    · rw [if_neg hb0, fdiv_of_isFinite_eq ha hb hb0]
  · have hna := isNaN_of_isInf ha
    have hnb := isNaN_of_isFinite hb
    have hib := isInf_of_isFinite hb
    have hinf := pack_of_isInf ha
    have hneg : fneg a = pack (!isNeg a) infMag := by rw [← pack_of_isInf (x := fneg a) (by simpa), isNeg_fneg]
    have hxor : (isNeg b != isNeg a) = (isNeg a != isNeg b) := bne_comm
    simp [fadd, fsub, fmul, fdiv, ha, hna, hnb, hib, isZero_of_isInf ha, isZero_iff_valueOf hb, canonicalNaN,
      infMag, hxor]
    simpa [infMag] using hneg
  · have hna := isNaN_of_isInf ha
    have hnb := isNaN_of_isInf hb
    simp [fadd, fsub, fmul, fdiv, ha, hb, hna, hnb, isZero_of_isInf ha, isZero_of_isInf hb, canonicalNaN, infMag]

/-- What each operation answers is the canonical NaN or no NaN. -/
theorem fadd_eq_canonicalNaN_or (a b : F) : fadd a b = canonicalNaN ∨ isNaN (fadd a b) = false := by
  unfold fadd
  split
  · exact .inl rfl
  · split
    · next hinf =>
      split
      · exact .inl rfl
      · exact .inr (isNaN_of_isInf hinf)
    · split
      · next hinf => exact .inr (isNaN_of_isInf hinf)
      · split
        · exact .inr (isNaN_pack (Nat.zero_le _))
        · exact .inr (isNaN_rneSigned ..)

theorem fmul_eq_canonicalNaN_or (a b : F) : fmul a b = canonicalNaN ∨ isNaN (fmul a b) = false := by
  simp only [fmul]
  split
  · exact .inl rfl
  · split
    · split
      · exact .inl rfl
      · exact .inr (isNaN_pack le_rfl)
    · exact .inr (isNaN_rneSigned ..)

theorem fdiv_eq_canonicalNaN_or (a b : F) : fdiv a b = canonicalNaN ∨ isNaN (fdiv a b) = false := by
  simp only [fdiv]
  split
  · exact .inl rfl
  · split
    · split
      · exact .inl rfl
      · exact .inr (isNaN_pack le_rfl)
    · split
      · exact .inr (isNaN_pack (Nat.zero_le _))
      · split
        · split
          · exact .inl rfl
          · exact .inr (isNaN_pack le_rfl)
        · exact .inr (isNaN_rneSigned ..)

/-- Settles O7. -/
theorem everyNaNResultIsCanonical : Obligations.EveryNaNResultIsCanonical := by
  intro a b op hop
  have hcanonical {x : F} (h : x = canonicalNaN ∨ isNaN x = false) (hnan : isNaN x = true) : x = canonicalNaN :=
    h.resolve_right (by simp [hnan])
  simp only [List.mem_cons, List.not_mem_nil, or_false] at hop
  rcases hop with rfl | rfl | rfl | rfl
  · exact ⟨fun h => by rcases h with h | h <;> simp [fadd, h], hcanonical (fadd_eq_canonicalNaN_or a b)⟩
  · exact ⟨fun h => by rcases h with h | h <;> simp [fsub, fadd, h], hcanonical (fadd_eq_canonicalNaN_or a (fneg b))⟩
  · exact ⟨fun h => by rcases h with h | h <;> simp [fmul, h], hcanonical (fmul_eq_canonicalNaN_or a b)⟩
  · exact ⟨fun h => by rcases h with h | h <;> simp [fdiv, h], hcanonical (fdiv_eq_canonicalNaN_or a b)⟩

/-! ## The change test -/

theorem fneq_of_isFinite {a b : F} (ha : isFinite a = true) (hb : isFinite b = true) :
    fneq a b = true ↔ valueOf a ≠ valueOf b := by
  rw [ne_eq, valueOf_inj_units]
  simp only [fneq, isNaN_of_isFinite ha, isNaN_of_isFinite hb, Bool.or_self, Bool.false_eq_true, if_false,
    Bool.and_eq_true, isZero_iff_units ha, isZero_iff_units hb]
  by_cases h0 : units a = 0
  · by_cases hb0 : units b = 0
    · simp [h0, hb0]
    · have hab : a ≠ b := fun h => hb0 (h ▸ h0)
      simp [h0, hb0, Ne.symm hb0, hab]
  · have hab : units a = units b ↔ a = b := ⟨fun h => eq_of_units_eq ha hb h h0, fun h => by rw [h]⟩
    simp [h0, hab]

/-- Settles O8. -/
theorem changeTestIsQuietNotEqual : Obligations.ChangeTestIsQuietNotEqual := by
  refine fun a b => ⟨fun h => by rcases h with h | h <;> simp [fneq, h], fneq_of_isFinite, fun ha hb => ?_⟩
  simp [fneq, isNaN_of_isInf ha, hb, isZero_of_isInf ha, eq_comm (a := a)]

/-- Settles O9. -/
theorem integersUpTo24BitsAreExact : Obligations.IntegersUpTo24BitsAreExact := by
  intro n hn
  obtain ⟨hneg, hfin, hunits⟩ := toF_exact hn
  refine ⟨hfin, ?_, ?_⟩
  · rw [valueOf_of_not_isNeg hneg, hunits, Nat.cast_mul, Nat.cast_pow, Nat.cast_ofNat,
      mul_div_cancel_right₀ _ (by positivity)]
  · rw [floorF, hunits, Nat.mul_div_cancel _ (by positivity)]

end Sys2Proof.Machine
end

section
/-! PROOFS. What the operations do to values and bounds: the value of each finite result is `rnd` of the exact one, a result
is finite below the threshold of overflow, and a multiple of a power of two with at most 24 bits is kept. -/

namespace Sys2Proof.Machine

/-! ## Values of results -/

@[simp] theorem valueOf_zero : valueOf 0#32 = 0 := by decide +kernel

theorem valueOf_pack_zero (neg : Bool) : valueOf (pack neg 0) = 0 := by
  rw [valueOf_pack (by decide)]
  simp

theorem isFinite_pack_zero (neg : Bool) : isFinite (pack neg 0) = true := by
  rw [isFinite_pack (by decide)]
  decide

theorem valueOf_fadd {a b : F} (ha : isFinite a = true) (hb : isFinite b = true) :
    valueOf (fadd a b) = rnd (valueOf a + valueOf b) := by
  rw [fadd_of_isFinite ha hb]
  split
  · next h => rw [valueOf_pack_zero, h, rnd_zero]
  · rfl

theorem valueOf_fsub {a b : F} (ha : isFinite a = true) (hb : isFinite b = true) :
    valueOf (fsub a b) = rnd (valueOf a - valueOf b) := by
  rw [fsub, valueOf_fadd ha (by simpa using hb), valueOf_fneg, sub_eq_add_neg]

theorem valueOf_fmul {a b : F} (ha : isFinite a = true) (hb : isFinite b = true) :
    valueOf (fmul a b) = rnd (valueOf a * valueOf b) := by
  rw [fmul_of_isFinite ha hb]
  split
  · next h => rw [valueOf_pack_zero, h, rnd_zero]
  · rfl

theorem valueOf_fdiv {a b : F} (ha : isFinite a = true) (hb : isFinite b = true) (h0 : valueOf b ≠ 0) :
    valueOf (fdiv a b) = rnd (valueOf a / valueOf b) := by
  rw [fdiv_of_isFinite_eq ha hb h0]
  split
  · next h => rw [valueOf_pack_zero, h, zero_div, rnd_zero]
  · rfl

/-! ## Finite results -/

/-- The least magnitude that rounds to Infinity. -/
theorem isFinite_rneRat {r : ℚ} (h : |r| < 2 ^ 128 - 2 ^ 103) : isFinite (rneRat r) = true := isFinite_rneRat_iff.mpr h

/-- Far below the threshold. -/
theorem lt_overflow {r : ℚ} (h : |r| ≤ 2 ^ 24) : |r| < 2 ^ 128 - 2 ^ 103 := h.trans_lt (by norm_num)

theorem isFinite_fadd {a b : F} (ha : isFinite a = true) (hb : isFinite b = true)
    (h : |valueOf a + valueOf b| < 2 ^ 128 - 2 ^ 103) : isFinite (fadd a b) = true := by
  rw [fadd_of_isFinite ha hb]
  split
  · exact isFinite_pack_zero _
  · exact isFinite_rneRat h

theorem isFinite_fsub {a b : F} (ha : isFinite a = true) (hb : isFinite b = true)
    (h : |valueOf a - valueOf b| < 2 ^ 128 - 2 ^ 103) : isFinite (fsub a b) = true :=
  isFinite_fadd ha (by simpa using hb) (by simpa [sub_eq_add_neg] using h)

theorem isFinite_fmul {a b : F} (ha : isFinite a = true) (hb : isFinite b = true)
    (h : |valueOf a * valueOf b| < 2 ^ 128 - 2 ^ 103) : isFinite (fmul a b) = true := by
  rw [fmul_of_isFinite ha hb]
  split
  · exact isFinite_pack_zero _
  · exact isFinite_rneRat h

theorem isFinite_fdiv {a b : F} (ha : isFinite a = true) (hb : isFinite b = true) (h0 : valueOf b ≠ 0)
    (h : |valueOf a / valueOf b| < 2 ^ 128 - 2 ^ 103) : isFinite (fdiv a b) = true := by
  rw [fdiv_of_isFinite_eq ha hb h0]
  split
  · exact isFinite_pack_zero _
  · exact isFinite_rneRat h

/-- The largest finite magnitude is 2^128 - 2^104. -/
theorem abs_valueOf_le {x : F} (h : isFinite x = true) : |valueOf x| ≤ 2 ^ 128 - 2 ^ 104 := by
  have hmag : mag x ≤ infMag - 1 := by have := isFinite_iff.mp h; omega
  have hle := (unitsOfMag_le_iff (mag_le_of_isFinite h) (Nat.sub_le ..)).mpr hmag
  have htop : ((unitsOfMag (infMag - 1) : ℕ) : ℚ) = (2 ^ 128 - 2 ^ 104) * 2 ^ 149 := by
    rw [show unitsOfMag (infMag - 1) = (2 ^ 24 - 1) * 2 ^ 253 by decide +kernel]
    norm_num
  rw [valueOf, abs_div, abs_of_pos (by positivity : (0 : ℚ) < 2 ^ 149), div_le_iff₀ (by positivity), ← htop,
    ← Int.cast_abs, Int.abs_eq_natAbs, natAbs_units]
  exact_mod_cast hle

/-- A finite operand of a product is needed for a finite product. -/
theorem isFinite_of_isFinite_fmul {a b : F} (h : isFinite (fmul a b) = true) : isFinite a = true := by
  rcases word_trichotomy a with ha | ha | ha
  · exact ha
  · rcases Bool.eq_false_or_eq_true (isNaN b) with hb | hb
    · simp [fmul, hb, isNaN_of_isInf ha] at h
      exact absurd h (by decide)
    · simp only [fmul, hb, isNaN_of_isInf ha, ha, isZero_of_isInf ha] at h
      cases hz : isZero b
      · simp [hz, isFinite_pack (m := infMag) (by decide)] at h
      · simp [hz] at h
        exact absurd h (by decide)
  · simp [fmul, ha] at h
    exact absurd h (by decide)

/-! ## Exact results -/

theorem valueOf_toF {n : Nat} (hn : n ≤ 2 ^ 24) : valueOf (toF n) = n := (integersUpTo24BitsAreExact n hn).2.1

theorem isFinite_toF {n : Nat} (hn : n ≤ 2 ^ 24) : isFinite (toF n) = true := (toF_exact hn).2.1

/-- A whole number of at most 24 bits times a power of two is a value. The bound on the exponent keeps it below Infinity. -/
theorem exists_word_of_dyadic {k : ℤ} {j : Nat} (hk : k.natAbs ≤ 2 ^ 24) (hj : j ≤ 252) :
    ∃ x : F, isFinite x = true ∧ units x = k * 2 ^ j := by
  obtain ⟨hneg, hfin, hunits⟩ := rneSigned_of_dyadic (j := j) (d := 1) (decide (k < 0)) hk hj Nat.one_pos
  refine ⟨_, hfin, ?_⟩
  rw [units, hneg, hunits]
  push_cast
  rcases lt_or_ge k 0 with h | h
  · simp [h, abs_of_neg h]
  · simp [h.not_gt, abs_of_nonneg h]

theorem rnd_of_dyadic {k : ℤ} {j : Nat} (hk : k.natAbs ≤ 2 ^ 24) (hj : j ≤ 252) :
    rnd (((k * 2 ^ j : ℤ) : ℚ) / 2 ^ 149) = ((k * 2 ^ j : ℤ) : ℚ) / 2 ^ 149 := by
  obtain ⟨x, hfin, hunits⟩ := exists_word_of_dyadic hk hj
  have hx := rnd_valueOf hfin
  rwa [valueOf, hunits] at hx

theorem rnd_natCast {n : Nat} (hn : n ≤ 2 ^ 24) : rnd n = n := by
  have h := rnd_valueOf (isFinite_toF hn)
  rwa [valueOf_toF hn] at h

/-- A whole number of at most 24 bits bounds a rounding if it bounds the exact result. -/
theorem abs_rnd_le {r : ℚ} {n : Nat} (hn : n ≤ 2 ^ 24) (h : |r| ≤ n) : |rnd r| ≤ n := by
  obtain ⟨hlow, hhigh⟩ := abs_le.mp h
  have hmono := rnd_mono hlow
  rw [rnd_neg, rnd_natCast hn] at hmono
  have hmono' := rnd_mono hhigh
  rw [rnd_natCast hn] at hmono'
  exact abs_le.mpr ⟨hmono, hmono'⟩

end Sys2Proof.Machine
end

section
/-! PROOFS. The wrap of Lookup (40_wavetable.md sections 3 and 6). In units of 2^-149 the real remainder is a remainder of
integers; that of a non-negative value again has at most 24 bits, and so has the fraction of any value
(`mod_of_dyadic`). -/

namespace Sys2Proof.Machine

/-- What a magnitude stands for is a number of at most 24 bits times a power of two. -/
theorem unitsOfMag_dyadic (m : Nat) : ∃ k e, unitsOfMag m = k * 2 ^ e ∧ k ≤ 2 ^ 24 := by
  by_cases hsub : m ≤ 2 ^ 24
  · exact ⟨m, 0, by rw [unitsOfMag_of_le hsub, pow_zero, mul_one], hsub⟩
  · exact ⟨_, _, unitsOfMag_of_normal (by omega), by omega⟩

/-- The remainder of a value by a length of at most 24 bits is a value: either it is a whole number below the length, or it
has the power of two of the value and no more bits. -/
theorem mod_of_dyadic {m len : Nat} (hlen : 1 ≤ len) (hle : len ≤ 2 ^ 24) :
    ∃ k e, unitsOfMag m % (len * 2 ^ 149) = k * 2 ^ e ∧ k ≤ 2 ^ 24 ∧ e ≤ 149 := by
  obtain ⟨k, e, hunits, hk⟩ := unitsOfMag_dyadic m
  rw [hunits]
  rcases Nat.le_total e 149 with he | he
  · refine ⟨k % (len * 2 ^ (149 - e)), e, ?_, (Nat.mod_le ..).trans hk, he⟩
    rw [← Nat.mul_mod_mul_right, mul_assoc, ← pow_add, Nat.sub_add_cancel he]
  · refine ⟨k * 2 ^ (e - 149) % len, 149, ?_, (Nat.mod_lt _ hlen).le.trans hle, le_rfl⟩
    rw [← Nat.mul_mod_mul_right, mul_assoc, ← pow_add, Nat.sub_add_cancel he]

theorem units_eq_of_not_isNeg {x : F} (h : isNeg x = false) : units x = (unitsOfMag (mag x) : ℕ) := by simp [units, h]

/-! ## The remainder -/

/-- The remainder of the wrap, in units of 2^-149. -/
def wrapUnits (len : Nat) (x : F) : ℤ := units x % ((len : ℤ) * 2 ^ 149)

theorem wrap_eq (len : Nat) (x : F) :
    wrap len x = if rneUnits (wrapUnits len x) = toF len then 0 else rneUnits (wrapUnits len x) := rfl

/-- The remainder of integers is the real remainder. -/
theorem wrapUnits_div (len : Nat) (x : F) :
    (wrapUnits len x : ℚ) / 2 ^ 149 = valueOf x - len * ⌊valueOf x / len⌋ := by
  have hfloor : ⌊valueOf x / len⌋ = units x / ((len : ℤ) * 2 ^ 149) := by
    have hdiv : valueOf x / len = ((units x : ℤ) : ℚ) / ((len * 2 ^ 149 : ℕ) : ℚ) := by
      rw [valueOf, div_div, mul_comm, Nat.cast_mul, Nat.cast_pow, Nat.cast_ofNat]
    rw [hdiv, Rat.floor_intCast_div_natCast, Nat.cast_mul, Nat.cast_pow, Nat.cast_ofNat]
  rw [hfloor, wrapUnits, Int.emod_def, valueOf, Int.cast_sub, Int.cast_mul, Int.cast_mul, Int.cast_pow, sub_div]
  simp only [Int.cast_natCast, Int.cast_ofNat]
  field_simp

/-- Settles O14. -/
theorem wrapRoundsTheExactRemainderOnce : Obligations.WrapRoundsTheExactRemainderOnce := by
  intro len x _ _
  rw [← wrapUnits_div, ← rneUnits_eq_rneRat]
  exact wrap_eq len x

section
variable {len : Nat} {x : F} (hlen : 1 ≤ len) (hle : len ≤ 2 ^ 22)

include hlen in
theorem wrapUnits_nonneg : 0 ≤ wrapUnits len x := Int.emod_nonneg _ (by positivity)

include hlen in
theorem wrapUnits_div_lt : (wrapUnits len x : ℚ) / 2 ^ 149 < len := by
  rw [div_lt_iff₀ (by positivity)]
  exact_mod_cast Int.emod_lt_of_pos (units x) (by positivity : 0 < (len : ℤ) * 2 ^ 149)

include hlen hle in
theorem isFinite_rneUnits_wrapUnits : isFinite (rneUnits (wrapUnits len x)) = true := by
  have hnonneg : 0 ≤ (wrapUnits len x : ℚ) / 2 ^ 149 := by have := wrapUnits_nonneg (x := x) hlen; positivity
  have hlt := wrapUnits_div_lt (x := x) hlen
  have hle' : (len : ℚ) ≤ 2 ^ 24 := by exact_mod_cast hle.trans (by decide)
  rw [rneUnits_eq_rneRat]
  exact isFinite_rneRat (lt_overflow (by rw [abs_of_nonneg hnonneg]; linarith))

include hlen in
theorem isNeg_rneUnits_wrapUnits : isNeg (rneUnits (wrapUnits len x)) = false := by
  rw [rneUnits, rneSigned, isNeg_pack (roundMag_lt ..)]
  exact decide_eq_false (wrapUnits_nonneg hlen).not_gt

include hlen hle in
/-- The rounded remainder is at most L, and L only as the word `toF L`. -/
theorem valueOf_rneUnits_wrapUnits_lt (hne : rneUnits (wrapUnits len x) ≠ toF len) :
    valueOf (rneUnits (wrapUnits len x)) < len := by
  have hlen24 : len ≤ 2 ^ 24 := hle.trans (by decide)
  have hround : valueOf (rneUnits (wrapUnits len x)) ≤ len := by
    have hmono := rnd_mono (wrapUnits_div_lt (x := x) hlen).le
    rwa [rnd_natCast hlen24, rnd, ← rneUnits_eq_rneRat] at hmono
  refine lt_of_le_of_ne hround fun heq => hne ?_
  rw [← valueOf_toF hlen24, valueOf_inj_units] at heq
  refine eq_of_units_eq (isFinite_rneUnits_wrapUnits hlen hle) (isFinite_toF hlen24) heq fun h0 => ?_
  rw [h0, eq_comm, ← valueOf_eq_zero_iff_units, valueOf_toF hlen24] at heq
  exact absurd heq (by positivity)

include hlen hle in
/-- Section 6, item 1: the reduced value is finite, of positive sign and below L. -/
theorem wrap_range (x : F) :
    isFinite (wrap len x) = true ∧ isNeg (wrap len x) = false ∧ valueOf (wrap len x) < len := by
  rw [wrap_eq]
  split
  · refine ⟨by decide, by decide, ?_⟩
    simpa using (by omega : 0 < len)
  · next hne =>
    exact ⟨isFinite_rneUnits_wrapUnits hlen hle, isNeg_rneUnits_wrapUnits hlen,
      valueOf_rneUnits_wrapUnits_lt hlen hle hne⟩

end

/-! ## Index and fraction -/

/-- The index of a non-negative value is its floor (R14). -/
theorem floorF_eq_floor {w : F} (h : isNeg w = false) : (floorF w : ℤ) = ⌊valueOf w⌋ := by
  have hdiv : valueOf w = ((unitsOfMag (mag w) : ℤ) : ℚ) / ((2 ^ 149 : ℕ) : ℚ) := by
    rw [valueOf_of_not_isNeg h]
    push_cast
    rfl
  rw [hdiv, Rat.floor_intCast_div_natCast, floorF]
  norm_cast

/-- A non-negative value less its floor, in units of 2^-149. -/
theorem valueOf_sub_floorF {w : F} (h : isNeg w = false) :
    valueOf w - floorF w = ((unitsOfMag (mag w) % 2 ^ 149 : ℕ) : ℚ) / 2 ^ 149 := by
  have hmod := Nat.div_add_mod (unitsOfMag (mag w)) (2 ^ 149)
  rw [valueOf_of_not_isNeg h, floorF, sub_eq_iff_eq_add, div_add' _ _ _ (by positivity)]
  congr 1
  have : (unitsOfMag (mag w) : ℚ) =
      ((2 ^ 149 * (unitsOfMag (mag w) / 2 ^ 149) + unitsOfMag (mag w) % 2 ^ 149 : ℕ) : ℚ) := by rw [hmod]
  rw [this, Nat.cast_add, Nat.cast_mul, Nat.cast_pow, Nat.cast_ofNat]
  ring

/-- The fraction of a non-negative value whose floor has at most 24 bits is exact. -/
theorem fsub_toF_floorF {w : F} (hneg : isNeg w = false) (hfin : isFinite w = true) (hfloor : floorF w ≤ 2 ^ 24) :
    valueOf (fsub w (toF (floorF w))) = valueOf w - floorF w ∧ isFinite (fsub w (toF (floorF w))) = true ∧
      0 ≤ valueOf w - floorF w ∧ valueOf w - floorF w < 1 := by
  have hfrac := valueOf_sub_floorF hneg
  have hnonneg : 0 ≤ valueOf w - floorF w := by rw [hfrac]; positivity
  have hlt : valueOf w - floorF w < 1 := by
    rw [hfrac, div_lt_one (by positivity)]
    exact_mod_cast Nat.mod_lt _ (by positivity : 0 < 2 ^ 149)
  refine ⟨?_, ?_, hnonneg, hlt⟩
  · obtain ⟨k, e, hmod, hk, he⟩ := mod_of_dyadic (m := mag w) le_rfl (by decide : 1 ≤ 2 ^ 24)
    rw [one_mul] at hmod
    have hexact := rnd_of_dyadic (k := k) (j := e) hk (by omega)
    have hcast : ((k * 2 ^ e : ℕ) : ℚ) = ((k * 2 ^ e : ℤ) : ℚ) := by push_cast; rfl
    rw [valueOf_fsub hfin (isFinite_toF hfloor), valueOf_toF hfloor, hfrac, hmod, hcast]
    exact hexact
  · refine isFinite_fsub hfin (isFinite_toF hfloor) (lt_overflow ?_)
    rw [valueOf_toF hfloor, abs_of_nonneg hnonneg]
    exact hlt.le.trans (by norm_num)

/-- The index of the reduced value is below L (section 6, item 1). -/
theorem floorF_wrap_lt {len : Nat} (hlen : 1 ≤ len) (hle : len ≤ 2 ^ 22) (x : F) : floorF (wrap len x) < len := by
  obtain ⟨-, hneg, hlt⟩ := wrap_range hlen hle x
  have hfloor := floorF_eq_floor hneg
  have : ⌊valueOf (wrap len x)⌋ < len := Int.floor_lt.mpr (by exact_mod_cast hlt)
  omega

/-- Settles O15. -/
theorem wrapSplitsInsideTheTable : Obligations.WrapSplitsInsideTheTable := by
  intro len x hlen hle _
  obtain ⟨hfin, hneg, hlt⟩ := wrap_range hlen hle x
  have hindex := floorF_wrap_lt hlen hle x
  obtain ⟨hexact, hfrac, -, -⟩ := fsub_toF_floorF hneg hfin (by omega)
  exact ⟨hfin, hneg, hlt, floorF_eq_floor hneg, hindex, hexact, hfrac⟩

/-- Settles O16: the remainder of a non-negative value is a value, so rounding keeps it and it is not L. -/
theorem wrapIsExactOnNonNegativeArguments : Obligations.WrapIsExactOnNonNegativeArguments := by
  intro len x hlen hle _ hx
  have hunits : units x = unitsOfMag (mag x) := by
    have h : 0 ≤ units x := by
      rw [valueOf, le_div_iff₀ (by positivity), zero_mul] at hx
      exact_mod_cast hx
    rw [← natAbs_units, Int.natAbs_of_nonneg h]
  obtain ⟨k, e, hmod, hk, he⟩ := mod_of_dyadic (m := mag x) hlen (hle.trans (by decide))
  have hwrap : wrapUnits len x = k * 2 ^ e := by
    rw [wrapUnits, hunits]
    exact_mod_cast hmod
  have hexact : valueOf (rneUnits (wrapUnits len x)) = wrapUnits len x / 2 ^ 149 := by
    have h := rnd_of_dyadic (k := k) (j := e) hk (by omega)
    rwa [← hwrap, rnd, ← rneUnits_eq_rneRat] at h
  have hne : rneUnits (wrapUnits len x) ≠ toF len := fun h => by
    have hlt := wrapUnits_div_lt (x := x) hlen
    rw [← hexact, h, valueOf_toF (hle.trans (by decide))] at hlt
    exact lt_irrefl _ hlt
  rw [wrap_eq, if_neg hne, hexact, wrapUnits_div]

/-- The wrap sees an argument only through its remainder. -/
theorem wrap_congr {len : Nat} {x y : F} {k : ℤ} (h : valueOf y = valueOf x + k * len) : wrap len y = wrap len x := by
  have hunits : units y = units x + k * (len * 2 ^ 149) := by
    unfold valueOf at h
    field_simp at h
    have hq : (units y : ℚ) = units x + k * (len * 2 ^ 149) := by rw [h]; ring
    exact_mod_cast hq
  simp only [wrap, hunits, Int.add_mul_emod_self_right]

/-- Settles O17. -/
theorem lookupIsPeriodic : Obligations.LookupIsPeriodic := by
  intro s x y k _ hx hy h
  simp only [lookup, hx, hy, wrap_congr h]

end Sys2Proof.Machine
end

section
/-! PROOFS. The interpolation between two table words (40_wavetable.md section 6, item 7). Its one danger is that the rounded
difference exceeds the exact one; a rounding is inexact only from 2^24 units on, where the product with a fraction below 1
rounds to less than the rounded difference (`rnd_mul_lt`). -/

namespace Sys2Proof.Machine

/-- A finite fraction below 1 is at most 1 - 2^-24. -/
theorem valueOf_le_of_lt_one {f : F} (hf : isFinite f = true) (hlt : valueOf f < 1) : valueOf f ≤ 1 - 1 / 2 ^ 24 := by
  cases hneg : isNeg f
  case true =>
    have hle : valueOf f ≤ 0 :=
      div_nonpos_of_nonpos_of_nonneg (by exact_mod_cast units_nonpos_of_isNeg hneg) (by positivity)
    exact hle.trans (by norm_num)
  case false =>
    have hone : unitsOfMag 0x3F800000 = 2 ^ 149 := by decide +kernel
    have hpred : unitsOfMag 0x3F7FFFFF = (2 ^ 24 - 1) * 2 ^ 125 := by decide +kernel
    have hmag : mag f ≤ 0x3F7FFFFF := by
      by_contra hge
      have hle := (unitsOfMag_le_iff (by decide) (mag_le_of_isFinite hf)).mpr (by omega : 0x3F800000 ≤ mag f)
      rw [valueOf_of_not_isNeg hneg, div_lt_one (by positivity)] at hlt
      have hlt' : unitsOfMag (mag f) < 2 ^ 149 := by exact_mod_cast hlt
      omega
    have hle := (unitsOfMag_le_iff (mag_le_of_isFinite hf) (by decide)).mpr hmag
    rw [hpred] at hle
    have hle' : (unitsOfMag (mag f) : ℚ) ≤ (2 ^ 24 - 1) * 2 ^ 125 := by
      have h : (unitsOfMag (mag f) : ℚ) ≤ (((2 ^ 24 - 1) * 2 ^ 125 : ℕ) : ℚ) := Nat.cast_le.mpr hle
      norm_num at h ⊢
      exact h
    rw [valueOf_of_not_isNeg hneg, div_le_iff₀ (by positivity)]
    refine hle'.trans (le_of_eq (by norm_num))

/-- A normal value above the first binade, times a fraction of at most 1 - 2^-24, rounds to less than itself. -/
theorem rnd_mul_lt {f : ℚ} {k e : Nat} (hf0 : 0 ≤ f) (hf : f ≤ 1 - 1 / 2 ^ 24) (hlow : 2 ^ 23 ≤ k) (hhigh : k < 2 ^ 24)
    (he : e ≤ 251) : rnd (f * (k * 2 ^ (e + 1) / 2 ^ 149)) < k * 2 ^ (e + 1) / 2 ^ 149 := by
  have hu : (0 : ℚ) < 2 ^ e / 2 ^ 149 := by positivity
  have hdouble : (k : ℚ) * 2 ^ (e + 1) / 2 ^ 149 = k * (2 * (2 ^ e / 2 ^ 149)) := by rw [pow_succ]; ring
  have hexact {j : ℤ} (hj : j.natAbs ≤ 2 ^ 24) : rnd (j * (2 ^ e / 2 ^ 149)) = j * (2 ^ e / 2 ^ 149) := by
    have h := rnd_of_dyadic (j := e) hj (by omega)
    rw [Int.cast_mul, Int.cast_pow, Int.cast_ofNat, mul_div_assoc] at h
    exact h
  have hbound : (2 : ℚ) ^ e / 2 ^ 149 ≤ 2 ^ 102 := by
    have hpow : (2 : ℚ) ^ e ≤ 2 ^ 251 := pow_le_pow_right₀ (by norm_num) he
    rw [div_le_iff₀ (by positivity), ← pow_add]
    exact hpow
  have hhigh' : (k : ℚ) ≤ 2 ^ 24 := by exact_mod_cast hhigh.le
  rw [hdouble]
  generalize hU : (2 : ℚ) ^ e / 2 ^ 149 = u at *
  have hx : f * (k * (2 * u)) ≤ (1 - 1 / 2 ^ 24) * (k * (2 * u)) := mul_le_mul_of_nonneg_right hf (by positivity)
  rcases Nat.eq_or_lt_of_le hlow with hk | hk
  · have hmono := rnd_mono (hx.trans (le_of_eq (b := ((2 ^ 24 - 1 : ℤ) : ℚ) * u) (by rw [← hk]; push_cast; ring)))
    rw [hexact (by decide)] at hmono
    refine hmono.trans_lt ?_
    rw [← hk]
    push_cast
    linarith
  · by_contra hge
    have hk' : (2 : ℚ) ^ 23 + 1 ≤ k := by exact_mod_cast hk
    have hgap : f * (k * (2 * u)) < k * (2 * u) - u := by nlinarith
    have hfin : isFinite (rneRat (f * (k * (2 * u)))) = true := by
      refine isFinite_rneRat ?_
      rw [abs_of_nonneg (by positivity)]
      have : k * (2 * u) ≤ 2 ^ 24 * (2 * 2 ^ 102) := by gcongr
      norm_num at this ⊢
      linarith
    obtain ⟨y, -, hy⟩ := exists_word_of_dyadic (k := k - 1) (j := e + 1) (by omega) (by omega)
    have hnear := (rnd_nearest hfin (natAbs_units y)).1
    have hpred : (units y : ℚ) / 2 ^ 149 = k * (2 * u) - 2 * u := by
      rw [hy, ← hU]
      push_cast
      ring
    rw [hpred, abs_of_nonneg (by linarith)] at hnear
    rcases abs_cases (k * (2 * u) - 2 * u - f * (k * (2 * u))) with ⟨h, -⟩ | ⟨h, -⟩ <;> linarith

/-- A rounding that is not exact is a normal value above the first binade. -/
theorem rnd_normal_of_inexact {c : ℚ} {n : ℤ} (hc : c = n / 2 ^ 149) (hc0 : 0 ≤ c) (hc2 : c ≤ 2) (hne : rnd c ≠ c) :
    ∃ k e : Nat, rnd c = k * 2 ^ (e + 1) / 2 ^ 149 ∧ 2 ^ 23 ≤ k ∧ k < 2 ^ 24 ∧ e ≤ 251 := by
  have hn : 2 ^ 24 < n := by
    by_contra hle
    have hn0 : 0 ≤ n := by
      rw [hc, le_div_iff₀ (by positivity), zero_mul] at hc0
      exact_mod_cast hc0
    have hexact := rnd_of_dyadic (k := n) (j := 0) (by omega) (by omega)
    rw [pow_zero, mul_one, ← hc] at hexact
    exact hne hexact
  have hrnd := rnd_of_nonneg hc0
  have hlow : 2 ^ 24 ≤ rneMag c := by
    have hmono : rnd (((1 * 2 ^ 24 : ℤ) : ℚ) / 2 ^ 149) ≤ rnd c := by
      refine rnd_mono ?_
      rw [hc]
      gcongr
      exact_mod_cast hn.le
    rw [rnd_of_dyadic (by decide) (by decide), hrnd, div_le_div_iff_of_pos_right (by positivity)] at hmono
    by_contra hlt
    rw [unitsOfMag_of_le (by omega)] at hmono
    have : (2 ^ 24 : ℤ) ≤ rneMag c := by exact_mod_cast (by simpa using hmono : (16777216 : ℚ) ≤ rneMag c)
    omega
  have hhigh : rneMag c ≤ 0x40000000 := by
    have hmono := rneMag_mono (r := c) (r' := 2) (by rwa [abs_of_nonneg hc0, abs_of_pos two_pos])
    rwa [show rneMag 2 = 0x40000000 by decide +kernel] at hmono
  refine ⟨2 ^ 23 + rneMag c % 2 ^ 23, rneMag c / 2 ^ 23 - 2, ?_, by omega, by omega, by omega⟩
  rw [hrnd, unitsOfMag_of_normal (by omega), show rneMag c / 2 ^ 23 - 1 = rneMag c / 2 ^ 23 - 2 + 1 by omega,
    Nat.cast_mul, Nat.cast_pow, Nat.cast_ofNat]

/-- The rounded product of a fraction below 1 with a rounded difference of values never exceeds the exact difference. -/
theorem rnd_mul_rnd_sub_le {a b f : F} (hf : isFinite f = true) (hf0 : 0 ≤ valueOf f) (hf1 : valueOf f < 1)
    (hab : valueOf a ≤ valueOf b) (hle : valueOf b - valueOf a ≤ 2) :
    rnd (valueOf f * rnd (valueOf b - valueOf a)) ≤ valueOf b - valueOf a := by
  have hsub : 0 ≤ valueOf b - valueOf a := sub_nonneg.mpr hab
  have hdiff : valueOf b - valueOf a = ((units b - units a : ℤ) : ℚ) / 2 ^ 149 := by simp [valueOf, sub_div]
  generalize valueOf b - valueOf a = c at *
  have hidem {r : ℚ} (hr0 : 0 ≤ r) (hr2 : r ≤ 2) : rnd (rnd r) = rnd r :=
    rnd_valueOf (isFinite_rneRat (lt_overflow (by rw [abs_of_nonneg hr0]; exact hr2.trans (by norm_num))))
  have hd0 : 0 ≤ rnd c := rnd_nonneg hsub
  have hd2 : rnd c ≤ 2 := by simpa using (rnd_mono hle).trans_eq (rnd_natCast (n := 2) (by decide))
  have hprod : valueOf f * rnd c ≤ rnd c := mul_le_of_le_one_left hd0 hf1.le
  have hp0 : 0 ≤ valueOf f * rnd c := mul_nonneg hf0 hd0
  have hp : rnd (valueOf f * rnd c) ≤ rnd c := (rnd_mono hprod).trans_eq (hidem hsub hle)
  by_contra hlt
  have hlt : c < rnd (valueOf f * rnd c) := not_le.mp hlt
  have hge : rnd c ≤ rnd (valueOf f * rnd c) := (rnd_mono hlt.le).trans_eq (hidem hp0 (hprod.trans hd2))
  obtain ⟨k, e, heq, hlow, hhigh, he⟩ := rnd_normal_of_inexact hdiff hsub hle (hlt.trans_le hp).ne'
  rw [heq] at hge
  exact absurd hge (rnd_mul_lt hf0 (valueOf_le_of_lt_one hf hf1) hlow hhigh he).not_ge

/-! ## The statement -/

theorem inUnit_iff {x : F} : inUnit x = true ↔ isFinite x = true ∧ |valueOf x| ≤ 1 := by
  have hone : unitsOfMag 0x3F800000 = 2 ^ 149 := by decide +kernel
  have habs : |valueOf x| = unitsOfMag (mag x) / 2 ^ 149 := by
    rw [valueOf, abs_div, ← natAbs_units, Nat.cast_natAbs, Int.cast_abs, abs_of_pos (by positivity : (0 : ℚ) < 2 ^ 149)]
  rw [inUnit, decide_eq_true_iff, isFinite_iff, habs, div_le_one (by positivity)]
  constructor
  · intro h
    have hle : mag x ≤ infMag := h.trans (by decide)
    have := (unitsOfMag_le_iff hle (by decide)).mpr h
    rw [hone] at this
    exact ⟨lt_of_le_of_lt h (by decide), by exact_mod_cast this⟩
  · rintro ⟨hfin, h⟩
    refine (unitsOfMag_le_iff hfin.le (by decide)).mp ?_
    rw [hone]
    exact_mod_cast h

/-- The interpolation of values in [-1, 1] is finite, with the value of its three rounded operations. -/
theorem interpolate_value {a b f : F} (ha : inUnit a = true) (hb : inUnit b = true) (hf : isFinite f = true)
    (hf0 : 0 ≤ valueOf f) (hf1 : valueOf f < 1) :
    isFinite (interpolate a b f) = true ∧
      valueOf (interpolate a b f) = rnd (valueOf a + rnd (valueOf f * rnd (valueOf b - valueOf a))) := by
  obtain ⟨hafin, ha1⟩ := inUnit_iff.mp ha
  obtain ⟨hbfin, hb1⟩ := inUnit_iff.mp hb
  have hdiff : |valueOf b - valueOf a| ≤ (2 : ℕ) := (abs_sub _ _).trans (by push_cast; linarith)
  have hsub := isFinite_fsub hbfin hafin (lt_overflow (hdiff.trans (by norm_num)))
  have hrnd := abs_rnd_le (by decide) hdiff
  rw [← valueOf_fsub hbfin hafin] at hrnd
  have hmul : |valueOf f * valueOf (fsub b a)| ≤ (2 : ℕ) := by
    rw [abs_mul, abs_of_nonneg hf0]
    exact (mul_le_of_le_one_left (abs_nonneg _) hf1.le).trans hrnd
  have hfin := isFinite_fmul hf hsub (lt_overflow (hmul.trans (by norm_num)))
  have hprod := abs_rnd_le (by decide) hmul
  rw [← valueOf_fmul hf hsub] at hprod
  have hsum : |valueOf a + valueOf (fmul f (fsub b a))| ≤ 2 ^ 24 :=
    (abs_add_le _ _).trans ((add_le_add ha1 hprod).trans (by norm_num))
  exact ⟨isFinite_fadd hafin hfin (lt_overflow hsum),
    by rw [interpolate, valueOf_fadd hafin hfin, valueOf_fmul hf hsub, valueOf_fsub hbfin hafin]⟩

/-- The value of an interpolation from a lower to a higher sample lies between them. -/
theorem rnd_interpolate_between {a b f : F} (ha : inUnit a = true) (hb : inUnit b = true) (hf : isFinite f = true)
    (hf0 : 0 ≤ valueOf f) (hf1 : valueOf f < 1) (hab : valueOf a ≤ valueOf b) :
    valueOf a ≤ rnd (valueOf a + rnd (valueOf f * rnd (valueOf b - valueOf a))) ∧
      rnd (valueOf a + rnd (valueOf f * rnd (valueOf b - valueOf a))) ≤ valueOf b := by
  obtain ⟨hafin, ha1⟩ := inUnit_iff.mp ha
  obtain ⟨hbfin, hb1⟩ := inUnit_iff.mp hb
  have hdiff : valueOf b - valueOf a ≤ 2 := by
    have := (abs_le.mp ha1).1
    have := (abs_le.mp hb1).2
    linarith
  have hlow : 0 ≤ rnd (valueOf f * rnd (valueOf b - valueOf a)) :=
    rnd_nonneg (mul_nonneg hf0 (rnd_nonneg (sub_nonneg.mpr hab)))
  have hhigh := rnd_mul_rnd_sub_le hf hf0 hf1 hab hdiff
  constructor
  · have hmono := rnd_mono (le_add_of_nonneg_right (a := valueOf a) hlow)
    rwa [rnd_valueOf hafin] at hmono
  · have hmono := rnd_mono (le_sub_iff_add_le'.mp hhigh)
    rwa [rnd_valueOf hbfin] at hmono

/-- Settles O18: a falling interpolation is the rising one of the negated samples. -/
theorem interpolationStaysBetweenItsSamples : Obligations.InterpolationStaysBetweenItsSamples := by
  intro a b f ha hb hf hf0 hf1
  obtain ⟨hfin, hvalue⟩ := interpolate_value ha hb hf hf0 hf1
  rw [hvalue]
  refine ⟨hfin, ?_⟩
  rcases le_total (valueOf a) (valueOf b) with hab | hab
  · rw [min_eq_left hab, max_eq_right hab]
    exact rnd_interpolate_between ha hb hf hf0 hf1 hab
  · obtain ⟨hlow, hhigh⟩ := rnd_interpolate_between (a := fneg a) (b := fneg b) (f := f)
      (by simpa [inUnit] using ha) (by simpa [inUnit] using hb) hf hf0 hf1 (by simpa using hab)
    have hneg : rnd (valueOf (fneg a) + rnd (valueOf f * rnd (valueOf (fneg b) - valueOf (fneg a)))) =
        -rnd (valueOf a + rnd (valueOf f * rnd (valueOf b - valueOf a))) := by
      have hsub : valueOf (fneg b) - valueOf (fneg a) = -(valueOf b - valueOf a) := by simp; ring
      rw [hsub, rnd_neg, mul_neg, rnd_neg, valueOf_fneg, ← neg_add, rnd_neg]
    rw [hneg, valueOf_fneg] at hlow hhigh
    rw [min_eq_right hab, max_eq_left hab]
    exact ⟨by linarith, by linarith⟩

/-- The interpolation of two table words is again one in [-1, 1]. -/
theorem inUnit_interpolate {a b f : F} (ha : inUnit a = true) (hb : inUnit b = true) (hf : isFinite f = true)
    (hf0 : 0 ≤ valueOf f) (hf1 : valueOf f < 1) : inUnit (interpolate a b f) = true := by
  obtain ⟨hfin, hlow, hhigh⟩ := interpolationStaysBetweenItsSamples a b f ha hb hf hf0 hf1
  obtain ⟨-, ha1⟩ := inUnit_iff.mp ha
  obtain ⟨-, hb1⟩ := inUnit_iff.mp hb
  obtain ⟨hamin, hamax⟩ := abs_le.mp ha1
  obtain ⟨hbmin, hbmax⟩ := abs_le.mp hb1
  exact inUnit_iff.mpr ⟨hfin, abs_le.mpr ⟨(le_min hamin hbmin).trans hlow, hhigh.trans (max_le hamax hbmax)⟩⟩

end Sys2Proof.Machine
end

section
/-! PROOFS. The HarmonicEncoder (42_harmonic.md): CHAN answers the written weights, and these are finite: through the sixteen
sequences of primitives a whole number of at most 24 bits bounds every intermediate result. -/

namespace Sys2Proof.Machine

/-- Settles O30: the sixteen rows of R140 are the model's weights, literal for literal. -/
theorem chanMultipliesTheSampleByTheWeight : Obligations.ChanMultipliesTheSampleByTheWeight :=
  fun _ _ x hdir k => exec_chan_of_dir hdir k x

/-! ## Bounds -/

/-- A finite value of magnitude at most `n`. -/
structure AbsLe (x : F) (n : Nat) : Prop where
  finite : isFinite x = true
  abs_le : |valueOf x| ≤ n

namespace AbsLe

theorem of_inUnit {x : F} (h : inUnit x = true) : AbsLe x 1 := by
  obtain ⟨hfin, habs⟩ := inUnit_iff.mp h
  exact ⟨hfin, by simpa using habs⟩

theorem fmul {a b : F} {m n : Nat} (ha : AbsLe a m) (hb : AbsLe b n) (hmn : m * n ≤ 2 ^ 24) :
    AbsLe (fmul a b) (m * n) := by
  have habs : |valueOf a * valueOf b| ≤ (m * n : ℕ) := by
    rw [abs_mul, Nat.cast_mul]
    exact mul_le_mul ha.abs_le hb.abs_le (abs_nonneg _) (Nat.cast_nonneg m)
  have hle : ((m * n : ℕ) : ℚ) ≤ 2 ^ 24 := by exact_mod_cast hmn
  exact ⟨isFinite_fmul ha.finite hb.finite (lt_overflow (habs.trans hle)),
    by rw [valueOf_fmul ha.finite hb.finite]; exact abs_rnd_le hmn habs⟩

theorem fsub {a b : F} {m n : Nat} (ha : AbsLe a m) (hb : AbsLe b n) (hmn : m + n ≤ 2 ^ 24) :
    AbsLe (fsub a b) (m + n) := by
  have habs : |valueOf a - valueOf b| ≤ (m + n : ℕ) := by
    rw [Nat.cast_add]
    exact (abs_sub _ _).trans (add_le_add ha.abs_le hb.abs_le)
  have hle : ((m + n : ℕ) : ℚ) ≤ 2 ^ 24 := by exact_mod_cast hmn
  exact ⟨isFinite_fsub ha.finite hb.finite (lt_overflow (habs.trans hle)),
    by rw [valueOf_fsub ha.finite hb.finite]; exact abs_rnd_le hmn habs⟩

/-- Halving keeps a bound. -/
theorem half {a : F} {n : Nat} (ha : AbsLe a n) (hn : n ≤ 2 ^ 24) : AbsLe (fdiv a fTwo) n := by
  have htwo : valueOf fTwo = 2 := by decide +kernel
  have hfin : isFinite fTwo = true := by decide
  have h0 : valueOf fTwo ≠ 0 := by rw [htwo]; exact two_ne_zero
  have habs : |valueOf a / valueOf fTwo| ≤ n := by
    rw [htwo, abs_div, abs_two]
    linarith [ha.abs_le, abs_nonneg (valueOf a)]
  have hle : (n : ℚ) ≤ 2 ^ 24 := by exact_mod_cast hn
  exact ⟨isFinite_fdiv ha.finite hfin h0 (lt_overflow (habs.trans hle)),
    by rw [valueOf_fdiv ha.finite hfin h0]; exact abs_rnd_le hn habs⟩

theorem fOne : AbsLe fOne 1 := ⟨by decide, by decide +kernel⟩
theorem fThree : AbsLe fThree 3 := ⟨by decide, by decide +kernel⟩
theorem fFive : AbsLe fFive 5 := ⟨by decide, by decide +kernel⟩
theorem constW : AbsLe constW 1 := ⟨by decide, by decide +kernel⟩
theorem constL : AbsLe constL 1 := ⟨by decide, by decide +kernel⟩
theorem constN : AbsLe constN 3 := ⟨by decide, by decide +kernel⟩

end AbsLe

/-- Settles O32: channel by channel, a bound for each operation of the written sequence. -/
theorem weightsAreFinite : Obligations.WeightsAreFinite := by
  intro d k hd
  have ht (p q) : AbsLe (d.t.entry p q) 1 := .of_inUnit (hd.t_unit p q)
  have hp (p q) : AbsLe (d.p.entry p q) 1 := .of_inUnit (hd.p_unit p q)
  have hs2 := (hp .direct 0).fmul (hp .direct 0) (by decide)
  have hc2 := (hp .quarter 0).fmul (hp .quarter 0) (by decide)
  have hc3 := hc2.fmul (hp .quarter 0) (by decide)
  have hkk := (AbsLe.fFive.fmul hs2 (by decide)).fsub .fOne (by decide)
  fin_cases k
  · exact AbsLe.constW.finite
  · exact ((ht .quarter 0).fmul (hp .quarter 0) (by decide)).finite
  · exact ((ht .direct 0).fmul (hp .quarter 0) (by decide)).finite
  · exact (hp .direct 0).finite
  · exact (((AbsLe.fThree.fmul hs2 (by decide)).fsub .fOne (by decide)).half (by decide)).finite
  · exact ((ht .quarter 0).fmul (hp .direct 1) (by decide)).finite
  · exact ((ht .direct 0).fmul (hp .direct 1) (by decide)).finite
  · exact ((ht .quarter 1).fmul hc2 (by decide)).finite
  · exact ((ht .direct 1).fmul hc2 (by decide)).finite
  · have hdiff := (AbsLe.fFive.fmul hs2 (by decide)).fsub .fThree (by decide)
    exact (((hp .direct 0).fmul hdiff (by decide)).half (by decide)).finite
  · exact ((((ht .quarter 0).fmul hkk (by decide)).fmul (hp .quarter 0) (by decide)).fmul .constL (by decide)).finite
  · exact ((((ht .direct 0).fmul hkk (by decide)).fmul (hp .quarter 0) (by decide)).fmul .constL (by decide)).finite
  · exact ((((ht .quarter 1).fmul (hp .direct 0) (by decide)).fmul hc2 (by decide)).fmul .constN (by decide)).finite
  · exact ((((ht .direct 1).fmul (hp .direct 0) (by decide)).fmul hc2 (by decide)).fmul .constN (by decide)).finite
  · exact ((ht .quarter 2).fmul hc3 (by decide)).finite
  · exact ((ht .direct 2).fmul hc3 (by decide)).finite

end Sys2Proof.Machine
end

section
/-! PROOFS. Nearness to a real number. Which of two values is nearer to a point changes only at their midpoint, so a value
that is nearest to two rational numbers is nearest to every real number between them. -/

namespace Sys2Proof.Machine

/-- Of two points the left one is the nearer one exactly up to their midpoint. -/
theorem abs_sub_le_abs_sub_iff_of_lt {a b t : ℝ} (h : a < b) : |a - t| ≤ |b - t| ↔ 2 * t ≤ a + b := by
  rw [← sq_le_sq]
  constructor <;> intro hle <;> nlinarith

/-- The value to which two rational numbers round is nearest to every real number between them. -/
theorem nearest_of_between_rnd {r lo hi : ℚ} {y : ℝ} (hlofin : isFinite (rneRat lo) = true)
    (hhifin : isFinite (rneRat hi) = true) (hlo : rnd lo = r) (hhi : rnd hi = r) (hloy : (lo : ℝ) ≤ y) (hyhi : y ≤ hi)
    {v : F} (hv : isFinite v = true) : |(r : ℝ) - y| ≤ |((valueOf v : ℚ) : ℝ) - y| := by
  have hnear {t : ℚ} (hfin : isFinite (rneRat t) = true) (ht : rnd t = r) :
      |(r : ℝ) - t| ≤ |((valueOf v : ℚ) : ℝ) - t| := by
    have h := ((roundingIsNearestTiesToEven t).2.2 hfin v hv).1
    rw [← ht, rnd]
    exact_mod_cast h
  rcases lt_trichotomy (r : ℝ) (valueOf v : ℚ) with hlt | heq | hgt
  · have h := (abs_sub_le_abs_sub_iff_of_lt hlt).mp (hnear hhifin hhi)
    exact (abs_sub_le_abs_sub_iff_of_lt hlt).mpr (by linarith)
  · rw [heq]
  · have h := hnear hlofin hlo
    rw [← sq_le_sq] at h ⊢
    nlinarith

/-- A finite rounding that two rational numbers share is nearest to every real number between them. -/
theorem nearest_of_between {x : F} {lo hi : ℚ} {y : ℝ} (hx : isFinite x = true) (hlo : rneRat lo = x)
    (hhi : rneRat hi = x) (hloy : (lo : ℝ) ≤ y) (hyhi : y ≤ hi) {v : F} (hv : isFinite v = true) :
    |((valueOf x : ℚ) : ℝ) - y| ≤ |((valueOf v : ℚ) : ℝ) - y| :=
  nearest_of_between_rnd (by rwa [hlo]) (by rwa [hhi]) (congrArg valueOf hlo) (congrArg valueOf hhi) hloy hyhi hv

end Sys2Proof.Machine
end

section
/-! PROOFS. The weights in exact arithmetic (42_harmonic.md R143, 10_state.md section 6). Each form of A and E is a factor of A
of size at most 1 times a profile of E whose extreme value is 1. -/

namespace Sys2Proof.Machine

/-! ## The constants -/

theorem constW_nearest {v : F} (hv : isFinite v = true) :
    |((valueOf constW : ℚ) : ℝ) - 1 / √2| ≤ |((valueOf v : ℚ) : ℝ) - 1 / √2| := by
  have hsqrt : 1 / √2 = √(1 / 2) := by rw [one_div, one_div, Real.sqrt_inv]
  refine nearest_of_between (lo := 70710678 / 100000000) (hi := 70710679 / 100000000) (by decide) (by decide +kernel)
    (by decide +kernel) ?_ ?_ hv
  · rw [hsqrt]
    exact Real.le_sqrt_of_sq_le (by norm_num)
  · rw [hsqrt]
    exact Real.sqrt_le_iff.mpr (by norm_num)

theorem constL_nearest {v : F} (hv : isFinite v = true) :
    |((valueOf constL : ℚ) : ℝ) - √(945 / 1792)| ≤ |((valueOf v : ℚ) : ℝ) - √(945 / 1792)| := by
  refine nearest_of_between (lo := 72618437 / 100000000) (hi := 72618438 / 100000000) (by decide) (by decide +kernel)
    (by decide +kernel) ?_ ?_ hv
  · exact Real.le_sqrt_of_sq_le (by norm_num)
  · exact Real.sqrt_le_iff.mpr (by norm_num)

theorem constN_nearest {v : F} (hv : isFinite v = true) :
    |((valueOf constN : ℚ) : ℝ) - 1.5 * √3| ≤ |((valueOf v : ℚ) : ℝ) - 1.5 * √3| := by
  have hsqrt : 1.5 * √3 = √(27 / 4) := by
    rw [show (27 / 4 : ℝ) = 1.5 ^ 2 * 3 by norm_num, Real.sqrt_mul (by positivity), Real.sqrt_sq (by norm_num)]
  refine nearest_of_between (lo := 259807621 / 100000000) (hi := 259807622 / 100000000) (by decide) (by decide +kernel)
    (by decide +kernel) ?_ ?_ hv
  · rw [hsqrt]
    exact Real.le_sqrt_of_sq_le (by norm_num)
  · rw [hsqrt]
    exact Real.sqrt_le_iff.mpr (by norm_num)

/-! ## The profiles of E -/

theorem abs_profile_R_le {s : ℝ} (hs : |s| ≤ 1) : |(3 * s ^ 2 - 1) / 2| ≤ 1 := by
  have hsq : s ^ 2 ≤ 1 := (sq_le_one_iff_abs_le_one s).mpr hs
  rw [abs_le]
  constructor <;> nlinarith [sq_nonneg s]

theorem abs_profile_K_le {s : ℝ} (hs : |s| ≤ 1) : |s * (5 * s ^ 2 - 3) / 2| ≤ 1 := by
  have hsq : s ^ 2 ≤ 1 := (sq_le_one_iff_abs_le_one s).mpr hs
  rw [← sq_le_one_iff_abs_le_one]
  nlinarith [mul_nonneg (sq_nonneg s) (sub_nonneg.mpr hsq), mul_nonneg (sq_nonneg (s ^ 2)) (sub_nonneg.mpr hsq)]

/-- The extreme value of `c(5s² - 1)` on the circle is where c² = 4/15, with square 1792/945. -/
theorem abs_profile_L_le {s c : ℝ} (hsc : s ^ 2 + c ^ 2 = 1) : |√(945 / 1792) * c * (5 * s ^ 2 - 1)| ≤ 1 := by
  have hc : c ^ 2 ≤ 1 := by nlinarith [sq_nonneg s]
  have hs : s ^ 2 = 1 - c ^ 2 := by linarith
  rw [← sq_le_one_iff_abs_le_one, mul_pow, mul_pow, Real.sq_sqrt (by norm_num), hs]
  nlinarith [mul_nonneg (sq_nonneg (c ^ 2 - 4 / 15)) (by linarith : 0 ≤ 16 / 15 - c ^ 2)]

/-- The extreme value of `sc²` on the circle is where s² = 1/3, with square 4/27. -/
theorem abs_profile_N_le {s c : ℝ} (hsc : s ^ 2 + c ^ 2 = 1) : |1.5 * √3 * s * c ^ 2| ≤ 1 := by
  have hs : s ^ 2 ≤ 1 := by nlinarith [sq_nonneg c]
  have hc : c ^ 2 = 1 - s ^ 2 := by linarith
  rw [← sq_le_one_iff_abs_le_one, mul_pow, mul_pow, mul_pow, Real.sq_sqrt (by norm_num), hc]
  nlinarith [mul_nonneg (sq_nonneg (s ^ 2 - 1 / 3)) (by linarith : 0 ≤ 4 / 3 - s ^ 2)]

/-! ## The forms -/

/-- The exact arithmetic of R143: real operations with the exact constants. -/
noncomputable def exactArith : WeightArith ℝ :=
  { mul := fun a b => a * b, sub := fun a b => a - b, div := fun a b => a / b,
    one := 1, two := 2, three := 3, five := 5, w := 1 / √2,
    l := √(945 / 1792), m := √(945 / 1792), n := 1.5 * √3, o := 1.5 * √3 }

/-- The forms of A and E that R143 lists, in channel order. -/
noncomputable def exactForms (A E : ℝ) : Vector ℝ 16 :=
  #v[ 1 / √2, Real.cos A * Real.cos E, Real.sin A * Real.cos E, Real.sin E,
      (3 * Real.sin E ^ 2 - 1) / 2,
      Real.cos A * Real.sin (2 * E), Real.sin A * Real.sin (2 * E),
      Real.cos (2 * A) * Real.cos E ^ 2, Real.sin (2 * A) * Real.cos E ^ 2,
      Real.sin E * (5 * Real.sin E ^ 2 - 3) / 2,
      √(945 / 1792) * Real.cos A * Real.cos E * (5 * Real.sin E ^ 2 - 1),
      √(945 / 1792) * Real.sin A * Real.cos E * (5 * Real.sin E ^ 2 - 1),
      1.5 * √3 * Real.cos (2 * A) * Real.sin E * Real.cos E ^ 2,
      1.5 * √3 * Real.sin (2 * A) * Real.sin E * Real.cos E ^ 2,
      Real.cos (3 * A) * Real.cos E ^ 3, Real.sin (3 * A) * Real.cos E ^ 3 ]

theorem weightsIn_exactArith {M : ℝ → Phase → Fin 3 → ℝ}
    (hM : ∀ x q, M x .direct q = Real.sin ((q.val + 1) * x) ∧ M x .quarter q = Real.cos ((q.val + 1) * x)) (A E : ℝ) :
    weightsIn exactArith (M A) (M E) = exactForms A E := by
  have hsin1 (x : ℝ) : M x .direct 0 = Real.sin x := by rw [(hM x 0).1]; norm_num
  have hcos1 (x : ℝ) : M x .quarter 0 = Real.cos x := by rw [(hM x 0).2]; norm_num
  have hsin2 (x : ℝ) : M x .direct 1 = Real.sin (2 * x) := by rw [(hM x 1).1]; norm_num
  have hcos2 (x : ℝ) : M x .quarter 1 = Real.cos (2 * x) := by rw [(hM x 1).2]; norm_num
  have hsin3 (x : ℝ) : M x .direct 2 = Real.sin (3 * x) := by rw [(hM x 2).1]; norm_num
  have hcos3 (x : ℝ) : M x .quarter 2 = Real.cos (3 * x) := by rw [(hM x 2).2]; norm_num
  simp only [weightsIn, exactArith, exactForms, hsin1, hcos1, hsin2, hcos2, hsin3, hcos3]
  congr 2
  simp only [List.cons.injEq, and_true, true_and]
  refine ⟨?_, ?_, ?_, ?_, ?_, ?_, ?_, ?_, ?_, ?_⟩ <;> ring

/-- A product of two factors of size at most 1 has size at most 1. -/
theorem abs_mul_le_one {a b : ℝ} (ha : |a| ≤ 1) (hb : |b| ≤ 1) : |a * b| ≤ 1 := by
  rw [abs_mul]
  exact mul_le_one₀ ha (abs_nonneg b) hb

theorem abs_exactForms_le {k : Fin 16} (hk : k ≠ 0) (A E : ℝ) : |(exactForms A E)[k]| ≤ 1 := by
  have hcos (x : ℝ) := Real.abs_cos_le_one x
  have hsin (x : ℝ) := Real.abs_sin_le_one x
  have hcosPow (n : ℕ) : |Real.cos E ^ n| ≤ 1 := by rw [abs_pow]; exact pow_le_one₀ (abs_nonneg _) (hcos E)
  have hL := abs_profile_L_le (Real.sin_sq_add_cos_sq E)
  have hN := abs_profile_N_le (Real.sin_sq_add_cos_sq E)
  fin_cases k
  · exact absurd rfl hk
  · exact abs_mul_le_one (hcos A) (hcos E)
  · exact abs_mul_le_one (hsin A) (hcos E)
  · exact hsin E
  · exact abs_profile_R_le (hsin E)
  · exact abs_mul_le_one (hcos A) (hsin (2 * E))
  · exact abs_mul_le_one (hsin A) (hsin (2 * E))
  · exact abs_mul_le_one (hcos (2 * A)) (hcosPow 2)
  · exact abs_mul_le_one (hsin (2 * A)) (hcosPow 2)
  · exact abs_profile_K_le (hsin E)
  · refine (congrArg abs ?_).trans_le (abs_mul_le_one (hcos A) hL)
    simp [exactForms]
    ring
  · refine (congrArg abs ?_).trans_le (abs_mul_le_one (hsin A) hL)
    simp [exactForms]
    ring
  · refine (congrArg abs ?_).trans_le (abs_mul_le_one (hcos (2 * A)) hN)
    simp [exactForms]
    ring
  · refine (congrArg abs ?_).trans_le (abs_mul_le_one (hsin (2 * A)) hN)
    simp [exactForms]
    ring
  · exact abs_mul_le_one (hcos (3 * A)) (hcosPow 3)
  · exact abs_mul_le_one (hsin (3 * A)) (hcosPow 3)

/-- The angle at which the profile of K and L (channels 10 and 11) is extreme. -/
theorem profile_L_at_arcsin : √(945 / 1792) * Real.cos (Real.arcsin √(11 / 15)) *
    (5 * Real.sin (Real.arcsin √(11 / 15)) ^ 2 - 1) = 1 := by
  have hle : √(11 / 15) ≤ 1 := Real.sqrt_le_one.mpr (by norm_num)
  rw [Real.cos_arcsin, Real.sin_arcsin (by linarith [Real.sqrt_nonneg (11 / 15 : ℝ)]) hle, Real.sq_sqrt (by norm_num),
    ← Real.sqrt_mul (by norm_num), show (945 / 1792 * (1 - 11 / 15) : ℝ) = (3 / 8) ^ 2 by norm_num,
    Real.sqrt_sq (by norm_num)]
  norm_num

/-- The angle at which the profile of N and O (channels 12 and 13) is extreme. -/
theorem profile_N_at_arcsin : 1.5 * √3 * Real.sin (Real.arcsin √(1 / 3)) *
    Real.cos (Real.arcsin √(1 / 3)) ^ 2 = 1 := by
  have hle : √(1 / 3) ≤ 1 := Real.sqrt_le_one.mpr (by norm_num)
  rw [Real.cos_arcsin, Real.sin_arcsin (by linarith [Real.sqrt_nonneg (1 / 3 : ℝ)]) hle, Real.sq_sqrt (by norm_num),
    Real.sq_sqrt (by norm_num), mul_assoc 1.5, ← Real.sqrt_mul (by norm_num)]
  norm_num

theorem exists_abs_exactForms_eq_one {k : Fin 16} (hk : k ≠ 0) : ∃ A E, |(exactForms A E)[k]| = 1 := by
  have hhalf : (2 : ℝ) * (Real.pi / 4) = Real.pi / 2 := by ring
  have hthird : (3 : ℝ) * (Real.pi / 6) = Real.pi / 2 := by ring
  have hK (E) : (exactForms 0 E)[10] = √(945 / 1792) * Real.cos E * (5 * Real.sin E ^ 2 - 1) := by simp [exactForms]
  have hL (E) : (exactForms (Real.pi / 2) E)[11] = √(945 / 1792) * Real.cos E * (5 * Real.sin E ^ 2 - 1) := by
    simp [exactForms]
  have hN (E) : (exactForms 0 E)[12] = 1.5 * √3 * Real.sin E * Real.cos E ^ 2 := by simp [exactForms]
  have hO (E) : (exactForms (Real.pi / 4) E)[13] = 1.5 * √3 * Real.sin E * Real.cos E ^ 2 := by
    simp [exactForms, hhalf]
  fin_cases k
  · exact absurd rfl hk
  · exact ⟨0, 0, by simp [exactForms]⟩
  · exact ⟨Real.pi / 2, 0, by simp [exactForms]⟩
  · exact ⟨0, Real.pi / 2, by simp [exactForms]⟩
  · exact ⟨0, Real.pi / 2, by norm_num [exactForms]⟩
  · exact ⟨0, Real.pi / 4, by simp [exactForms, hhalf]⟩
  · exact ⟨Real.pi / 2, Real.pi / 4, by simp [exactForms, hhalf]⟩
  · exact ⟨0, 0, by simp [exactForms]⟩
  · exact ⟨Real.pi / 4, 0, by simp [exactForms, hhalf]⟩
  · exact ⟨0, Real.pi / 2, by norm_num [exactForms]⟩
  · exact ⟨0, Real.arcsin √(11 / 15), (congrArg abs ((hK _).trans profile_L_at_arcsin)).trans abs_one⟩
  · exact ⟨Real.pi / 2, Real.arcsin √(11 / 15), (congrArg abs ((hL _).trans profile_L_at_arcsin)).trans abs_one⟩
  · exact ⟨0, Real.arcsin √(1 / 3), (congrArg abs ((hN _).trans profile_N_at_arcsin)).trans abs_one⟩
  · exact ⟨Real.pi / 4, Real.arcsin √(1 / 3), (congrArg abs ((hO _).trans profile_N_at_arcsin)).trans abs_one⟩
  · exact ⟨0, 0, by simp [exactForms]⟩
  · exact ⟨Real.pi / 6, 0, by simp [exactForms, hthird]⟩

/-- Settles O60. -/
theorem weightsInExactArithmetic : Obligations.WeightsInExactArithmetic := by
  refine ⟨⟨rfl, rfl, fun e he v hv => ?_⟩, fun ar har M hM => ⟨fun A E => ?_, fun k hk => ⟨fun A E => ?_, ?_⟩⟩⟩
  · simp only [List.mem_cons, List.not_mem_nil, or_false] at he
    rcases he with rfl | rfl | rfl
    · exact constW_nearest hv
    · exact constL_nearest hv
    · exact constN_nearest hv
  · rw [show ar = exactArith from har, weightsIn_exactArith hM]
    rfl
  · rw [show ar = exactArith from har, weightsIn_exactArith hM]
    exact abs_exactForms_le hk A E
  · obtain ⟨A, E, h⟩ := exists_abs_exactForms_eq_one hk
    exact ⟨A, E, by rw [show ar = exactArith from har, weightsIn_exactArith hM]; exact h⟩

end Sys2Proof.Machine
end

section
/-! PROOFS. The 192-bit value of π that the default table is computed with (40_wavetable.md section 1, log entry 5) is within one
unit of π: Machin's formula, with partial sums of the series of arctan. -/

namespace Sys2Proof.Machine

/-- A partial sum of an alternating series with falling terms is off by at most the first term left out. -/
theorem abs_sub_partialSum_le {f : ℕ → ℝ} {l : ℝ} (hf0 : ∀ n, 0 ≤ f n) (hanti : Antitone f)
    (hsum : HasSum (fun n => (-1) ^ n * f n) l) (n : ℕ) : |l - ∑ i ∈ Finset.range n, (-1) ^ i * f i| ≤ f n := by
  have habs : Summable f := by
    have h := hsum.summable.abs
    simpa only [abs_mul, abs_neg_one_pow, one_mul, abs_of_nonneg (hf0 _)] using h
  have h := alternating_series_error_bound f hanti habs n
  rwa [hsum.tsum_eq] at h

/-- A partial sum of the series of arctan(1/m). -/
def arctanSum (m : Nat) : Nat → ℚ
  | 0 => 0
  | n + 1 => arctanSum m n + (-1) ^ n * (1 / (m ^ (2 * n + 1) * (2 * n + 1) : ℕ))

theorem abs_arctan_sub_arctanSum_le {m : Nat} (hm : 2 ≤ m) (n : Nat) :
    |Real.arctan (m : ℝ)⁻¹ - (arctanSum m n : ℝ)| ≤ 1 / (m ^ (2 * n + 1) * (2 * n + 1) : ℕ) := by
  have hm1 : (1 : ℝ) ≤ m := by exact_mod_cast (by omega : 1 ≤ m)
  have hnorm : ‖(m : ℝ)⁻¹‖ < 1 := by
    rw [Real.norm_of_nonneg (by positivity)]
    exact inv_lt_one_of_one_lt₀ (by exact_mod_cast (by omega : 1 < m))
  have hanti : Antitone fun i : ℕ => (1 : ℝ) / (m ^ (2 * i + 1) * (2 * i + 1) : ℕ) := by
    intro i j hij
    have hpow : m ^ (2 * i + 1) ≤ m ^ (2 * j + 1) := Nat.pow_le_pow_right (by omega) (by omega)
    have hpos : 0 < m ^ (2 * i + 1) := by positivity
    exact one_div_le_one_div_of_le (by positivity) (by exact_mod_cast Nat.mul_le_mul hpow (by omega))
  have hseries : HasSum (fun i : ℕ => (-1 : ℝ) ^ i * (1 / (m ^ (2 * i + 1) * (2 * i + 1) : ℕ))) (Real.arctan (m : ℝ)⁻¹) := by
    refine (Real.hasSum_arctan hnorm).congr_fun fun i => ?_
    push_cast
    rw [inv_pow]
    field_simp
  have hpartial : (arctanSum m n : ℝ) = ∑ i ∈ Finset.range n, (-1 : ℝ) ^ i * (1 / (m ^ (2 * i + 1) * (2 * i + 1) : ℕ)) := by
    induction n with
    | zero => simp [arctanSum]
    | succ n ih => rw [arctanSum, Finset.sum_range_succ, ← ih]; push_cast; ring
  rw [hpartial]
  exact abs_sub_partialSum_le (fun i => by positivity) hanti hseries n

/-- π is at least `piUnits` units of 2^-192, and at most one unit more. -/
theorem abs_pi_sub_piUnits_le : |Real.pi * 2 ^ 192 - piUnits| ≤ 1 := by
  have h5 := abs_arctan_sub_arctanSum_le (m := 5) (by decide) 43
  have h239 := abs_arctan_sub_arctanSum_le (m := 239) (by decide) 13
  have hmachin := Real.four_mul_arctan_inv_5_sub_arctan_inv_239
  have hsum : |((16 * arctanSum 5 43 - 4 * arctanSum 239 13 : ℚ) : ℝ) * 2 ^ 192 - piUnits| ≤ 9 / 10 := by
    have h : |(16 * arctanSum 5 43 - 4 * arctanSum 239 13) * 2 ^ 192 - piUnits| ≤ 9 / 10 := by decide +kernel
    have hreal : ((|(16 * arctanSum 5 43 - 4 * arctanSum 239 13) * 2 ^ 192 - piUnits| : ℚ) : ℝ) ≤ ((9 / 10 : ℚ) : ℝ) :=
      Rat.cast_le.mpr h
    simpa only [Rat.cast_abs, Rat.cast_sub, Rat.cast_mul, Rat.cast_pow, Rat.cast_div, Rat.cast_ofNat,
      Rat.cast_natCast] using hreal
  push_cast at h5 h239 hsum
  have herr5 : (1 : ℝ) / (5 ^ (2 * 43 + 1) * (2 * 43 + 1)) * 2 ^ 192 ≤ 1 / 1000 := by norm_num
  have herr239 : (1 : ℝ) / (239 ^ (2 * 13 + 1) * (2 * 13 + 1)) * 2 ^ 192 ≤ 1 / 1000 := by norm_num
  rw [abs_le] at *
  constructor <;> nlinarith

end Sys2Proof.Machine
end

section
/-! PROOFS. The default SIN_TABLE (40_wavetable.md section 1). `sinUnits` is within eight units of |sin(2πi/L)|: one for the
series cut off after 29 terms, two for the angle, and the rest for the divisions that round down. `sinDecided` then leaves
only one rounding for the whole interval in which the sine lies. -/

namespace Sys2Proof.Machine

/-! ## The series in exact arithmetic -/

/-- What `sinSeries` computes, without rounding: `n` factors from the `k`-th on, of the square `u` of an angle. -/
noncomputable def sinPoly (u : ℝ) : Nat → Nat → ℝ
  | 0, _ => 1
  | n + 1, k => 1 - u * sinPoly u n (k + 1) / (2 * k * (2 * k + 1))

/-- The nested form is the sum of the series. -/
theorem sinPoly_eq_sum (u : ℝ) (n k : Nat) :
    sinPoly u n (k + 1) / (2 * k + 1).factorial =
      ∑ i ∈ Finset.range (n + 1), (-1) ^ i * (u ^ i / (2 * k + 1 + 2 * i).factorial) := by
  induction n generalizing k with
  | zero => simp [sinPoly]
  | succ n ih =>
    have hfact : ((2 * (k + 1) + 1).factorial : ℝ) = (2 * (k + 1) + 1) * (2 * (k + 1)) * (2 * k + 1).factorial := by
      rw [show 2 * (k + 1) + 1 = 2 * k + 1 + 1 + 1 by ring, Nat.factorial_succ, Nat.factorial_succ]
      push_cast
      ring
    have hstep : sinPoly u (n + 1) (k + 1) / (2 * k + 1).factorial =
        1 / (2 * k + 1).factorial - u * (sinPoly u n (k + 1 + 1) / (2 * (k + 1) + 1).factorial) := by
      rw [hfact, sinPoly]
      push_cast
      field_simp
    rw [hstep, ih, Finset.sum_range_succ' _ (n + 1), Finset.mul_sum, sub_eq_add_neg, add_comm, ← Finset.sum_neg_distrib]
    congr 1
    · refine Finset.sum_congr rfl fun i _ => ?_
      rw [show 2 * (k + 1) + 1 + 2 * i = 2 * k + 1 + 2 * (i + 1) by ring]
      ring
    · simp

/-- For an angle up to π/2 and a little more, 29 terms give the sine to well below a unit. -/
theorem abs_sin_sub_sinPoly_le {x : ℝ} (hx0 : 0 ≤ x) (hx : x ≤ 8 / 5) :
    |Real.sin x * 2 ^ 192 - x * sinPoly (x ^ 2) 28 1 * 2 ^ 192| ≤ 1 := by
  have hterms (i : ℕ) : x * (x ^ 2) ^ i = x ^ (2 * i + 1) := by rw [← pow_mul, pow_succ]; ring
  have hanti : Antitone fun i : ℕ => x ^ (2 * i + 1) / (2 * i + 1).factorial := by
    refine antitone_nat_of_succ_le fun i => ?_
    have hfact : (2 * (i + 1) + 1).factorial = (2 * i + 3) * (2 * i + 2) * (2 * i + 1).factorial := by
      rw [show 2 * (i + 1) + 1 = 2 * i + 1 + 1 + 1 by ring, Nat.factorial_succ, Nat.factorial_succ]
      ring
    have hsq : x ^ 2 ≤ (2 * i + 3) * (2 * i + 2) := by nlinarith [Nat.cast_nonneg (α := ℝ) i]
    rw [hfact, show 2 * (i + 1) + 1 = 2 * i + 1 + 2 by ring, pow_add, div_le_div_iff₀ (by positivity) (by positivity)]
    push_cast
    have hpos : 0 ≤ x ^ (2 * i + 1) * (2 * i + 1).factorial := by positivity
    nlinarith
  have hseries : HasSum (fun i : ℕ => (-1 : ℝ) ^ i * (x ^ (2 * i + 1) / (2 * i + 1).factorial)) (Real.sin x) := by
    refine (Real.hasSum_sin x).congr_fun fun i => ?_
    rw [mul_div_assoc]
  have hsum : x * sinPoly (x ^ 2) 28 1 =
      ∑ i ∈ Finset.range 29, (-1 : ℝ) ^ i * (x ^ (2 * i + 1) / (2 * i + 1).factorial) := by
    have h := sinPoly_eq_sum (x ^ 2) 28 0
    simp only [Nat.mul_zero, Nat.zero_add, Nat.factorial_one, Nat.cast_one, div_one] at h
    rw [h, Finset.mul_sum]
    refine Finset.sum_congr rfl fun i _ => ?_
    rw [← hterms, add_comm 1]
    ring
  have herr := abs_sub_partialSum_le (fun i => by positivity) hanti hseries 29
  rw [← hsum] at herr
  have hsmall : x ^ (2 * 29 + 1) / (2 * 29 + 1).factorial * 2 ^ 192 ≤ 1 := by
    have hpow : x ^ (2 * 29 + 1) ≤ (8 / 5) ^ (2 * 29 + 1) := pow_le_pow_left₀ hx0 hx _
    have hnum : ((8 : ℝ) / 5) ^ (2 * 29 + 1) / (2 * 29 + 1).factorial * 2 ^ 192 ≤ 1 := by
      norm_num [Nat.factorial]
    refine le_trans ?_ hnum
    gcongr
  rw [← sub_mul, abs_mul, abs_of_pos (by positivity : (0 : ℝ) < 2 ^ 192)]
  exact (mul_le_mul_of_nonneg_right herr (by positivity)).trans hsmall

/-! ## The series in units of 2^-192 -/

theorem natDiv_bounds (a b : Nat) : ((a / b : ℕ) : ℝ) ≤ a / b ∧ (a : ℝ) / b - 1 < (a / b : ℕ) := by
  rw [← Nat.floor_div_eq_div (K := ℝ)]
  exact ⟨Nat.floor_le (by positivity), Nat.sub_one_lt_floor _⟩

theorem sinSeries_le (xx n k : Nat) : sinSeries xx n k ≤ sinOne := by
  cases n with
  | zero => exact le_rfl
  | succ n => exact Nat.sub_le ..

theorem sinOne_cast : ((sinOne : ℕ) : ℝ) = 2 ^ 192 := by norm_num [sinOne]

/-- The error of one factor: what is in error by 3, times at most (8/5)², divided by at least 6, and rounded down. -/
theorem factor_error {w r f s y c q : ℝ} (hw : 0 < w) (hr0 : 0 ≤ r) (hr1 : r ≤ 8 / 5) (hs0 : 0 ≤ s) (hs : s ≤ w)
    (herr : |s - f * w| ≤ 3) (hy1 : y ≤ r ^ 2 * w) (hy0 : r ^ 2 * w - 1 ≤ y) (hc : 6 ≤ c)
    (hq1 : q ≤ y * s / (w * c)) (hq0 : y * s / (w * c) - 1 ≤ q) : |w - q - (1 - r ^ 2 * f / c) * w| ≤ 3 := by
  have hr2 : r ^ 2 ≤ 64 / 25 := by nlinarith
  have hsw : s / w ≤ 1 := (div_le_one hw).mpr hs
  have hsw0 : 0 ≤ s / w := by positivity
  have hquot : y * s / (w * c) = (r ^ 2 * f * w - (r ^ 2 * (f * w - s) + (r ^ 2 * w - y) * (s / w))) / c := by
    field_simp
    ring
  have hnum : |r ^ 2 * (f * w - s) + (r ^ 2 * w - y) * (s / w)| ≤ 9 := by
    rw [abs_le] at herr ⊢
    constructor <;> nlinarith [sq_nonneg r, mul_nonneg (sub_nonneg.mpr hy1) hsw0]
  have hdiv : |(r ^ 2 * (f * w - s) + (r ^ 2 * w - y) * (s / w)) / c| ≤ 3 / 2 := by
    rw [abs_div, abs_of_pos (by linarith : 0 < c), div_le_iff₀ (by linarith)]
    linarith
  rw [hquot, sub_div] at hq1 hq0
  have hexact : w - q - (1 - r ^ 2 * f / c) * w = r ^ 2 * f * w / c - q := by ring
  rw [hexact]
  rw [abs_le] at hdiv ⊢
  constructor <;> linarith

/-- The series of whole numbers, for an angle `x` in units, is within three units of the exact one. -/
theorem abs_sinSeries_sub_le {x : Nat} {r : ℝ} (hr : (x : ℝ) = r * 2 ^ 192) (hr0 : 0 ≤ r) (hr1 : r ≤ 8 / 5) (n : Nat)
    {k : Nat} (hk : 1 ≤ k) :
    |(sinSeries (x * x / sinOne) n k : ℝ) - sinPoly (r ^ 2) n k * 2 ^ 192| ≤ 3 := by
  induction n generalizing k with
  | zero => simp [sinSeries, sinPoly, sinOne_cast]
  | succ n ih =>
    have hle : (sinSeries (x * x / sinOne) n (k + 1) : ℝ) ≤ sinOne := by exact_mod_cast sinSeries_le ..
    obtain ⟨hy1, hy0⟩ := natDiv_bounds (x * x) sinOne
    have hk' : (1 : ℝ) ≤ k := by exact_mod_cast hk
    have hden : (6 : ℝ) ≤ 2 * k * (2 * k + 1) := by nlinarith
    rw [sinSeries, sinPoly, Nat.div_div_eq_div_mul]
    obtain ⟨hq1, hq0⟩ := natDiv_bounds (x * x / sinOne * sinSeries (x * x / sinOne) n (k + 1))
      (sinOne * (2 * k * (2 * k + 1)))
    have hw : (0 : ℝ) < sinOne := by rw [sinOne_cast]; positivity
    rw [← sinOne_cast] at hr ih ⊢
    have hsq : ((x * x : ℕ) : ℝ) / sinOne = r ^ 2 * sinOne := by
      rw [Nat.cast_mul, hr]
      field_simp
    rw [hsq] at hy1 hy0
    have hfit : x * x / sinOne * sinSeries (x * x / sinOne) n (k + 1) / (sinOne * (2 * k * (2 * k + 1))) ≤ sinOne := by
      refine (Nat.cast_le (α := ℝ)).mp (hq1.trans ?_)
      have hys := mul_le_mul hy1 hle (Nat.cast_nonneg _) (by positivity : 0 ≤ r ^ 2 * (sinOne : ℝ))
      push_cast
      rw [div_le_iff₀ (by positivity)]
      have hr2 : r ^ 2 ≤ 6 := by nlinarith
      have hww : (0 : ℝ) < sinOne * sinOne := by positivity
      nlinarith
    rw [Nat.cast_sub hfit]
    push_cast at hq1 hq0
    exact factor_error hw hr0 hr1 (Nat.cast_nonneg _) hle (ih (by omega)) hy1 hy0.le hden hq1 hq0.le

/-! ## A quarter of the circle -/

/-- The angle of `quarterSin` in units is within two units of π/2 · a/len, and not above 8/5. -/
theorem quarterAngle_near {len a : Nat} (hlen : 0 < len) (ha : a ≤ len) :
    |((piUnits * a / (2 * len) : ℕ) : ℝ) - Real.pi * a / (2 * len) * 2 ^ 192| ≤ 2 ∧
      ((piUnits * a / (2 * len) : ℕ) : ℝ) / 2 ^ 192 ≤ 8 / 5 := by
  have hlen' : (0 : ℝ) < len := by exact_mod_cast hlen
  have hratio0 : (0 : ℝ) ≤ a / (2 * len) := by positivity
  have hratio1 : (a : ℝ) / (2 * len) ≤ 1 / 2 := by
    rw [div_le_div_iff₀ (by positivity) two_pos]
    have : (a : ℝ) ≤ len := by exact_mod_cast ha
    linarith
  obtain ⟨hfloor1, hfloor0⟩ := natDiv_bounds (piUnits * a) (2 * len)
  push_cast at hfloor1 hfloor0
  rw [mul_div_assoc] at hfloor1 hfloor0
  have hpi := abs_pi_sub_piUnits_le
  constructor
  · have hangle : Real.pi * a / (2 * len) * 2 ^ 192 = Real.pi * 2 ^ 192 * (a / (2 * len)) := by ring
    rw [hangle]
    rw [abs_le] at hpi ⊢
    constructor <;> nlinarith
  · have hunits : (piUnits : ℝ) ≤ 16 / 5 * 2 ^ 192 := by norm_num [piUnits]
    rw [div_le_iff₀ (by positivity)]
    nlinarith

theorem abs_quarterSin_sub_le {len a : Nat} (hlen : 0 < len) (ha : a ≤ len) :
    |(quarterSin len a : ℝ) - Real.sin (Real.pi * a / (2 * len)) * 2 ^ 192| ≤ 9 := by
  obtain ⟨hangle, hle⟩ := quarterAngle_near hlen ha
  have hsin1 := Real.sin_le_one (Real.pi * a / (2 * len))
  generalize Real.pi * a / (2 * len) = θ at *
  unfold quarterSin
  generalize piUnits * a / (2 * len) = x at *
  have hw : (0 : ℝ) < 2 ^ 192 := by positivity
  obtain ⟨r, hr⟩ : ∃ r : ℝ, (x : ℝ) = r * 2 ^ 192 := ⟨x / 2 ^ 192, by field_simp⟩
  rw [hr, mul_div_cancel_right₀ _ hw.ne'] at hle
  have hr0 : 0 ≤ r := by
    have : 0 ≤ r * 2 ^ 192 := hr ▸ Nat.cast_nonneg x
    exact nonneg_of_mul_nonneg_left this hw
  have hseries := abs_sinSeries_sub_le hr hr0 hle 28 le_rfl
  have hcut := abs_sin_sub_sinPoly_le hr0 hle
  obtain ⟨hfloor1, hfloor0⟩ := natDiv_bounds (x * sinSeries (x * x / sinOne) 28 1) sinOne
  have hprod : ((x * sinSeries (x * x / sinOne) 28 1 : ℕ) : ℝ) / sinOne = r * sinSeries (x * x / sinOne) 28 1 := by
    rw [Nat.cast_mul, hr, sinOne_cast]
    field_simp
  rw [hprod] at hfloor1 hfloor0
  have hmove : |Real.sin r * 2 ^ 192 - Real.sin θ * 2 ^ 192| ≤ 2 := by
    rw [← sub_mul, abs_mul, abs_of_pos hw]
    refine (mul_le_mul_of_nonneg_right (Real.abs_sin_sub_sin_le r θ) hw.le).trans ?_
    rw [← abs_of_pos hw, ← abs_mul, sub_mul, ← hr]
    exact hangle
  have hfactor : |r * sinSeries (x * x / sinOne) 28 1 - r * sinPoly (r ^ 2) 28 1 * 2 ^ 192| ≤ 24 / 5 := by
    rw [mul_assoc, ← mul_sub, abs_mul, abs_of_nonneg hr0]
    calc r * |(sinSeries (x * x / sinOne) 28 1 : ℝ) - sinPoly (r ^ 2) 28 1 * 2 ^ 192| ≤ 8 / 5 * 3 := by gcongr
      _ = 24 / 5 := by norm_num
  have hsinle : Real.sin θ * 2 ^ 192 ≤ sinOne := by rw [sinOne_cast]; nlinarith
  rw [abs_le] at hcut hmove hfactor ⊢
  rw [Nat.cast_min]
  rcases min_cases (sinOne : ℝ) (x * sinSeries (x * x / sinOne) 28 1 / sinOne : ℕ) with ⟨h, hmin⟩ | ⟨h, hmin⟩ <;>
    rw [h] <;> constructor <;> linarith

/-! ## The whole circle -/

/-- The angle within the first quarter to which `sinUnits` reduces 2π·i/len, as the number of len-ths of π/2. -/
def quarterArg (len i : Nat) : Nat := if 4 * i / len % 2 = 0 then 4 * i % len else len - 4 * i % len

theorem sinUnits_eq (len i : Nat) : sinUnits len i = quarterSin len (quarterArg len i) := by
  simp only [sinUnits, quarterArg]
  split <;> rfl

theorem quarterArg_le {len : Nat} (hlen : 0 < len) (i : Nat) : quarterArg len i ≤ len := by
  have := Nat.mod_lt (4 * i) hlen
  unfold quarterArg
  split <;> omega

theorem quarter_lt_four {len i : Nat} (hi : i < len) : 4 * i / len < 4 := by
  rw [Nat.div_lt_iff_lt_mul (by omega)]
  omega

/-- The sign of the sine in each quarter of the circle. -/
def quarterSign (len i : Nat) : ℝ := if 2 ≤ 4 * i / len then -1 else 1

/-- The sine, reduced to the first quarter. -/
theorem sin_eq_quarter {len i : Nat} (hi : i < len) :
    Real.sin (2 * Real.pi * i / len) = quarterSign len i * Real.sin (Real.pi * quarterArg len i / (2 * len)) := by
  have hlen : (len : ℝ) ≠ 0 := by exact_mod_cast (by omega : len ≠ 0)
  have hmod := (Nat.mod_lt (4 * i) (by omega : 0 < len)).le
  have hsplit : 2 * Real.pi * i / len = (4 * i / len : ℕ) * (Real.pi / 2) + Real.pi * (4 * i % len : ℕ) / (2 * len) := by
    have h : (4 * i : ℝ) = len * (4 * i / len : ℕ) + (4 * i % len : ℕ) := by exact_mod_cast (Nat.div_add_mod (4 * i) len).symm
    field_simp
    linear_combination h
  have hreflect : Real.pi * (len - 4 * i % len : ℕ) / (2 * len) =
      Real.pi / 2 - Real.pi * (4 * i % len : ℕ) / (2 * len) := by
    rw [Nat.cast_sub hmod]
    field_simp
  have hq := quarter_lt_four hi
  rw [hsplit, quarterSign, quarterArg]
  generalize 4 * i / len = q at *
  generalize hφ : Real.pi * (4 * i % len : ℕ) / (2 * len) = φ at *
  interval_cases q
  · simp [hφ]
  · have hangle : ((1 : ℕ) : ℝ) * (Real.pi / 2) + φ = φ + Real.pi / 2 := by push_cast; ring
    rw [hangle, Real.sin_add_pi_div_two]
    simp [hreflect, Real.sin_pi_div_two_sub]
  · have hangle : ((2 : ℕ) : ℝ) * (Real.pi / 2) + φ = φ + Real.pi := by push_cast; ring
    rw [hangle, Real.sin_add_pi]
    simp [hφ]
  · have hangle : ((3 : ℕ) : ℝ) * (Real.pi / 2) + φ = φ + Real.pi / 2 + Real.pi := by push_cast; ring
    rw [hangle, Real.sin_add_pi, Real.sin_add_pi_div_two]
    simp [hreflect, Real.sin_pi_div_two_sub]

theorem abs_sinUnits_sub_le {len i : Nat} (hi : i < len) :
    |(sinUnits len i : ℝ) - quarterSign len i * Real.sin (2 * Real.pi * i / len) * 2 ^ 192| ≤ 9 := by
  have hsign : quarterSign len i * quarterSign len i = 1 := by unfold quarterSign; split <;> norm_num
  rw [sinUnits_eq, sin_eq_quarter hi, ← mul_assoc, hsign, one_mul]
  exact abs_quarterSin_sub_le (by omega) (quarterArg_le (by omega) i)

theorem sinUnits_le (len i : Nat) : sinUnits len i ≤ sinOne := by
  rw [sinUnits_eq]
  exact Nat.min_le_left ..

/-! ## The default word -/

/-- Rounding `n` units of 2^-192 to binary32. -/
theorem rnd_units192 (n : Nat) : rnd ((n : ℚ) / 2 ^ 192) = (unitsOfMag (roundMag n (2 ^ 43)) : ℚ) / 2 ^ 149 := by
  have h : |((n : ℚ) / 2 ^ 192)| * 2 ^ 149 = (n : ℚ) / (2 ^ 43 : ℕ) := by
    rw [abs_of_nonneg (by positivity), show (2 : ℚ) ^ 192 = 2 ^ 149 * 2 ^ 43 by rw [← pow_add], Nat.cast_pow,
      Nat.cast_ofNat]
    field_simp
  rw [rnd_of_nonneg (by positivity), rneMag_eq_roundMag (by positivity) h]

/-- The value of the default word, a zero included. -/
theorem valueOf_defaultSin (len i : Nat) :
    valueOf (defaultSin len i) = (if 2 ≤ 4 * i / len then -1 else 1) * rnd ((sinUnits len i : ℚ) / 2 ^ 192) := by
  rw [rnd_units192, defaultSin]
  by_cases h : sinUnits len i = 0
  · rw [h, roundMag_zero, unitsOfMag_zero]
    simp
  · simp only [h, if_false]
    rw [rneSigned, valueOf_pack (roundMag_lt ..)]
    simp

theorem inUnit_defaultSin (len i : Nat) : inUnit (defaultSin len i) = true := by
  rw [defaultSin]
  by_cases h : sinUnits len i = 0
  · simp only [h, if_true]
    decide
  · simp only [h, if_false]
    have hmono := roundMag_mono (n := sinUnits len i) (n' := sinOne) (d := 2 ^ 43) (d' := 2 ^ 43) (by positivity)
      (by positivity) (Nat.mul_le_mul_right _ (sinUnits_le len i))
    rw [show roundMag sinOne (2 ^ 43) = 0x3F800000 by decide +kernel] at hmono
    rw [inUnit, rneSigned, mag_pack (roundMag_lt ..)]
    exact decide_eq_true hmono

/-- Where the rounding is decided, the ends of the interval of doubt round as its middle. -/
theorem rnd_of_sinDecided {len i : Nat} (h : sinDecided len i = true) :
    rnd (((sinUnits len i - sinSlack : ℕ) : ℚ) / 2 ^ 192) = rnd ((sinUnits len i : ℚ) / 2 ^ 192) ∧
      rnd (((sinUnits len i + sinSlack : ℕ) : ℚ) / 2 ^ 192) = rnd ((sinUnits len i : ℚ) / 2 ^ 192) := by
  have hends := beq_iff_eq.mp h
  have hmono {m n : Nat} (hmn : m ≤ n) : roundMag m (2 ^ 43) ≤ roundMag n (2 ^ 43) :=
    roundMag_mono (by positivity) (by positivity) (Nat.mul_le_mul_right _ hmn)
  have hlow := hmono (Nat.sub_le (sinUnits len i) sinSlack)
  have hhigh := hmono (Nat.le_add_right (sinUnits len i) sinSlack)
  have hlow : roundMag (sinUnits len i - sinSlack) (2 ^ 43) = roundMag (sinUnits len i) (2 ^ 43) := by omega
  have hhigh : roundMag (sinUnits len i + sinSlack) (2 ^ 43) = roundMag (sinUnits len i) (2 ^ 43) := by omega
  rw [rnd_units192, rnd_units192, rnd_units192, hlow, hhigh]
  exact ⟨rfl, rfl⟩

/-- The sine, with the sign of its half circle, lies in the interval of doubt. -/
theorem sin_between {len i : Nat} (hi : i < len) :
    ((((sinUnits len i - sinSlack : ℕ) : ℚ) / 2 ^ 192 : ℚ) : ℝ) ≤
        quarterSign len i * Real.sin (2 * Real.pi * i / len) ∧
      quarterSign len i * Real.sin (2 * Real.pi * i / len) ≤
        ((((sinUnits len i + sinSlack : ℕ) : ℚ) / 2 ^ 192 : ℚ) : ℝ) := by
  have hnear := abs_sinUnits_sub_le hi
  have hnonneg : 0 ≤ quarterSign len i * Real.sin (2 * Real.pi * i / len) := by
    have hlen : (0 : ℝ) < len := by exact_mod_cast (by omega : 0 < len)
    have harg : (quarterArg len i : ℝ) ≤ len := by exact_mod_cast quarterArg_le (by omega) i
    have hsign : quarterSign len i * quarterSign len i = 1 := by unfold quarterSign; split <;> norm_num
    rw [sin_eq_quarter hi, ← mul_assoc, hsign, one_mul]
    refine Real.sin_nonneg_of_nonneg_of_le_pi (by positivity) ?_
    rw [div_le_iff₀ (by positivity)]
    nlinarith [Real.pi_pos]
  generalize quarterSign len i * Real.sin (2 * Real.pi * i / len) = t at *
  have hpos : (0 : ℝ) < 2 ^ 192 := by positivity
  rw [Rat.cast_div, Rat.cast_div, Rat.cast_pow, Rat.cast_ofNat, Rat.cast_natCast, Rat.cast_natCast,
    div_le_iff₀ hpos, le_div_iff₀ hpos]
  have ht : 0 ≤ t * 2 ^ 192 := by positivity
  generalize t * 2 ^ 192 = T at *
  rw [abs_le] at hnear
  unfold sinSlack
  constructor
  · rcases Nat.le_total (sinUnits len i) (2 ^ 8) with hle | hle
    · rw [Nat.sub_eq_zero_of_le hle]
      simpa using ht
    · rw [Nat.cast_sub hle]
      push_cast
      linarith
  · push_cast
    linarith

/-- A number of units within the interval of doubt is far from overflow. -/
theorem isFinite_rneRat_units192 {n : Nat} (hn : n ≤ sinOne + sinSlack) :
    isFinite (rneRat ((n : ℚ) / 2 ^ 192)) = true ∧ isFinite (rneRat (-((n : ℚ) / 2 ^ 192))) = true := by
  have hle : (n : ℚ) / 2 ^ 192 ≤ 2 ^ 24 := by
    rw [div_le_iff₀ (by positivity)]
    have h : (n : ℚ) ≤ ((sinOne + sinSlack : ℕ) : ℚ) := by exact_mod_cast hn
    exact h.trans (by norm_num [sinOne, sinSlack])
  have habs : |(n : ℚ) / 2 ^ 192| ≤ 2 ^ 24 := by rwa [abs_of_nonneg (by positivity)]
  exact ⟨isFinite_rneRat_iff.mpr (habs.trans_lt (by norm_num)),
    isFinite_rneRat_iff.mpr (by rw [abs_neg]; exact habs.trans_lt (by norm_num))⟩

/-- Settles O11: both ends of the interval in which the sine lies round to the default word. -/
theorem defaultTableWordIsNearestToSine : Obligations.DefaultTableWordIsNearestToSine := by
  intro len i hi hdec v hv
  obtain ⟨hlow, hhigh⟩ := rnd_of_sinDecided hdec
  obtain ⟨hlowsin, hsinhigh⟩ := sin_between hi
  have hunits := sinUnits_le len i
  obtain ⟨hlowfin, hlownegfin⟩ := isFinite_rneRat_units192 (n := sinUnits len i - sinSlack) (by omega)
  obtain ⟨hhighfin, hhighnegfin⟩ := isFinite_rneRat_units192 (n := sinUnits len i + sinSlack) (by omega)
  rw [valueOf_defaultSin]
  by_cases hneg : 2 ≤ 4 * i / len
  · rw [quarterSign, if_pos hneg, neg_one_mul] at hlowsin hsinhigh
    rw [if_pos hneg, neg_one_mul]
    refine nearest_of_between_rnd hhighnegfin hlownegfin (by rw [rnd_neg, hhigh]) (by rw [rnd_neg, hlow]) ?_ ?_ hv
    · rw [Rat.cast_neg]
      linarith
    · rw [Rat.cast_neg]
      linarith
  · rw [quarterSign, if_neg hneg, one_mul] at hlowsin hsinhigh
    rw [if_neg hneg, one_mul]
    exact nearest_of_between_rnd hlowfin hhighfin hlow hhigh hlowsin hsinhigh hv

/-- Settles O12. -/
theorem defaultTableIsExactAtQuarterPoints : Obligations.DefaultTableIsExactAtQuarterPoints := by
  intro len i hi hmod
  have hlen : 0 < len := by omega
  have hzero : quarterSin len 0 = 0 := by simp [quarterSin]
  have hone : quarterSin len len = quarterSin 1 1 := by
    have hangle : piUnits * len / (2 * len) = piUnits * 1 / (2 * 1) := by
      rw [Nat.mul_div_mul_right _ _ hlen, Nat.mul_one, Nat.mul_one]
    simp only [quarterSin, hangle]
  have heven (h : 4 * i / len % 2 = 0) : defaultSin len i = 0 := by
    simp [defaultSin, sinUnits, hmod, h, hzero]
  have hodd (h : 4 * i / len % 2 = 1) : sinUnits len i = quarterSin 1 1 := by
    simp [sinUnits, hmod, h, hone]
  have hone0 : quarterSin 1 1 ≠ 0 := by decide +kernel
  refine ⟨fun h => heven (by rw [h]), fun h => ?_, fun h => heven (by rw [h]), fun h => ?_, quarter_lt_four hi⟩
  · simp only [defaultSin, hodd (by rw [h]), hone0, if_false, h]
    decide +kernel
  · simp only [defaultSin, hodd (by rw [h]), hone0, if_false, h]
    decide +kernel

end Sys2Proof.Machine
end

section
/-! PROOFS. How a command runs to its end, and the commands that only read or write one part of the state (44_system.md
sections 2 to 4, 41_direction.md section 4, 43_ramp.md section 1, 10_state.md section 2). -/

namespace Sys2Proof.Machine

/-! ## Control -/

@[simp] theorem raiseIf_false (c : Cause) : raiseIf false c = .ok () := rfl

@[simp] theorem raiseIf_true (c : Cause) : raiseIf true c = .error (.cause c) := rfl

@[simp] theorem ok_bind {ε α β : Type} (a : α) (f : α → Except ε β) : ((Except.ok a : Except ε α) >>= f) = f a := rfl

@[simp] theorem error_bind {ε α β : Type} (e : ε) (f : α → Except ε β) :
    ((Except.error e : Except ε α) >>= f) = .error e := rfl

@[simp] theorem finish_ok (s : State) (g : Staged) : finish s (.ok g) = .next (g.state.respond g.ra g.rb) := rfl

@[simp] theorem finish_cause (s : State) (c : Cause) : finish s (.error (.cause c)) = .next (s.reject c) := rfl

theorem requireDirection_of_dir {s : State} {d : Direction} (h : s.dir = some d) : requireDirection s = .ok d :=
  requireDirection_ok_iff.mpr h

/-! ## The status commands -/

/-- Settles O38. -/
theorem rdstatAnswersStatusAndLength : Obligations.RdstatAnswersStatusAndLength := fun _ => rfl

/-- Settles O39. -/
theorem clrerrClearsTheErrorRecordAlone : Obligations.ClrerrClearsTheErrorRecordAlone := fun _ => rfl

/-- Settles O40. -/
theorem nopChangesNothing : Obligations.NopChangesNothing := fun _ => rfl

/-- Settles O28. -/
theorem matrdReadsTheNamedEntry : Obligations.MatrdReadsTheNamedEntry := by
  intro s d p q hdir
  have hreq := requireDirection_of_dir hdir
  constructor <;> (simp only [exec, execMatrd, hreq, ok_bind, finish_ok]; rfl)

/-- Settles O33. -/
theorem rnewStartsTheRampIdleAtZero : Obligations.RnewStartsTheRampIdleAtZero := by
  intro s n hpos hle
  have hrange : (decide (u32 n = 0) || decide (s.cfg.bsMax < u32 n)) = false := by
    simp only [Bool.or_eq_false_iff, decide_eq_false_iff_not]
    omega
  constructor <;> (simp only [exec, execRnew, hrange, raiseIf_false, ok_bind, finish_ok]; rfl)

/-! ## STATUS -/

theorem State.built_eq_decide (s : State) : s.built = decide (s.tlen ≠ 0) := by
  rw [Bool.eq_iff_iff, State.built_iff, decide_eq_true_iff]

/-- Settles O41: each bit of the concatenation is read at its place. -/
theorem statusMirrorsTheState : Obligations.StatusMirrorsTheState := by
  intro s
  rw [← State.built_eq_decide]
  refine ⟨?_, ?_, ?_, ?_, ?_, ?_, ?_, ?_, ?_, ?_, ?_⟩
  case refine_7 | refine_8 | refine_9 | refine_10 | refine_11 =>
    refine BitVec.eq_of_getLsbD_eq fun i hi => ?_
    interval_cases i <;> simp only [State.status, BitVec.getLsbD_extractLsb', BitVec.getLsbD_append] <;> simp
  all_goals
    simp only [State.status, BitVec.getLsbD_append]
    simp [State.dinit]

end Sys2Proof.Machine
end

section
/-! PROOFS. BUILD and the lookups (40_wavetable.md sections 2 to 6). In a state of the invariants' shape with a table built the
two words around any reduced argument are held, so Lookup answers for every finite argument (`lookup_of_isFinite`). -/

namespace Sys2Proof.Machine

/-! ## BUILD -/

theorem exec_build_of_legal {s : State} {n : Word} (hb : s.built = false) (h1 : 1 ≤ u32 n) (hle : u32 n ≤ s.cfg.lMax) :
    exec (.build n) s = .next ((s.setTable n (buildTable s.cfg (u32 n) s.tbl)).respond 0 0) := by
  have hrange : (decide (u32 n = 0) || decide (s.cfg.lMax < u32 n)) = false := by
    simp only [Bool.or_eq_false_iff, decide_eq_false_iff_not]
    omega
  simp only [exec, execBuild, hb, hrange, raiseIf_false, ok_bind, finish_ok]

/-- Settles O13. -/
theorem buildWritesTheTable : Obligations.BuildWritesTheTable := by
  intro s n hb h1 hle
  refine ⟨buildTable s.cfg (u32 n) s.tbl, exec_build_of_legal hb h1 hle, fun i hi => ⟨?_, fun w hw => ?_, fun hw => ?_⟩,
    ?_, fun i hi => ?_⟩
  · simp [read_buildTable, hi]
  · simp [sinTable, hw]
  · simp [sinTable, hw]
  · simp [read_buildTable]
  · rw [read_buildTable, if_neg (by omega), if_neg (by omega)]

/-! ## Lookup in a built table -/

section
variable {s : State} (hs : s.Shape) (hb : s.built = true)

include hb in
theorem one_le_tableLen : 1 ≤ s.tableLen := by
  have hne : s.tlen ≠ 0 := s.built_iff.mp hb
  rw [State.tableLen, u32, Nat.one_le_iff_ne_zero]
  exact fun h => hne (BitVec.eq_of_toNat_eq h)

include hs in
theorem tableLen_le : s.tableLen ≤ 2 ^ 22 := hs.table.len_le.trans hs.config.lMax_le

include hs hb in
/-- The two words around a reduced argument are held. -/
theorem exists_samples (x : F) :
    ∃ a b, s.tbl.read (floorF (wrap s.tableLen x)) = some a ∧ s.tbl.read (floorF (wrap s.tableLen x) + 1) = some b := by
  have hindex := floorF_wrap_lt (one_le_tableLen hb) (tableLen_le hs) x
  have hheld {i : Nat} (hi : i ≤ s.tableLen) := Option.isSome_iff_exists.mp ((hs.table.held hb i).mpr hi)
  obtain ⟨a, ha⟩ := hheld hindex.le
  obtain ⟨b, hb'⟩ := hheld hindex
  exact ⟨a, b, ha, hb'⟩

include hs hb in
theorem lookup_of_isFinite {x : F} (hx : isFinite x = true) : ∃ y, lookup s x = .ok y := by
  obtain ⟨a, b, ha, hb'⟩ := exists_samples hs hb x
  exact ⟨_, lookup_ok_iff.mpr ⟨hx, a, b, ha, hb', rfl⟩⟩

include hs in
/-- The quarter offset never makes a finite argument overflow (40_wavetable.md R105). -/
theorem isFinite_fadd_quarterOffset {x : F} (hx : isFinite x = true) : isFinite (fadd x s.quarterOffset) = true := by
  have hle := tableLen_le hs
  obtain ⟨-, hqfin, hq⟩ := quarterOffsetIsExact s hle
  have hle' : (s.tableLen : ℚ) ≤ 2 ^ 22 := by exact_mod_cast hle
  refine isFinite_fadd hx hqfin ?_
  rw [hq]
  have habs := abs_valueOf_le hx
  calc |valueOf x + s.tableLen / 4| ≤ |valueOf x| + |(s.tableLen : ℚ) / 4| := abs_add_le _ _
    _ ≤ (2 ^ 128 - 2 ^ 104) + 2 ^ 20 := by
      refine add_le_add habs ?_
      rw [abs_of_nonneg (by positivity), div_le_iff₀ (by norm_num)]
      exact hle'.trans (by norm_num)
    _ < 2 ^ 128 - 2 ^ 103 := by norm_num

end

theorem exec_lksin_of_lookup {s : State} {x y : F} (hb : s.built = true) (h : lookup s x = .ok y) :
    exec (.lksin x) s = .next (s.respond y 0) := by
  simp only [exec, execLksin, hb, h, Bool.not_true, raiseIf_false, ok_bind, finish_ok]

/-- Settles O19. -/
theorem lksinInterpolatesTheTable : Obligations.LksinInterpolatesTheTable := by
  intro s x hs hb hx
  obtain ⟨a, b, ha, hb'⟩ := exists_samples hs hb x
  exact ⟨a, b, ha, hb', exec_lksin_of_lookup hb (lookup_ok_iff.mpr ⟨hx, a, b, ha, hb', rfl⟩)⟩

theorem exec_lkcos_of_lookup {s : State} {x y : F} (hb : s.built = true) (hx : isFinite x = true)
    (h : lookup s (fadd x s.quarterOffset) = .ok y) : exec (.lkcos x) s = .next (s.respond y 0) := by
  simp only [exec, execLkcos, hb, hx, h, Bool.not_true, raiseIf_false, ok_bind, finish_ok]

/-- Settles O20. -/
theorem lkcosLooksUpAQuarterFurther : Obligations.LkcosLooksUpAQuarterFurther := by
  intro s x hs hb hx
  have hsum := isFinite_fadd_quarterOffset hs hx
  obtain ⟨y, hy⟩ := lookup_of_isFinite hs hb hsum
  exact ⟨hsum, y, hy, exec_lkcos_of_lookup hb hx hy⟩

/-! ## Lookup at an integer -/

theorem units_toF {n : Nat} (hn : n ≤ 2 ^ 24) : units (toF n) = n * 2 ^ 149 := by
  obtain ⟨hneg, -, hunits⟩ := toF_exact hn
  rw [units_eq_of_not_isNeg hneg, hunits]
  push_cast
  rfl

/-- A whole number below L is its own reduced argument. -/
theorem wrap_toF {len i : Nat} (hi : i < len) (hle : len ≤ 2 ^ 22) : wrap len (toF i) = toF i := by
  have hi24 : i ≤ 2 ^ 24 := by omega
  have hunits : wrapUnits len (toF i) = units (toF i) := by
    rw [wrapUnits, units_toF hi24]
    refine Int.emod_eq_of_lt (by positivity) ?_
    exact mul_lt_mul_of_pos_right (by exact_mod_cast hi) (by positivity)
  have hround : rneUnits (units (toF i)) = toF i := by
    rcases Nat.eq_zero_or_pos i with rfl | hpos
    · decide
    · refine rneUnits_units (isFinite_toF hi24) ?_
      rw [units_toF hi24]
      positivity
  have hne : toF i ≠ toF len := fun h => by
    have hval := congrArg valueOf h
    rw [valueOf_toF hi24, valueOf_toF (by omega)] at hval
    exact hi.ne (by exact_mod_cast hval)
  rw [wrap_eq, hunits, hround, if_neg hne]

/-- The difference of a number with itself is +0.0. -/
theorem fsub_self {x : F} (hx : isFinite x = true) : fsub x x = 0 := by
  rw [fsub_of_isFinite hx hx, sub_self, if_pos rfl]
  cases isNeg x <;> rfl

/-- Adding a zero of either sign keeps every word but -0.0. -/
theorem fadd_of_valueOf_eq_zero {a z : F} (ha : isFinite a = true) (hz : isFinite z = true) (hz0 : valueOf z = 0)
    (hne : a ≠ 0x80000000) : fadd a z = a := by
  rw [fadd_of_isFinite ha hz, hz0, add_zero]
  split
  · next h0 =>
    have hmag : mag a = 0 := of_decide_eq_true ((isZero_iff_valueOf ha).mpr h0)
    have hneg : isNeg a = false := by
      by_contra hneg
      refine hne ?_
      rw [← pack_isNeg_mag a, hmag, Bool.eq_true_of_not_eq_false hneg]
      rfl
    rw [hneg, Bool.false_and, ← hmag, ← hneg, pack_isNeg_mag]
  · next h0 =>
    rw [valueOf, ← rneUnits_eq_rneRat]
    exact rneUnits_units ha fun h => h0 ((valueOf_eq_zero_iff_units a).mpr h)

/-- With fraction +0.0 the interpolation is the first of its samples. -/
theorem interpolate_zero {a b : F} (ha : inUnit a = true) (hb : inUnit b = true) (hne : a ≠ 0x80000000) :
    interpolate a b 0 = a := by
  obtain ⟨hafin, ha1⟩ := inUnit_iff.mp ha
  obtain ⟨hbfin, hb1⟩ := inUnit_iff.mp hb
  have hsub : isFinite (fsub b a) = true :=
    isFinite_fsub hbfin hafin (lt_overflow ((abs_sub _ _).trans ((add_le_add hb1 ha1).trans (by norm_num))))
  have hprod : valueOf 0 * valueOf (fsub b a) = 0 := by simp
  refine fadd_of_valueOf_eq_zero hafin (isFinite_fmul (by decide) hsub (lt_overflow ?_)) ?_ hne
  · rw [hprod]
    norm_num
  · rw [valueOf_fmul (by decide) hsub, hprod, rnd_zero]

/-- Settles O21: at a whole number below L the fraction is +0.0. -/
theorem lksinReadsTheTableAtIntegers : Obligations.LksinReadsTheTableAtIntegers := by
  intro s i w hs hv hi hw hne
  have hb : s.built = true := by
    rw [State.built_iff]
    rintro h
    rw [State.tableLen, h] at hi
    exact absurd hi (Nat.not_lt_zero i)
  have hi24 : i ≤ 2 ^ 24 := by have := tableLen_le hs; omega
  have hwrap := wrap_toF hi (tableLen_le hs)
  obtain ⟨-, -, hfloor⟩ := integersUpTo24BitsAreExact i hi24
  obtain ⟨a, b, ha, hb'⟩ := exists_samples hs hb (toF i)
  have hlookup : lookup s (toF i) = .ok (interpolate a b (fsub (toF i) (toF i))) :=
    lookup_ok_iff.mpr ⟨isFinite_toF hi24, a, b, ha, hb', by rw [hwrap, hfloor]⟩
  rw [hwrap, hfloor, hw] at ha
  obtain rfl : w = a := Option.some.inj ha
  rw [fsub_self (isFinite_toF hi24), interpolate_zero (hv.unit hb _ _ hw) (hv.unit hb _ _ hb') hne] at hlookup
  exact exec_lksin_of_lookup hb hlookup

end Sys2Proof.Machine
end

section
/-! PROOFS. DirectionState (41_direction.md). In a state of the invariants' shape with a table built, AxisRow answers a matrix
exactly for a value that can be scaled, because the quarter offset overflows for none; INIT and CHG complete from
there. -/

namespace Sys2Proof.Machine

/-! ## AxisRow -/

/-- Settles O22. -/
theorem axisEntriesAreScaledLookups : Obligations.AxisEntriesAreScaledLookups := by
  intro s v m h q
  obtain ⟨hd0, hq0, hd1, hq1, hd2, hq2⟩ := axisRow_ok_iff.mp h
  fin_cases q
  · exact ⟨hd0, hq0⟩
  · exact ⟨hd1, hq1⟩
  · exact ⟨hd2, hq2⟩

theorem lookup_of_not_isFinite {s : State} {x : F} (hx : isFinite x = false) :
    lookup s x = .error (.cause .nonfinite) :=
  lookup_cause_iff.mpr ⟨hx, rfl⟩

section
variable {s : State} (hs : s.Shape) (hb : s.built = true)
include hs hb

theorem axisRow_of_args {v : F} (hv : axisArgsFinite s v = true) : ∃ m, axisRow s v = .ok m := by
  obtain ⟨⟨h0, h1⟩, h2⟩ : (isFinite (scaledArg s v 0) = true ∧ isFinite (scaledArg s v 1) = true) ∧
      isFinite (scaledArg s v 2) = true := by simpa [axisArgsFinite] using hv
  obtain ⟨d0, hd0⟩ := lookup_of_isFinite hs hb h0
  obtain ⟨q0, hq0⟩ := lookup_of_isFinite hs hb (isFinite_fadd_quarterOffset hs h0)
  obtain ⟨d1, hd1⟩ := lookup_of_isFinite hs hb h1
  obtain ⟨q1, hq1⟩ := lookup_of_isFinite hs hb (isFinite_fadd_quarterOffset hs h1)
  obtain ⟨d2, hd2⟩ := lookup_of_isFinite hs hb h2
  obtain ⟨q2, hq2⟩ := lookup_of_isFinite hs hb (isFinite_fadd_quarterOffset hs h2)
  exact ⟨⟨d0, d1, d2, q0, q1, q2⟩, axisRow_ok_iff.mpr ⟨hd0, hq0, hd1, hq1, hd2, hq2⟩⟩

/-- A value that cannot be scaled is rejected, whichever of its arguments overflows. -/
theorem axisRow_of_not_args {v : F} (hv : axisArgsFinite s v = false) : axisRow s v = .error (.cause .nonfinite) := by
  rw [axisRow]
  cases h0 : isFinite (scaledArg s v 0)
  case false => rw [lookup_of_not_isFinite h0, error_bind]
  case true =>
    obtain ⟨d0, hd0⟩ := lookup_of_isFinite hs hb h0
    obtain ⟨q0, hq0⟩ := lookup_of_isFinite hs hb (isFinite_fadd_quarterOffset hs h0)
    rw [hd0, ok_bind, hq0, ok_bind]
    cases h1 : isFinite (scaledArg s v 1)
    case false => rw [lookup_of_not_isFinite h1, error_bind]
    case true =>
      obtain ⟨d1, hd1⟩ := lookup_of_isFinite hs hb h1
      obtain ⟨q1, hq1⟩ := lookup_of_isFinite hs hb (isFinite_fadd_quarterOffset hs h1)
      have h2 : isFinite (scaledArg s v 2) = false := by simpa [axisArgsFinite, h0, h1] using hv
      rw [hd1, ok_bind, hq1, ok_bind, lookup_of_not_isFinite h2, error_bind]

/-! ## The conditional recompute -/

theorem updateTheta_of_not_overflows {v : F} {d : Direction} (h : axisOverflows s v d.thb = false) :
    ∃ d', updateTheta s v d = .ok d' ∧ d'.p = d.p ∧ d'.phb = d.phb ∧
      if fneq v d.thb then axisRow s v = .ok d'.t ∧ d'.thb = v else d'.t = d.t ∧ d'.thb = d.thb := by
  cases hne : fneq v d.thb
  case false => exact ⟨d, updateTheta_ok_iff.mpr (.inr ⟨hne, rfl⟩), rfl, rfl, by simp⟩
  case true =>
    obtain ⟨m, hm⟩ := axisRow_of_args hs hb (v := v) (by simpa [axisOverflows, hne] using h)
    exact ⟨_, updateTheta_ok_iff.mpr (.inl ⟨hne, m, hm, rfl⟩), rfl, rfl, by simpa using hm⟩

theorem updatePhi_of_not_overflows {v : F} {d : Direction} (h : axisOverflows s v d.phb = false) :
    ∃ d', updatePhi s v d = .ok d' ∧ d'.t = d.t ∧ d'.thb = d.thb ∧
      if fneq v d.phb then axisRow s v = .ok d'.p ∧ d'.phb = v else d'.p = d.p ∧ d'.phb = d.phb := by
  cases hne : fneq v d.phb
  case false => exact ⟨d, updatePhi_ok_iff.mpr (.inr ⟨hne, rfl⟩), rfl, rfl, by simp⟩
  case true =>
    obtain ⟨m, hm⟩ := axisRow_of_args hs hb (v := v) (by simpa [axisOverflows, hne] using h)
    exact ⟨_, updatePhi_ok_iff.mpr (.inl ⟨hne, m, hm, rfl⟩), rfl, rfl, by simpa using hm⟩

/-- Where neither axis overflows, both halves of an update succeed, each on its own axis. -/
theorem updates_of_not_overflows {a e : F} {d : Direction} (ha : axisOverflows s a d.thb = false)
    (he : axisOverflows s e d.phb = false) :
    ∃ d' d'', updateTheta s a d = .ok d' ∧ updatePhi s e d' = .ok d'' ∧
      (if fneq a d.thb then axisRow s a = .ok d''.t ∧ d''.thb = a else d''.t = d.t ∧ d''.thb = d.thb) ∧
      (if fneq e d.phb then axisRow s e = .ok d''.p ∧ d''.phb = e else d''.p = d.p ∧ d''.phb = d.phb) := by
  obtain ⟨d', htheta, hp, hphb, ht⟩ := updateTheta_of_not_overflows hs hb ha
  obtain ⟨d'', hphi, ht', hthb', hp'⟩ := updatePhi_of_not_overflows hs hb (v := e) (d := d') (by rwa [hphb])
  refine ⟨d', d'', htheta, hphi, ?_, ?_⟩
  · rwa [ht', hthb']
  · rwa [hphb, hp] at hp'

theorem updateTheta_of_overflows {v : F} {d : Direction} (h : axisOverflows s v d.thb = true) :
    updateTheta s v d = .error (.cause .nonfinite) := by
  obtain ⟨hne, hargs⟩ : fneq v d.thb = true ∧ axisArgsFinite s v = false := by simpa [axisOverflows] using h
  simp only [updateTheta, hne, if_true, axisRow_of_not_args hs hb hargs, error_bind]

theorem updatePhi_of_overflows {v : F} {d : Direction} (h : axisOverflows s v d.phb = true) :
    updatePhi s v d = .error (.cause .nonfinite) := by
  obtain ⟨hne, hargs⟩ : fneq v d.phb = true ∧ axisArgsFinite s v = false := by simpa [axisOverflows] using h
  simp only [updatePhi, hne, if_true, axisRow_of_not_args hs hb hargs, error_bind]

end

/-! ## INIT and CHG -/

theorem exec_init_of_axisRow {s : State} {theta phi : F} {mt mp : AxisMatrix} (hb : s.built = true)
    (ht : axisRow s theta = .ok mt) (hp : axisRow s phi = .ok mp) :
    exec (.init theta phi) s = .next ((s.setDir { t := mt, p := mp, thb := theta, phb := phi }).respond 0 0) := by
  simp only [exec, execInit, hb, ht, hp, Bool.not_true, raiseIf_false, ok_bind, finish_ok]

/-- Settles O23. -/
theorem initComputesBothMatrices : Obligations.InitComputesBothMatrices := by
  intro s theta phi hs hb htheta hphi
  obtain ⟨mt, hmt⟩ := axisRow_of_args hs hb htheta
  obtain ⟨mp, hmp⟩ := axisRow_of_args hs hb hphi
  exact ⟨mt, mp, hmt, hmp, exec_init_of_axisRow hb hmt hmp⟩

theorem exec_chg_of_updates {s : State} {theta phi : F} {d d' d'' : Direction} (hdir : s.dir = some d)
    (ht : updateTheta s theta d = .ok d') (hp : updatePhi s phi d' = .ok d'') :
    exec (.chg theta phi) s = .next ((s.setDir d'').respond (changeMask theta phi d) 0) := by
  simp only [exec, execChg, requireDirection_of_dir hdir, ht, hp, ok_bind, finish_ok]

theorem State.Shape.built_of_dir {s : State} (hs : s.Shape) {d : Direction} (hdir : s.dir = some d) : s.built = true :=
  hs.dinit_built (s.dinit_iff.mpr ⟨d, hdir⟩)

/-- The mask of CHG as a sum of words. -/
theorem changeMask_eq (theta phi : F) (d : Direction) :
    changeMask theta phi d = (if fneq theta d.thb then 1 else 0) + (if fneq phi d.phb then 2 else 0) := by
  unfold changeMask
  cases fneq theta d.thb <;> cases fneq phi d.phb <;> rfl

/-- Settles O24. -/
theorem chgRecomputesExactlyTheChangedAxes : Obligations.ChgRecomputesExactlyTheChangedAxes := by
  intro s theta phi d hs hdir htheta hphi
  obtain ⟨d', d'', ht, hp, hT, hP⟩ := updates_of_not_overflows hs (hs.built_of_dir hdir) htheta hphi
  refine ⟨d'', ?_, hT, hP⟩
  rw [exec_chg_of_updates hdir ht hp, changeMask_eq]
  rfl

theorem State.setDir_of_dir {s : State} {d : Direction} (hdir : s.dir = some d) : s.setDir d = s := by
  rw [State.setDir, ← hdir]

/-- Settles O25. -/
theorem chgWithUnchangedValuesWritesNothing : Obligations.ChgWithUnchangedValuesWritesNothing := by
  intro s theta phi d hdir htheta hphi
  have ht : updateTheta s theta d = .ok d := updateTheta_ok_iff.mpr (.inr ⟨htheta, rfl⟩)
  have hp : updatePhi s phi d = .ok d := updatePhi_ok_iff.mpr (.inr ⟨hphi, rfl⟩)
  rw [exec_chg_of_updates hdir ht hp, s.setDir_of_dir hdir, changeMask_eq, htheta, hphi]
  rfl

theorem fneq_self {x : F} (hx : isFinite x = true) : fneq x x = false := by
  rw [← Bool.not_eq_true, fneq_of_isFinite hx hx]
  exact fun h => h rfl

/-- A CHG that succeeds has run both halves of the update. -/
theorem updates_of_exec_chg {s t : State} {theta phi : F} {d : Direction} {ra rb : Word} (hdir : s.dir = some d)
    (h : exec (.chg theta phi) s = .next t) (hr : t.response = some (.ok ra rb)) :
    ∃ d' d'', updateTheta s theta d = .ok d' ∧ updatePhi s phi d' = .ok d'' ∧ ra = changeMask theta phi d ∧
      t = (s.setDir d'').respond ra 0 := by
  rcases finish_next_iff.mp h with ⟨g, hg, rfl⟩ | ⟨c, -, rfl⟩
  · simp only [requireDirection_of_dir hdir, ok_bind, bind_ok_iff] at hg
    obtain ⟨d', ht, d'', hp, hg⟩ := hg
    cases hg
    obtain ⟨rfl, rfl⟩ : changeMask theta phi d = ra ∧ 0 = rb := by simpa using hr
    exact ⟨d', d'', ht, hp, rfl, rfl⟩
  · simp at hr

/-- Settles O26: the theta half of the CHG keeps T, which is AxisRow of its baseline already. -/
theorem chgOfPhiMatchesInit : Obligations.ChgOfPhiMatchesInit := by
  intro s t phi d ra rb hfresh hb hdir hthb hphi h hr
  obtain ⟨hT, -⟩ := hfresh d hdir
  have hsame : fneq d.thb d.thb = false := fneq_self hthb
  obtain ⟨d', d'', ht, hp, rfl, rfl⟩ := updates_of_exec_chg hdir h hr
  obtain ⟨hne, -⟩ | ⟨-, rfl⟩ := updateTheta_ok_iff.mp ht
  · rw [hsame] at hne
    cases hne
  · obtain ⟨-, m, hm, rfl⟩ | ⟨heq, -⟩ := updatePhi_ok_iff.mp hp
    · refine ⟨by rw [changeMask_eq, hsame, hphi]; rfl, ?_⟩
      rw [exec_init_of_axisRow hb hT hm]
      rfl
    · rw [hphi] at heq
      cases heq

/-! ## The sign of a zero -/

/-- Lookup sees a finite argument only through its value. -/
theorem lookup_congr_units {s : State} {x y : F} (hx : isFinite x = true) (hy : isFinite y = true)
    (h : units x = units y) : lookup s x = lookup s y := by
  simp only [lookup, wrap, hx, hy, h]

/-- A product with a zero is a zero. -/
theorem units_fmul_zero {a b : F} (ha : isFinite a = true) (hb : isFinite b = true) (h0 : units a = 0) :
    isFinite (fmul a b) = true ∧ units (fmul a b) = 0 := by
  have hprod : valueOf a * valueOf b = 0 := by rw [(valueOf_eq_zero_iff_units a).mpr h0, zero_mul]
  rw [fmul_of_isFinite ha hb, if_pos hprod, units_pack (by decide)]
  exact ⟨isFinite_pack_zero _, by simp⟩

/-- A sum with a zero has the value of the other operand. -/
theorem units_fadd_zero {a b : F} (ha : isFinite a = true) (hb : isFinite b = true) (h0 : units a = 0) :
    isFinite (fadd a b) = true ∧ units (fadd a b) = units b := by
  rw [fadd_of_isFinite ha hb, (valueOf_eq_zero_iff_units a).mpr h0, zero_add]
  split
  · next hb0 => exact ⟨isFinite_pack_zero _, by rw [units_pack (by decide), (valueOf_eq_zero_iff_units b).mp hb0]; simp⟩
  · next hb0 =>
    have hsame : rneRat (valueOf b) = b := by
      rw [valueOf, ← rneUnits_eq_rneRat]
      exact rneUnits_units hb fun h => hb0 ((valueOf_eq_zero_iff_units b).mpr h)
    rw [hsame]
    exact ⟨hb, rfl⟩

/-- The length of any state is finite in binary32, and so is a quarter of it. -/
theorem isFinite_toF_tableLen (s : State) : isFinite (toF s.tableLen) = true := by
  have hlen : s.tableLen < 2 ^ 32 := s.tlen.isLt
  rw [toF, rneSigned, isFinite_pack (roundMag_lt ..), decide_eq_true_iff, roundMag_lt_infMag_iff Nat.one_pos]
  unfold overflowUnits
  omega

theorem isFinite_quarterOffset (s : State) : isFinite s.quarterOffset = true := by
  have hfour : valueOf fFour = 4 := by decide +kernel
  refine isFinite_fdiv (isFinite_toF_tableLen s) (by decide) (by rw [hfour]; norm_num) ?_
  have habs := abs_valueOf_le (isFinite_toF_tableLen s)
  rw [hfour, abs_div, abs_of_pos (by norm_num : (0 : ℚ) < 4), div_lt_iff₀ (by norm_num)]
  exact habs.trans_lt (by norm_num)

theorem units_scaledArg_zero (s : State) {z : F} (hz : isFinite z = true) (h0 : units z = 0) {q : Nat} (hq : q < 3) :
    isFinite (scaledArg s z q) = true ∧ units (scaledArg s z q) = 0 := by
  obtain ⟨hfin, hzero⟩ := units_fmul_zero hz (isFinite_toF_tableLen s) h0
  exact units_fmul_zero hfin (isFinite_toF (by omega)) hzero

/-- Settles O27: for both zeros every scaled argument is a zero, and Lookup does not see its sign. -/
theorem axisRowIgnoresTheSignOfZero : Obligations.AxisRowIgnoresTheSignOfZero := by
  intro s
  have hdirect {q : Nat} (hq : q < 3) :
      lookup s (scaledArg s 0x80000000 q) = lookup s (scaledArg s 0x00000000 q) := by
    obtain ⟨hfin, hzero⟩ := units_scaledArg_zero s (z := 0x80000000) (by decide) (by decide) hq
    obtain ⟨hfin', hzero'⟩ := units_scaledArg_zero s (z := 0x00000000) (by decide) (by decide) hq
    exact lookup_congr_units hfin hfin' (by rw [hzero, hzero'])
  have hquarter {q : Nat} (hq : q < 3) : lookup s (fadd (scaledArg s 0x80000000 q) s.quarterOffset) =
      lookup s (fadd (scaledArg s 0x00000000 q) s.quarterOffset) := by
    obtain ⟨hfin, hzero⟩ := units_scaledArg_zero s (z := 0x80000000) (by decide) (by decide) hq
    obtain ⟨hfin', hzero'⟩ := units_scaledArg_zero s (z := 0x00000000) (by decide) (by decide) hq
    obtain ⟨hsum, hunits⟩ := units_fadd_zero hfin (isFinite_quarterOffset s) hzero
    obtain ⟨hsum', hunits'⟩ := units_fadd_zero hfin' (isFinite_quarterOffset s) hzero'
    exact lookup_congr_units hsum hsum' (by rw [hunits, hunits'])
  simp only [axisRow, hdirect (q := 0) (by decide), hdirect (q := 1) (by decide), hdirect (q := 2) (by decide),
    hquarter (q := 0) (by decide), hquarter (q := 1) (by decide), hquarter (q := 2) (by decide)]

end Sys2Proof.Machine
end

section
/-! PROOFS. The ParameterRamp (43_ramp.md sections 2 to 4). `Ramp.next` has three cases, one for each path through the four
numbered steps of R171; a run of calls with one target takes the first case once, the second up to call BS, and the
third from there on (`Ramp.next_afterCalls`). -/

namespace Sys2Proof.Machine

/-! ## One call -/

/-- A changed input takes the increment from the current output and the first step (R171 steps 1 and 3, R173). -/
theorem Ramp.next_of_changed {g : Ramp} {x inc : F} (hne : fneq x g.pin = true)
    (hinc : inc = fdiv (fsub x g.pout) (toF (u32 g.bs))) :
    g.next x = { g with pin := x, pout := fadd g.pout inc, inc := inc, rem := g.bs - 1, ramping := g.bs - 1 != 0 } := by
  subst hinc
  simp only [Ramp.next, Ramp.retarget, Ramp.advance, hne, if_true]

/-- An unchanged input while Ramping takes the next step (R171 step 3). -/
theorem Ramp.next_of_ramping {g : Ramp} {x : F} (hne : fneq x g.pin = false) (hr : g.ramping = true) :
    g.next x = { g with pin := x, pout := fadd g.pout g.inc, rem := g.rem - 1, ramping := g.rem - 1 != 0 } := by
  simp only [Ramp.next, Ramp.retarget, Ramp.advance, hne, hr, Bool.false_eq_true, if_false, if_true]

/-- An unchanged input while Idle passes through (R171 step 4). -/
theorem Ramp.next_of_idle {g : Ramp} {x : F} (hne : fneq x g.pin = false) (hr : g.ramping = false) :
    g.next x = { g with pin := x, pout := x } := by
  simp only [Ramp.next, Ramp.retarget, Ramp.advance, hne, hr, Bool.false_eq_true, if_false]

theorem rampStep_of_finite {g : Ramp} {x : F} (hx : isFinite x = true) (hinc : isFinite (g.next x).inc = true)
    (hpout : isFinite (g.next x).pout = true) : rampStep g x = .ok (g.next x) :=
  rampStep_ok_iff.mpr ⟨hx, hinc, hpout, rfl⟩

theorem exec_rproc_of_finite {s : State} {r : RampId} {x : F} {g : Ramp} (hcfg : (s.ramp r).cfg = true)
    (hx : isFinite x = true) (hnext : (s.ramp r).next x = g) (hinc : isFinite g.inc = true)
    (hpout : isFinite g.pout = true) : exec (.rproc r x) s = .next ((s.setRamp r g).respond g.pout 0) := by
  subst hnext
  simp only [exec, execRproc, hcfg, rampStep_of_finite hx hinc hpout, Bool.not_true, raiseIf_false, ok_bind, finish_ok]

/-- Settles O34. -/
theorem rprocFollowsTheFourSteps : Obligations.RprocFollowsTheFourSteps := by
  intro s x r hcfg hx
  refine ⟨fun hne inc out hinc hout hfin hofin => ?_, fun hne hr hfin out hout hofin => ?_, fun hne hr hfin => ?_⟩
  · subst hout
    exact exec_rproc_of_finite hcfg hx (Ramp.next_of_changed hne hinc) hfin hofin
  · subst hout
    exact exec_rproc_of_finite hcfg hx (Ramp.next_of_ramping hne hr) hfin hofin
  · exact exec_rproc_of_finite hcfg hx (Ramp.next_of_idle hne hr) hfin hx

/-! ## A run of calls with one target -/

/-- The ramp after a number of calls with target `x`, whose outputs are `o` (R174). -/
def Ramp.afterCalls (g : Ramp) (x inc : F) (o : Nat → F) : Nat → Ramp
  | 0 => g
  | k + 1 =>
    { g with
      pin := x, pout := o (k + 1), inc := inc, rem := BitVec.ofNat 32 (u32 g.bs - (k + 1)),
      ramping := decide (k + 1 < u32 g.bs) }

/-- Counting the remaining steps down by one. -/
theorem rem_sub_one {n : Word} {k : Nat} (hk : k < u32 n) :
    BitVec.ofNat 32 (u32 n - k) - 1 = BitVec.ofNat 32 (u32 n - (k + 1)) ∧
      (BitVec.ofNat 32 (u32 n - (k + 1)) != 0) = decide (k + 1 < u32 n) := by
  have hn : u32 n < 2 ^ 32 := n.isLt
  constructor
  · refine BitVec.eq_of_toNat_eq ?_
    rw [BitVec.toNat_sub, BitVec.toNat_ofNat, BitVec.toNat_ofNat]
    simp
    omega
  · rw [Bool.eq_iff_iff, bne_iff_ne, decide_eq_true_iff, ne_eq, ← BitVec.toNat_inj, BitVec.toNat_ofNat]
    simp
    omega

section
variable {g : Ramp} {x inc : F} {o : Nat → F} (hbs : 1 ≤ u32 g.bs) (hx : isFinite x = true)
  (hne : fneq x g.pin = true) (hinc : inc = fdiv (fsub x g.pout) (toF (u32 g.bs))) (ho0 : o 0 = g.pout)
  (ho : ∀ k, o (k + 1) = if k < u32 g.bs then fadd (o k) inc else x)

include hbs hx hne hinc ho0 ho in
theorem Ramp.next_afterCalls (k : Nat) : (g.afterCalls x inc o k).next x = g.afterCalls x inc o (k + 1) := by
  cases k with
  | zero =>
    have hself : BitVec.ofNat 32 (u32 g.bs - 0) = g.bs := by simp [u32]
    obtain ⟨hrem, hramping⟩ := rem_sub_one (n := g.bs) (k := 0) hbs
    rw [hself] at hrem
    have hout : o 1 = fadd g.pout inc := by rw [ho 0, if_pos (by omega), ho0]
    rw [Ramp.afterCalls, Ramp.next_of_changed hne hinc, Ramp.afterCalls, hout, ← hramping, ← hrem]
  | succ k =>
    have hsame : fneq x (g.afterCalls x inc o (k + 1)).pin = false := fneq_self hx
    by_cases hk : k + 1 < u32 g.bs
    · obtain ⟨hrem, hramping⟩ := rem_sub_one hk
      have hout : o (k + 1 + 1) = fadd (o (k + 1)) inc := by rw [ho (k + 1), if_pos hk]
      rw [Ramp.next_of_ramping hsame (decide_eq_true hk), Ramp.afterCalls, Ramp.afterCalls, hout, ← hramping, ← hrem]
    · have hout : o (k + 1 + 1) = x := by rw [ho (k + 1), if_neg hk]
      have hrem : u32 g.bs - (k + 1) = u32 g.bs - (k + 1 + 1) := by omega
      have hidle : decide (k + 1 < u32 g.bs) = decide (k + 1 + 1 < u32 g.bs) := by
        rw [decide_eq_false hk, decide_eq_false (by omega)]
      rw [Ramp.next_of_idle hsame (decide_eq_false hk), Ramp.afterCalls, Ramp.afterCalls, hout, ← hidle, ← hrem]

end

/-- An exact chain reaches the target at call BS. -/
theorem valueOf_output_of_exact {p inc x : F} {n : Nat} {o : Nat → F} (hn : 1 ≤ n) (ho0 : o 0 = p)
    (hsub : valueOf (fsub x p) = valueOf x - valueOf p) (hdiv : valueOf inc = valueOf (fsub x p) / n)
    (hadd : ∀ k, k < n → valueOf (o (k + 1)) = valueOf (o k) + valueOf inc) : valueOf (o n) = valueOf x := by
  have hchain {k : Nat} (hk : k ≤ n) : valueOf (o k) = valueOf p + k * valueOf inc := by
    induction k with
    | zero => simp [ho0]
    | succ k ih =>
      rw [hadd k (by omega), ih (by omega)]
      push_cast
      ring
  have hn0 : (n : ℚ) ≠ 0 := by exact_mod_cast (by omega : n ≠ 0)
  rw [hchain le_rfl, hdiv, hsub, mul_div_cancel₀ _ hn0]
  ring

/-- The state after a number of calls (R174, R175). -/
def callState (s : State) (r : RampId) (x inc : F) (o : Nat → F) : Nat → State
  | 0 => s
  | k + 1 => (s.setRamp r ((s.ramp r).afterCalls x inc o (k + 1))).respond (o (k + 1)) 0

theorem callState_ramp (s : State) (r : RampId) (x inc : F) (o : Nat → F) (k : Nat) :
    (callState s r x inc o k).ramp r = (s.ramp r).afterCalls x inc o k := by
  cases k <;> simp [callState, Ramp.afterCalls]

/-- A call overwrites the ramp and the response of the calls before it. -/
theorem callState_setRamp (s : State) (r : RampId) (x inc : F) (o : Nat → F) (k : Nat) (g : Ramp) (y : F) :
    ((callState s r x inc o k).setRamp r g).respond y 0 = (s.setRamp r g).respond y 0 := by
  cases k <;> cases r <;> rfl

/-- Settles O35. -/
theorem rampReachesItsTargetInBlockSizeCalls : Obligations.RampReachesItsTargetInBlockSizeCalls := by
  intro s r x inc o n hcfg hbs hx hne hinc hincfin ho0 ho hofin
  refine ⟨⟨callState s r x inc o, rfl, fun k hk => ⟨?_, rfl⟩⟩, fun hle hsub hdiv hadd => ?_⟩
  · have hnext : ((callState s r x inc o k).ramp r).next x = (s.ramp r).afterCalls x inc o (k + 1) := by
      rw [callState_ramp, Ramp.next_afterCalls hbs hx hne hinc ho0 ho]
    have hcfg' : ((callState s r x inc o k).ramp r).cfg = true := by
      rw [callState_ramp]
      cases k <;> exact hcfg
    rw [exec_rproc_of_finite hcfg' hx hnext hincfin (hofin k hk), callState_setRamp]
    rfl
  · have hreach := valueOf_output_of_exact hbs ho0 hsub hdiv hadd
    refine ⟨hreach, fun hx0 => ?_⟩
    have hlast := hofin (u32 (s.ramp r).bs - 1) (by omega)
    rw [Nat.sub_add_cancel hbs] at hlast
    refine eq_of_units_eq hlast hx (valueOf_inj_units.mp hreach) fun h0 => hx0 ?_
    rw [← hreach]
    exact (valueOf_eq_zero_iff_units _).mpr h0

end Sys2Proof.Machine
end

section
/-! PROOFS. DIRSTEP (44_system.md section 1): both ramp steps and both halves of the recompute, and the same from RPROC, RPROC
and CHG, which see the table and each other's writes unchanged. -/

namespace Sys2Proof.Machine

theorem exec_rproc_of_step {s : State} {r : RampId} {x : F} {g : Ramp} (hcfg : (s.ramp r).cfg = true)
    (hg : rampStep (s.ramp r) x = .ok g) : exec (.rproc r x) s = .next ((s.setRamp r g).respond g.pout 0) := by
  simp only [exec, execRproc, hcfg, hg, Bool.not_true, raiseIf_false, ok_bind, finish_ok]

theorem rampStep_of_rampInputFinite {g : Ramp} {x : F} (h : rampInputFinite g x = true) :
    rampStep g x = .ok (g.next x) := by
  obtain ⟨⟨hx, hinc⟩, hpout⟩ : (isFinite x = true ∧ isFinite (g.next x).inc = true) ∧
      isFinite (g.next x).pout = true := by simpa [rampInputFinite] using h
  exact rampStep_of_finite hx hinc hpout

theorem exec_dirstep_of_steps {s : State} {az el : F} {d d' d'' : Direction} {g0 g1 : Ramp}
    (h0 : s.ramp0.cfg = true) (h1 : s.ramp1.cfg = true) (hdir : s.dir = some d) (hg0 : rampStep s.ramp0 az = .ok g0)
    (hg1 : rampStep s.ramp1 el = .ok g1) (ht : updateTheta s g0.pout d = .ok d')
    (hp : updatePhi s g1.pout d' = .ok d'') :
    exec (.dirstep az el) s =
      .next ((((s.setRamp .az g0).setRamp .el g1).setDir d'').respond g0.pout g1.pout) := by
  simp only [exec, execDirstep, h0, h1, requireDirection_of_dir hdir, hg0, hg1, ht, hp, Bool.not_true, Bool.or_self,
    raiseIf_false, ok_bind, finish_ok]

/-- Settles O36. -/
theorem dirstepStepsBothRampsAndTheDirection : Obligations.DirstepStepsBothRampsAndTheDirection := by
  intro s az el d hs h0 h1 hdir hfin
  obtain ⟨⟨⟨hin0, hin1⟩, htheta⟩, hphi⟩ :
      ((rampInputFinite s.ramp0 az = true ∧ rampInputFinite s.ramp1 el = true) ∧
        axisOverflows s (s.ramp0.next az).pout d.thb = false) ∧
        axisOverflows s (s.ramp1.next el).pout d.phb = false := by
    simpa [nonfiniteInput, hdir] using hfin
  obtain ⟨d', d'', ht, hp, hT, hP⟩ := updates_of_not_overflows hs (hs.built_of_dir hdir) htheta hphi
  exact ⟨d'', exec_dirstep_of_steps h0 h1 hdir (rampStep_of_rampInputFinite hin0) (rampStep_of_rampInputFinite hin1) ht hp,
    hT, hP⟩

/-- A DIRSTEP that succeeds has run both ramp steps and both halves of the update. -/
theorem steps_of_exec_dirstep {s t : State} {az el a e : F} (h : exec (.dirstep az el) s = .next t)
    (hr : t.response = some (.ok a e)) :
    ∃ g0 g1 d d' d'', s.ramp0.cfg = true ∧ s.ramp1.cfg = true ∧ s.dir = some d ∧ rampStep s.ramp0 az = .ok g0 ∧
      rampStep s.ramp1 el = .ok g1 ∧ updateTheta s g0.pout d = .ok d' ∧ updatePhi s g1.pout d' = .ok d'' ∧
      g0.pout = a ∧ g1.pout = e ∧ t = (((s.setRamp .az g0).setRamp .el g1).setDir d'').respond a e := by
  rcases finish_next_iff.mp h with ⟨g, hg, rfl⟩ | ⟨c, -, rfl⟩
  · simp only [bind_ok_iff, raiseIf_ok_iff, requireDirection_ok_iff] at hg
    obtain ⟨-, hcfg, d, hdir, g0, hg0, g1, hg1, d', ht, d'', hp, hg⟩ := hg
    cases hg
    obtain ⟨h0, h1⟩ : s.ramp0.cfg = true ∧ s.ramp1.cfg = true := by simpa using hcfg
    obtain ⟨rfl, rfl⟩ : g0.pout = a ∧ g1.pout = e := by simpa using hr
    exact ⟨g0, g1, d, d', d'', h0, h1, hdir, hg0, hg1, ht, hp, rfl, rfl, rfl⟩
  · simp at hr

/-- Settles O37. -/
theorem dirstepEqualsItsThreeCommands : Obligations.DirstepEqualsItsThreeCommands := by
  intro s t az el a e h hr
  obtain ⟨g0, g1, d, d', d'', h0, h1, hdir, hg0, hg1, ht, hp, rfl, rfl, rfl⟩ := steps_of_exec_dirstep h hr
  have haz := exec_rproc_of_step (r := .az) h0 hg0
  have hel := exec_rproc_of_step (s := (s.setRamp .az g0).respond g0.pout 0) (r := .el) h1 hg1
  have hchg := exec_chg_of_updates
    (s := (((s.setRamp .az g0).respond g0.pout 0).setRamp .el g1).respond g1.pout 0) hdir
    ((updateTheta_congr rfl rfl g0.pout d).trans ht) ((updatePhi_congr rfl rfl g1.pout d').trans hp)
  exact ⟨_, _, _, _, haz, rfl, hel, rfl, hchg, rfl, rfl⟩

end Sys2Proof.Machine
end

section
/-! PROOFS. Once for all commands: what a command that succeeds has written (`Commits`), which test rejects it, and when it meets
a non-finite value. The statements about rejections (60_exceptions.md sections 1 and 2) are read off from there. -/

namespace Sys2Proof.Machine

/-! ## The body of a command -/

/-- The body of each command, which `finish` commits or discards. -/
def body : Instr → State → Except Raise Staged
  | .nop, s => .ok ⟨s, 0, 0⟩
  | .build n, s => do
    raiseIf s.built .order
    raiseIf (decide (u32 n = 0) || decide (s.cfg.lMax < u32 n)) .config
    .ok ⟨s.setTable n (buildTable s.cfg (u32 n) s.tbl), 0, 0⟩
  | .lksin x, s => do
    raiseIf (!s.built) .order
    let y ← lookup s x
    .ok ⟨s, y, 0⟩
  | .lkcos x, s => do
    raiseIf (!s.built) .order
    raiseIf (!isFinite x) .nonfinite
    let y ← lookup s (fadd x s.quarterOffset)
    .ok ⟨s, y, 0⟩
  | .init theta phi, s => do
    raiseIf (!s.built) .order
    let t ← axisRow s theta
    let p ← axisRow s phi
    .ok ⟨s.setDir { t := t, p := p, thb := theta, phb := phi }, 0, 0⟩
  | .chg theta phi, s => do
    let d ← requireDirection s
    let d' ← updateTheta s theta d
    let d'' ← updatePhi s phi d'
    .ok ⟨s.setDir d'', changeMask theta phi d, 0⟩
  | .matrd ax p q, s => do
    let d ← requireDirection s
    .ok ⟨s, (d.matrix ax).entry p q, 0⟩
  | .chan k sample, s => do
    let d ← requireDirection s
    if h : k < 16 then .ok ⟨s, fmul sample (weight d ⟨k, h⟩), 0⟩ else .error (.cause .channel)
  | .rnew r n, s => do
    raiseIf (decide (u32 n = 0) || decide (s.cfg.bsMax < u32 n)) .config
    .ok ⟨s.setRamp r (Ramp.fresh n), 0, 0⟩
  | .rproc r x, s => do
    raiseIf (!(s.ramp r).cfg) .order
    let g ← rampStep (s.ramp r) x
    .ok ⟨s.setRamp r g, g.pout, 0⟩
  | .dirstep azimuth elevation, s => do
    raiseIf (!s.ramp0.cfg || !s.ramp1.cfg) .order
    let d ← requireDirection s
    let g0 ← rampStep s.ramp0 azimuth
    let g1 ← rampStep s.ramp1 elevation
    let d' ← updateTheta s g0.pout d
    let d'' ← updatePhi s g1.pout d'
    .ok ⟨((s.setRamp .az g0).setRamp .el g1).setDir d'', g0.pout, g1.pout⟩
  | .rdstat, s => .ok ⟨s, s.status, s.tlen⟩
  | .clrerr, s => .ok ⟨s.clearErrors, 0, 0⟩

/-- The helper is the model's: every meaning is the end of its body. -/
theorem exec_eq_finish_body (i : Instr) (s : State) : exec i s = finish s (body i s) := by cases i <;> rfl

/-! ## What a command commits -/

/-- The commands that write nothing but the response. -/
def onlyReads : Instr → Bool
  | .nop => true
  | .lksin _ => true
  | .lkcos _ => true
  | .matrd _ _ _ => true
  | .chan _ _ => true
  | .rdstat => true
  | .build _ => false
  | .init _ _ => false
  | .chg _ _ => false
  | .rnew _ _ => false
  | .rproc _ _ => false
  | .dirstep _ _ => false
  | .clrerr => false

/-- The state with its writes that a successful command commits, before the response, and what it has checked for. -/
inductive Commits (s : State) : Instr → State → Prop
  | same {i : Instr} (hi : onlyReads i = true) : Commits s i s
  | build {n : Word} (hb : s.built = false) (h1 : 1 ≤ u32 n) (hle : u32 n ≤ s.cfg.lMax) :
    Commits s (.build n) (s.setTable n (buildTable s.cfg (u32 n) s.tbl))
  | init {theta phi : F} {mt mp : AxisMatrix} (hb : s.built = true) (ht : axisRow s theta = .ok mt)
    (hp : axisRow s phi = .ok mp) :
    Commits s (.init theta phi) (s.setDir { t := mt, p := mp, thb := theta, phb := phi })
  | chg {theta phi : F} {d d' d'' : Direction} (hdir : s.dir = some d) (ht : updateTheta s theta d = .ok d')
    (hp : updatePhi s phi d' = .ok d'') : Commits s (.chg theta phi) (s.setDir d'')
  | rnew {r : RampId} {n : Word} (h1 : 1 ≤ u32 n) (hle : u32 n ≤ s.cfg.bsMax) :
    Commits s (.rnew r n) (s.setRamp r (Ramp.fresh n))
  | rproc {r : RampId} {x : F} {g : Ramp} (hcfg : (s.ramp r).cfg = true) (hg : rampStep (s.ramp r) x = .ok g) :
    Commits s (.rproc r x) (s.setRamp r g)
  | dirstep {az el : F} {d d' d'' : Direction} {g0 g1 : Ramp} (h0 : s.ramp0.cfg = true) (h1 : s.ramp1.cfg = true)
    (hdir : s.dir = some d) (hg0 : rampStep s.ramp0 az = .ok g0) (hg1 : rampStep s.ramp1 el = .ok g1)
    (ht : updateTheta s g0.pout d = .ok d') (hp : updatePhi s g1.pout d' = .ok d'') :
    Commits s (.dirstep az el) (((s.setRamp .az g0).setRamp .el g1).setDir d'')
  | clrerr : Commits s .clrerr s.clearErrors

/-- The range tests of BUILD and RNEW (60_exceptions.md R213). -/
theorem range_iff {n max : Nat} : (decide (n = 0) || decide (max < n)) = false ↔ 1 ≤ n ∧ n ≤ max := by
  simp only [Bool.or_eq_false_iff, decide_eq_false_iff_not]
  omega

theorem body_ok {i : Instr} {s : State} {g : Staged} (h : body i s = .ok g) : Commits s i g.state := by
  cases i
  all_goals
    simp only [body, bind_ok_iff, raiseIf_ok_iff, requireDirection_ok_iff, Except.ok.injEq, Bool.not_eq_false'] at h
  case nop | rdstat =>
    subst h
    exact .same rfl
  case clrerr =>
    subst h
    exact .clrerr
  case build n =>
    obtain ⟨-, hb, -, hrange, rfl⟩ := h
    obtain ⟨h1, hle⟩ := range_iff.mp hrange
    exact .build hb h1 hle
  case lksin x =>
    obtain ⟨-, -, y, -, rfl⟩ := h
    exact .same rfl
  case lkcos x =>
    obtain ⟨-, -, -, -, y, -, rfl⟩ := h
    exact .same rfl
  case init theta phi =>
    obtain ⟨-, hb, mt, ht, mp, hp, rfl⟩ := h
    exact .init hb ht hp
  case chg theta phi =>
    obtain ⟨d, hdir, d', ht, d'', hp, rfl⟩ := h
    exact .chg hdir ht hp
  case matrd ax p q =>
    obtain ⟨d, -, rfl⟩ := h
    exact .same rfl
  case chan k x =>
    obtain ⟨d, -, h⟩ := h
    split at h
    · cases h
      exact .same rfl
    · cases h
  case rnew r n =>
    obtain ⟨-, hrange, rfl⟩ := h
    obtain ⟨h1, hle⟩ := range_iff.mp hrange
    exact .rnew h1 hle
  case rproc r x =>
    obtain ⟨-, hcfg, g', hg, rfl⟩ := h
    exact .rproc hcfg hg
  case dirstep az el =>
    obtain ⟨-, hcfg, d, hdir, g0, hg0, g1, hg1, d', ht, d'', hp, rfl⟩ := h
    obtain ⟨h0, h1⟩ : s.ramp0.cfg = true ∧ s.ramp1.cfg = true := by simpa using hcfg
    exact .dirstep h0 h1 hdir hg0 hg1 ht hp

/-- Everything a command that answers can do: commit and respond, or reject. -/
theorem exec_next_cases {i : Instr} {s t : State} (h : exec i s = .next t) :
    (∃ u ra rb, Commits s i u ∧ t = u.respond ra rb) ∨ ∃ c, body i s = .error (.cause c) ∧ t = s.reject c := by
  rw [exec_eq_finish_body] at h
  rcases finish_next_iff.mp h with ⟨g, hg, rfl⟩ | ⟨c, hc, rfl⟩
  · exact .inl ⟨g.state, g.ra, g.rb, body_ok hg, rfl⟩
  · exact .inr ⟨c, hc, rfl⟩

/-- A response of rejection comes from the body. -/
theorem rejected_iff_body {i : Instr} {s t : State} (h : exec i s = .next t) (c : Cause) :
    t.response = some (.rejected c) ↔ body i s = .error (.cause c) := by
  rw [exec_eq_finish_body] at h
  rcases finish_next_iff.mp h with ⟨g, hg, rfl⟩ | ⟨c', hc', rfl⟩
  · simp [hg]
  · simp [hc']

/-- Settles O46. -/
theorem successLeavesTheErrorRecord : Obligations.SuccessLeavesTheErrorRecord := by
  intro i s t ra rb hi h hr
  rcases exec_next_cases h with ⟨u, ra', rb', hu, rfl⟩ | ⟨c, -, rfl⟩
  · cases hu
    case clrerr => exact absurd rfl hi
    all_goals simp
  · simp at hr

/-- The rows of 10_state.md R34 for what a command commits. -/
structure FrameOf (i : Instr) (s u : State) : Prop where
  cfg : u.cfg = s.cfg
  pending : u.pending = s.pending
  position : u.position = s.position
  errors : i ≠ .clrerr → u.sticky = s.sticky ∧ u.lastCause = s.lastCause
  table : (∀ n, i ≠ .build n) → u.tlen = s.tlen ∧ u.tbl = s.tbl
  dir : (∀ x y, i ≠ .init x y ∧ i ≠ .chg x y ∧ i ≠ .dirstep x y) → u.dir = s.dir
  dinit : (∀ x y, i ≠ .init x y) → u.dinit = s.dinit
  ramp : ∀ r, (∀ n, i ≠ .rnew r n) → (∀ x, i ≠ .rproc r x) → (∀ x y, i ≠ .dirstep x y) → u.ramp r = s.ramp r

theorem Commits.frameOf {i : Instr} {s u : State} (hu : Commits s i u) : FrameOf i s u := by
  have hdinit {d : Direction} (hdir : s.dir = some d) : s.dinit = true := s.dinit_iff.mpr ⟨d, hdir⟩
  cases hu
  case same => exact ⟨rfl, rfl, rfl, fun _ => ⟨rfl, rfl⟩, fun _ => ⟨rfl, rfl⟩, fun _ => rfl, fun _ => rfl, fun _ _ _ _ => rfl⟩
  case build n _ _ _ =>
    exact ⟨rfl, rfl, rfl, fun _ => ⟨rfl, rfl⟩, fun h => absurd rfl (h n), fun _ => rfl, fun _ => rfl, fun r _ _ _ => by simp⟩
  case init theta phi _ _ _ _ _ =>
    exact ⟨rfl, rfl, rfl, fun _ => ⟨rfl, rfl⟩, fun _ => ⟨rfl, rfl⟩, fun h => absurd rfl (h theta phi).1,
      fun h => absurd rfl (h theta phi), fun r _ _ _ => by simp⟩
  case chg theta phi _ _ _ hdir _ _ =>
    exact ⟨rfl, rfl, rfl, fun _ => ⟨rfl, rfl⟩, fun _ => ⟨rfl, rfl⟩, fun h => absurd rfl (h theta phi).2.1,
      fun _ => by simp [hdinit hdir], fun r _ _ _ => by simp⟩
  case rnew r n _ _ =>
    exact ⟨by simp, by simp, by simp, fun _ => by simp, fun _ => by simp, fun _ => by simp, fun _ => by simp,
      fun r' h _ _ => s.setRamp_ramp_other _ fun hr => h n (by rw [hr])⟩
  case rproc r x _ _ _ =>
    exact ⟨by simp, by simp, by simp, fun _ => by simp, fun _ => by simp, fun _ => by simp, fun _ => by simp,
      fun r' _ h _ => s.setRamp_ramp_other _ fun hr => h x (by rw [hr])⟩
  case dirstep az el _ _ _ _ _ _ _ hdir _ _ _ _ =>
    exact ⟨by simp, by simp, by simp, fun _ => by simp, fun _ => by simp, fun h => absurd rfl (h az el).2.2,
      fun _ => by simp [hdinit hdir], fun r _ _ h => absurd rfl (h az el)⟩
  case clrerr =>
    exact ⟨rfl, rfl, rfl, fun h => absurd rfl h, fun _ => ⟨rfl, rfl⟩, fun _ => rfl, fun _ => rfl, fun r _ _ _ => by simp⟩

/-- Settles O47. -/
theorem onlyTheNamedCommandsWrite : Obligations.OnlyTheNamedCommandsWrite := by
  intro i s t h
  rcases exec_next_cases h with ⟨u, ra, rb, hu, rfl⟩ | ⟨c, -, rfl⟩
  · have hf := hu.frameOf
    exact ⟨hf.cfg, hf.pending, hf.position, fun hi _ => hf.errors hi,
      fun hi => ⟨(hf.table hi).1, fun a => by rw [State.respond_tbl, (hf.table hi).2]⟩, hf.dir, hf.dinit,
      fun r h1 h2 h3 => by rw [State.respond_ramp, hf.ramp r h1 h2 h3]⟩
  · exact ⟨rfl, rfl, rfl, fun _ hr => absurd rfl (hr c), fun _ => ⟨rfl, fun _ => rfl⟩, fun _ => rfl, fun _ => rfl,
      fun r _ _ _ => by simp⟩

/-! ## Rejections -/

/-- With its prerequisite missing a command is rejected with ORDER, before any test of its operands (R215). -/
theorem body_of_missing {i : Instr} {s : State} (h : missingPrerequisite i s = true) :
    body i s = .error (.cause .order) := by
  have hnone (hd : (!s.dinit) = true) : requireDirection s = .error (.cause .order) :=
    requireDirection_error_iff.mpr ⟨by simpa [State.dinit] using hd, rfl⟩
  cases i <;> simp only [missingPrerequisite, Bool.false_eq_true] at h
  case build n => simp only [body, h, raiseIf_true, error_bind]
  case lksin x => simp only [body, h, raiseIf_true, error_bind]
  case lkcos x => simp only [body, h, raiseIf_true, error_bind]
  case init theta phi => simp only [body, h, raiseIf_true, error_bind]
  case chg theta phi => simp only [body, hnone h, error_bind]
  case matrd ax p q => simp only [body, hnone h, error_bind]
  case chan k x => simp only [body, hnone h, error_bind]
  case rproc r x => simp only [body, h, raiseIf_true, error_bind]
  case dirstep az el =>
    cases hcfg : !s.ramp0.cfg || !s.ramp1.cfg
    case true => simp only [body, hcfg, raiseIf_true, error_bind]
    case false =>
      rw [hcfg, Bool.false_or] at h
      simp only [body, hcfg, raiseIf_false, ok_bind, hnone h, error_bind]

theorem body_of_configOutOfRange {i : Instr} {s : State} (hm : missingPrerequisite i s = false)
    (h : configOutOfRange i s = true) : body i s = .error (.cause .config) := by
  cases i <;> simp only [configOutOfRange, Bool.false_eq_true] at h
  case build n =>
    rw [missingPrerequisite] at hm
    simp only [body, hm, h, raiseIf_false, raiseIf_true, ok_bind, error_bind]
  case rnew r n => simp only [body, h, raiseIf_true, error_bind]

theorem body_of_channelOutOfRange {i : Instr} {s : State} (hm : missingPrerequisite i s = false)
    (h : channelOutOfRange i = true) : body i s = .error (.cause .channel) := by
  cases i <;> simp only [channelOutOfRange, Bool.false_eq_true] at h
  case chan k x =>
    have hk : ¬ k < 16 := by have := of_decide_eq_true h; omega
    obtain ⟨d, hdir⟩ := s.dinit_iff.mp (by simpa [missingPrerequisite] using hm)
    simp only [body, requireDirection_of_dir hdir, ok_bind, hk, dite_false]

theorem updateTheta_cause {s : State} {v : F} {d : Direction} {c : Cause}
    (h : updateTheta s v d = .error (.cause c)) : c = .nonfinite := by
  unfold updateTheta at h
  split at h
  · rcases bind_error_iff.mp h with h | ⟨m, -, h⟩
    · exact axisRow_cause h
    · cases h
  · cases h

theorem updatePhi_cause {s : State} {v : F} {d : Direction} {c : Cause}
    (h : updatePhi s v d = .error (.cause c)) : c = .nonfinite := by
  unfold updatePhi at h
  split at h
  · rcases bind_error_iff.mp h with h | ⟨m, -, h⟩
    · exact axisRow_cause h
    · cases h
  · cases h

theorem rampStep_cause {g : Ramp} {x : F} {c : Cause} (h : rampStep g x = .error (.cause c)) : c = .nonfinite := by
  injection rampStep_error h

/-- With prerequisite and ranges met, the only cause left is NONFINITE. -/
theorem cause_of_body_of_met {i : Instr} {s : State} {c : Cause} (hm : missingPrerequisite i s = false)
    (hconf : configOutOfRange i s = false) (hchan : channelOutOfRange i = false)
    (h : body i s = .error (.cause c)) : c = .nonfinite := by
  have hdir (hd : (!s.dinit) = false) : ∃ d, requireDirection s = .ok d := by
    obtain ⟨d, hd⟩ := s.dinit_iff.mp (by simpa using hd)
    exact ⟨d, requireDirection_of_dir hd⟩
  cases i <;> simp only [missingPrerequisite, configOutOfRange, channelOutOfRange] at hm hconf hchan
  case nop | rdstat | clrerr => cases h
  case build n =>
    simp only [body, hm, hconf, raiseIf_false, ok_bind] at h
    cases h
  case rnew r n =>
    simp only [body, hconf, raiseIf_false, ok_bind] at h
    cases h
  case lksin x =>
    simp only [body, hm, raiseIf_false, ok_bind] at h
    rcases bind_error_iff.mp h with h | ⟨y, -, h⟩
    · exact (lookup_cause_iff.mp h).2
    · cases h
  case lkcos x =>
    simp only [body, hm, raiseIf_false, ok_bind] at h
    rcases bind_error_iff.mp h with h | ⟨-, -, h⟩
    · have hc := (raiseIf_error_iff.mp h).2
      cases hc
      rfl
    · rcases bind_error_iff.mp h with h | ⟨y, -, h⟩
      · exact (lookup_cause_iff.mp h).2
      · cases h
  case init theta phi =>
    simp only [body, hm, raiseIf_false, ok_bind] at h
    rcases bind_error_iff.mp h with h | ⟨t, -, h⟩
    · exact axisRow_cause h
    · rcases bind_error_iff.mp h with h | ⟨p, -, h⟩
      · exact axisRow_cause h
      · cases h
  case chg theta phi =>
    obtain ⟨d, hd⟩ := hdir hm
    simp only [body, hd, ok_bind] at h
    rcases bind_error_iff.mp h with h | ⟨d', -, h⟩
    · exact updateTheta_cause h
    · rcases bind_error_iff.mp h with h | ⟨d'', -, h⟩
      · exact updatePhi_cause h
      · cases h
  case matrd ax p q =>
    obtain ⟨d, hd⟩ := hdir hm
    simp only [body, hd, ok_bind] at h
    cases h
  case chan k x =>
    obtain ⟨d, hd⟩ := hdir hm
    have hk : k < 16 := by have := of_decide_eq_false hchan; omega
    simp only [body, hd, ok_bind, hk, dite_true] at h
    cases h
  case rproc r x =>
    simp only [body, hm, raiseIf_false, ok_bind] at h
    rcases bind_error_iff.mp h with h | ⟨g, -, h⟩
    · exact rampStep_cause h
    · cases h
  case dirstep az el =>
    obtain ⟨hcfg, hd⟩ := Bool.or_eq_false_iff.mp hm
    obtain ⟨d, hd⟩ := hdir hd
    simp only [body, hcfg, hd, raiseIf_false, ok_bind] at h
    rcases bind_error_iff.mp h with h | ⟨g0, -, h⟩
    · exact rampStep_cause h
    rcases bind_error_iff.mp h with h | ⟨g1, -, h⟩
    · exact rampStep_cause h
    rcases bind_error_iff.mp h with h | ⟨d', -, h⟩
    · exact updateTheta_cause h
    rcases bind_error_iff.mp h with h | ⟨d'', -, h⟩
    · exact updatePhi_cause h
    · cases h

/-- The cause of a rejection, by the first test that fails. -/
theorem cause_cases {i : Instr} {s : State} {c : Cause} (h : body i s = .error (.cause c)) :
    (c = .order ∧ missingPrerequisite i s = true) ∨
      (c = .config ∧ missingPrerequisite i s = false ∧ configOutOfRange i s = true) ∨
      (c = .channel ∧ missingPrerequisite i s = false ∧ channelOutOfRange i = true) ∨
      (c = .nonfinite ∧ missingPrerequisite i s = false ∧ configOutOfRange i s = false ∧
        channelOutOfRange i = false) := by
  have hcause {c' : Cause} (h' : body i s = .error (.cause c')) : c = c' := by
    rw [h] at h'
    cases h'
    rfl
  cases hm : missingPrerequisite i s
  case true => exact .inl ⟨hcause (body_of_missing hm), rfl⟩
  case false =>
    cases hconf : configOutOfRange i s
    case true => exact .inr (.inl ⟨hcause (body_of_configOutOfRange hm hconf), rfl, rfl⟩)
    case false =>
      cases hchan : channelOutOfRange i
      case true => exact .inr (.inr (.inl ⟨hcause (body_of_channelOutOfRange hm hchan), rfl, rfl⟩))
      case false => exact .inr (.inr (.inr ⟨cause_of_body_of_met hm hconf hchan h, rfl, rfl, rfl⟩))

/-- Settles O43. -/
theorem orderMeansAMissingPrerequisite : Obligations.OrderMeansAMissingPrerequisite := by
  refine fun i s => ⟨fun hm => ?_, fun t h => ?_⟩
  · rw [exec_eq_finish_body, body_of_missing hm, finish_cause]
  · rw [rejected_iff_body h]
    refine ⟨fun hb => ?_, body_of_missing⟩
    simpa using cause_cases hb

/-- Settles O44. -/
theorem rangeCausesFollowTheOperands : Obligations.RangeCausesFollowTheOperands := by
  intro i s t h
  simp only [ne_eq, rejected_iff_body h]
  refine ⟨⟨fun hb => ?_, fun ⟨hm, hc⟩ => body_of_configOutOfRange hm hc⟩,
    ⟨fun hb => ?_, fun ⟨hm, hc⟩ => body_of_channelOutOfRange hm hc⟩, fun hb => ?_⟩
  · simpa using cause_cases hb
  · simpa using cause_cases hb
  · simpa using cause_cases hb

/-! ## Non-finite values -/

theorem rampStep_of_not_rampInputFinite {g : Ramp} {x : F} (h : rampInputFinite g x = false) :
    rampStep g x = .error (.cause .nonfinite) := by
  cases hx : isFinite x
  case false => simp only [rampStep, hx, Bool.not_false, raiseIf_true, error_bind]
  case true =>
    have hout : (!isFinite (g.next x).inc || !isFinite (g.next x).pout) = true := by
      rw [rampInputFinite, hx, Bool.true_and] at h
      rw [← Bool.not_and, h, Bool.not_false]
    simp only [rampStep, hx, hout, Bool.not_true, raiseIf_false, raiseIf_true, ok_bind, error_bind]

section
variable {s : State} (hs : s.Shape)
include hs

/-- An update of which one axis overflows is rejected. -/
theorem updates_of_overflows (hb : s.built = true) {a e : F} {d : Direction} {β : Type} {f : Direction → Except Raise β}
    (h : (axisOverflows s a d.thb || axisOverflows s e d.phb) = true) :
    (updateTheta s a d >>= fun d' => updatePhi s e d' >>= f) = .error (.cause .nonfinite) := by
  cases ha : axisOverflows s a d.thb
  case true => rw [updateTheta_of_overflows hs hb ha, error_bind]
  case false =>
    obtain ⟨d', ht, -, hphb, -⟩ := updateTheta_of_not_overflows hs hb ha
    have he : axisOverflows s e d'.phb = true := by rw [hphb]; simpa [ha] using h
    rw [ht, ok_bind, updatePhi_of_overflows hs hb he, error_bind]

/-- A command whose prerequisite is met and that meets a non-finite value is rejected with NONFINITE. -/
theorem body_of_nonfiniteInput {i : Instr} (hm : missingPrerequisite i s = false) (h : nonfiniteInput i s = true) :
    body i s = .error (.cause .nonfinite) := by
  cases i <;> simp only [nonfiniteInput, Bool.false_eq_true] at h <;> simp only [missingPrerequisite] at hm
  case lksin x =>
    have hx : isFinite x = false := by simpa using h
    simp only [body, hm, raiseIf_false, ok_bind, lookup_of_not_isFinite hx, error_bind]
  case lkcos x => simp only [body, hm, h, raiseIf_false, raiseIf_true, ok_bind, error_bind]
  case init theta phi =>
    have hb : s.built = true := by simpa using hm
    simp only [body, hm, raiseIf_false, ok_bind]
    cases ht : axisArgsFinite s theta
    case false => rw [axisRow_of_not_args hs hb ht, error_bind]
    case true =>
      obtain ⟨m, hmt⟩ := axisRow_of_args hs hb ht
      have hp : axisArgsFinite s phi = false := by simpa [ht] using h
      rw [hmt, ok_bind, axisRow_of_not_args hs hb hp, error_bind]
  case chg theta phi =>
    obtain ⟨d, hdir⟩ := s.dinit_iff.mp (by simpa using hm)
    simp only [hdir] at h
    simp only [body, requireDirection_of_dir hdir, ok_bind]
    exact updates_of_overflows hs (hs.built_of_dir hdir) h
  case rproc r x =>
    have hin : rampInputFinite (s.ramp r) x = false := by simpa using h
    simp only [body, hm, raiseIf_false, ok_bind, rampStep_of_not_rampInputFinite hin, error_bind]
  case dirstep az el =>
    obtain ⟨hcfg, hd⟩ := Bool.or_eq_false_iff.mp hm
    obtain ⟨d, hdir⟩ := s.dinit_iff.mp (by simpa using hd)
    simp only [hdir] at h
    simp only [body, hcfg, requireDirection_of_dir hdir, raiseIf_false, ok_bind]
    cases hin0 : rampInputFinite s.ramp0 az
    case false => rw [rampStep_of_not_rampInputFinite hin0, error_bind]
    case true =>
      rw [rampStep_of_rampInputFinite hin0, ok_bind]
      cases hin1 : rampInputFinite s.ramp1 el
      case false => rw [rampStep_of_not_rampInputFinite hin1, error_bind]
      case true =>
        rw [rampStep_of_rampInputFinite hin1, ok_bind]
        refine updates_of_overflows hs (hs.built_of_dir hdir) ?_
        simpa [hin0, hin1] using h

/-- A command whose tests are met and that meets no non-finite value succeeds. -/
theorem body_of_met {i : Instr} (hm : missingPrerequisite i s = false) (hconf : configOutOfRange i s = false)
    (hchan : channelOutOfRange i = false) (hfin : nonfiniteInput i s = false) : ∃ g, body i s = .ok g := by
  cases i <;> simp only [missingPrerequisite, configOutOfRange, channelOutOfRange, nonfiniteInput] at hm hconf hchan hfin
  case nop | rdstat | clrerr => exact ⟨_, rfl⟩
  case build n => exact ⟨_, by simp only [body, hm, hconf, raiseIf_false, ok_bind]; rfl⟩
  case rnew r n => exact ⟨_, by simp only [body, hconf, raiseIf_false, ok_bind]; rfl⟩
  case lksin x =>
    obtain ⟨y, hy⟩ := lookup_of_isFinite hs (by simpa using hm) (x := x) (by simpa using hfin)
    exact ⟨_, by simp only [body, hm, hy, raiseIf_false, ok_bind]; rfl⟩
  case lkcos x =>
    obtain ⟨y, hy⟩ := lookup_of_isFinite hs (by simpa using hm)
      (isFinite_fadd_quarterOffset hs (x := x) (by simpa using hfin))
    exact ⟨_, by simp only [body, hm, hfin, hy, raiseIf_false, ok_bind]; rfl⟩
  case init theta phi =>
    obtain ⟨htheta, hphi⟩ : axisArgsFinite s theta = true ∧ axisArgsFinite s phi = true := by simpa using hfin
    obtain ⟨mt, hmt⟩ := axisRow_of_args hs (by simpa using hm) htheta
    obtain ⟨mp, hmp⟩ := axisRow_of_args hs (by simpa using hm) hphi
    exact ⟨_, by simp only [body, hm, hmt, hmp, raiseIf_false, ok_bind]; rfl⟩
  case chg theta phi =>
    obtain ⟨d, hdir⟩ := s.dinit_iff.mp (by simpa using hm)
    simp only [hdir, Bool.or_eq_false_iff] at hfin
    obtain ⟨d', d'', ht, hp, -, -⟩ := updates_of_not_overflows hs (hs.built_of_dir hdir) hfin.1 hfin.2
    exact ⟨_, by simp only [body, requireDirection_of_dir hdir, ht, hp, ok_bind]; rfl⟩
  case matrd ax p q =>
    obtain ⟨d, hdir⟩ := s.dinit_iff.mp (by simpa using hm)
    exact ⟨_, by simp only [body, requireDirection_of_dir hdir, ok_bind]; rfl⟩
  case chan k x =>
    obtain ⟨d, hdir⟩ := s.dinit_iff.mp (by simpa using hm)
    have hk : k < 16 := by have := of_decide_eq_false hchan; omega
    exact ⟨_, by simp only [body, requireDirection_of_dir hdir, ok_bind, hk, dite_true]; rfl⟩
  case rproc r x =>
    have hin : rampInputFinite (s.ramp r) x = true := by simpa using hfin
    exact ⟨_, by simp only [body, hm, rampStep_of_rampInputFinite hin, raiseIf_false, ok_bind]; rfl⟩
  case dirstep az el =>
    obtain ⟨hcfg, hd⟩ := Bool.or_eq_false_iff.mp hm
    obtain ⟨d, hdir⟩ := s.dinit_iff.mp (by simpa using hd)
    simp only [hdir, Bool.or_eq_false_iff, Bool.not_eq_false'] at hfin
    obtain ⟨⟨⟨hin0, hin1⟩, htheta⟩, hphi⟩ := hfin
    obtain ⟨d', d'', ht, hp, -, -⟩ := updates_of_not_overflows hs (hs.built_of_dir hdir) htheta hphi
    exact ⟨_, by
      simp only [body, hcfg, requireDirection_of_dir hdir, rampStep_of_rampInputFinite hin0,
        rampStep_of_rampInputFinite hin1, ht, hp, raiseIf_false, ok_bind]
      rfl⟩

end

/-- Settles O45. -/
theorem nonfiniteMeansANonFiniteValue : Obligations.NonfiniteMeansANonFiniteValue := by
  intro i s t hs hm h
  rw [rejected_iff_body h]
  refine ⟨fun hb => ?_, body_of_nonfiniteInput hs hm⟩
  obtain ⟨-, hconf, hchan⟩ : missingPrerequisite i s = false ∧ configOutOfRange i s = false ∧ channelOutOfRange i = false := by
    simpa using cause_cases hb
  by_contra hfin
  obtain ⟨g, hg⟩ := body_of_met hs hm hconf hchan (by simpa using hfin)
  rw [hg] at hb
  cases hb

/-- In a state of the invariants' shape every command answers a next state. -/
theorem exec_next_of_shape {s : State} (hs : s.Shape) (i : Instr) : ∃ t, exec i s = .next t := by
  rw [exec_eq_finish_body]
  cases hm : missingPrerequisite i s
  case true => exact ⟨_, by rw [body_of_missing hm, finish_cause]⟩
  case false =>
    cases hconf : configOutOfRange i s
    case true => exact ⟨_, by rw [body_of_configOutOfRange hm hconf, finish_cause]⟩
    case false =>
      cases hchan : channelOutOfRange i
      case true => exact ⟨_, by rw [body_of_channelOutOfRange hm hchan, finish_cause]⟩
      case false =>
        cases hfin : nonfiniteInput i s
        case true => exact ⟨_, by rw [body_of_nonfiniteInput hs hm hfin, finish_cause]⟩
        case false =>
          obtain ⟨g, hg⟩ := body_of_met hs hm hconf hchan hfin
          exact ⟨_, by rw [hg, finish_ok]⟩

end Sys2Proof.Machine
end

section
/-! PROOFS. The step of the whole machine: the port (30_encoding.md section 6, 10_state.md sections 1 and 10), the idle step and
illegal words (60_exceptions.md sections 1 and 4), reset (70_reset_and_hazards.md section 1). -/

namespace Sys2Proof.Machine

/-! ## The port's fields -/

/-- The state with other values in the fields of the port. -/
def State.withPort (s : State) (r : Option Response) (n : Nat) (p : List HostAction) : State :=
  { s with response := r, position := n, pending := p }

/-- What a command has staged, from a state with other values in the fields of the port. -/
def Staged.withPort (g : Staged) (r : Option Response) (n : Nat) (p : List HostAction) : Staged :=
  { g with state := g.state.withPort r n p }

section
variable (s : State) (r : Option Response) (n : Nat) (p : List HostAction)

theorem lookup_withPort (x : F) : lookup (s.withPort r n p) x = lookup s x := lookup_congr rfl rfl x

theorem axisRow_withPort (v : F) : axisRow (s.withPort r n p) v = axisRow s v := axisRow_congr rfl rfl v

theorem updateTheta_withPort (v : F) (d : Direction) : updateTheta (s.withPort r n p) v d = updateTheta s v d :=
  updateTheta_congr rfl rfl v d

theorem updatePhi_withPort (v : F) (d : Direction) : updatePhi (s.withPort r n p) v d = updatePhi s v d :=
  updatePhi_congr rfl rfl v d

theorem ramp_withPort (i : RampId) : (s.withPort r n p).ramp i = s.ramp i := by cases i <;> rfl

theorem setRamp_withPort (i : RampId) (g : Ramp) : (s.withPort r n p).setRamp i g = (s.setRamp i g).withPort r n p := by
  cases i <;> rfl

end

/-- A sequence of computations whose second part is mapped. -/
theorem bind_map {ε α β γ : Type} (x : Except ε α) (f : α → Except ε β) (m : β → γ) :
    (x >>= f).map m = x >>= fun a => (f a).map m := by
  cases x <;> rfl

/-- No command reads the fields of the port, and each leaves them to the state it stages. -/
theorem body_withPort (i : Instr) (s : State) (r : Option Response) (n : Nat) (p : List HostAction) :
    body i (s.withPort r n p) = (body i s).map fun g => g.withPort r n p := by
  cases i
  case nop | rdstat | clrerr => rfl
  case build m => simp only [body, bind_map]; rfl
  case lksin x => simp only [body, bind_map, lookup_withPort]; rfl
  case lkcos x =>
    have hq : (s.withPort r n p).quarterOffset = s.quarterOffset := rfl
    simp only [body, bind_map, hq, lookup_withPort]; rfl
  case init theta phi => simp only [body, bind_map, axisRow_withPort]; rfl
  case chg theta phi => simp only [body, bind_map, updateTheta_withPort, updatePhi_withPort]; rfl
  case matrd ax q e => simp only [body, bind_map]; rfl
  case chan k x =>
    simp only [body, bind_map]
    congr 1
    funext d
    split <;> rfl
  case rnew i m => simp only [body, bind_map, setRamp_withPort]; rfl
  case rproc i x => simp only [body, bind_map, ramp_withPort, setRamp_withPort]; rfl
  case dirstep az el =>
    simp only [body, bind_map, setRamp_withPort, updateTheta_withPort, updatePhi_withPort]; rfl

theorem exec_withPort {i : Instr} {s t : State} (h : exec i s = .next t) (r : Option Response) (n : Nat)
    (p : List HostAction) : exec i (s.withPort r n p) = .next { t with position := n, pending := p } := by
  rw [exec_eq_finish_body] at h ⊢
  rw [body_withPort]
  rcases finish_next_iff.mp h with ⟨g, hg, rfl⟩ | ⟨c, hc, rfl⟩
  · rw [hg]
    rfl
  · rw [hc]
    rfl

/-! ## The statements about a step -/

/-- Settles O50. -/
theorem stepRunsTheDecodedCommand : Obligations.StepRunsTheDecodedCommand := by
  intro s c rest i hp hd
  rcases step_command hp with ⟨i', hd', hstep⟩ | ⟨e, hd', -⟩
  · obtain rfl : i = i' := by rw [hd] at hd'; injection hd'
    exact hstep
  · rw [hd] at hd'
    cases hd'

/-- Settles O49. -/
theorem positionCountsCommandsUnread : Obligations.PositionCountsCommandsUnread := by
  refine ⟨fun s t c rest hp h => ?_, fun i s t r n p h => exec_withPort h r n p, fun s r => rfl⟩
  rcases step_command hp with ⟨i, -, hstep⟩ | ⟨e, -, hstep⟩
  · obtain ⟨-, hpending, hposition, -⟩ := onlyTheNamedCommandsWrite i _ t (hstep ▸ h)
    exact ⟨hposition, hpending⟩
  · obtain rfl : (s.accept rest).reject .illegal = t := by simpa [hstep] using h
    exact ⟨rfl, rfl⟩

/-- Settles O51. -/
theorem stepRejectsIllegalWordsAndIdles : Obligations.StepRejectsIllegalWordsAndIdles := by
  refine ⟨fun s c rest hp hill => ?_, fun s hp => ?_⟩
  · obtain ⟨e, he⟩ := (decodingRejectsExactlyTheIllegalWords c).mpr hill
    rcases step_command hp with ⟨i, hd, -⟩ | ⟨-, -, hstep⟩
    · rw [he] at hd
      cases hd
    · exact hstep
  · have hstep : step s = .next s.dropResponse := by simpa [hp] using step_cases s
    exact hstep

/-- Settles O52. -/
theorem resetDuringACommandAbandonsIt : Obligations.ResetDuringACommandAbandonsIt := by
  intro s c rest
  refine ⟨fun hp => ?_, fun hp => ?_⟩
  · have hstep : step s = .next (s.afterReset rest) := by simpa [hp] using step_cases s
    exact hstep
  · have hstep : step s = .next (s.afterReset rest) := by simpa [hp] using step_cases s
    exact hstep

/-- Settles O53. -/
theorem resetLeavesNothingBuilt : Obligations.ResetLeavesNothingBuilt :=
  ⟨by decide, rfl, fun _ => rfl, rfl, fun r => by cases r <;> rfl⟩

end Sys2Proof.Machine
end

section
/-! PROOFS. What every step keeps (10_state.md section 8, 41_direction.md section 5, 40_wavetable.md section 1). The induction over
a step is done once (`step_preserves`): a property that the port's fields do not touch, and that reset, a rejection and every
commit keep, is kept by every step. -/

namespace Sys2Proof.Machine

/-! ## The induction over a step -/

theorem step_preserves {P : State → Prop} (hport : ∀ s r n p, P s → P (s.withPort r n p))
    (hreset : ∀ s rest, P s → P (s.afterReset rest)) (hreject : ∀ s c, P s → P (s.reject c))
    (hcommit : ∀ s i u, P s → Commits s i u → P u) {s t : State} (hs : P s) (h : step s = .next t) : P t := by
  have hexec {i : Instr} {s t : State} (hs : P s) (h : exec i s = .next t) : P t := by
    rcases exec_next_cases h with ⟨u, ra, rb, hu, rfl⟩ | ⟨c, -, rfl⟩
    · exact hport u (some (.ok ra rb)) u.position u.pending (hcommit s i u hs hu)
    · exact hreject s c hs
  have haccept (rest : List HostAction) : P (s.accept rest) := hport s none (s.position + 1) rest hs
  rcases step_cases s with ⟨-, hstep⟩ | ⟨rest, -, hstep⟩ | ⟨c, rest, -, hstep⟩ | ⟨c, rest, i, -, -, hstep⟩ |
    ⟨c, rest, e, -, -, hstep⟩ <;> rw [hstep] at h
  · cases h
    exact hport s none s.position s.pending hs
  · cases h
    exact hreset s rest hs
  · cases h
    exact hreset s rest hs
  · exact hexec (haccept rest) h
  · cases h
    exact hreject _ _ (haccept rest)

/-! ## The shape of the ramps -/

theorem u32_sub_one {w : Word} (h : 0 < u32 w) : u32 (w - 1) = u32 w - 1 := by
  have hw : u32 w < 2 ^ 32 := w.isLt
  unfold u32 at *
  rw [BitVec.toNat_sub]
  simp
  omega

theorem bne_zero_iff {w : Word} : (w != 0) = true ↔ 0 < u32 w := by
  rw [bne_iff_ne, ne_eq, ← BitVec.toNat_inj, u32]
  simp [Nat.pos_iff_ne_zero]

theorem RampShape.fresh {c : Config} {n : Word} (h1 : 1 ≤ u32 n) (hle : u32 n ≤ c.bsMax) : RampShape c (Ramp.fresh n) :=
  ⟨by simp [Ramp.fresh, u32], by simp [Ramp.fresh, u32], by simp [Ramp.fresh], fun _ => h1, fun _ => hle⟩

/-- The transition of a constructed ramp keeps its counters in range (10_state.md R35 items 3 and 4). -/
theorem RampShape.next {c : Config} {g : Ramp} (hg : RampShape c g) (hcfg : g.cfg = true) (x : F) :
    RampShape c (g.next x) := by
  have hbs := hg.block_pos hcfg
  have hkeep {g' : Ramp} (hcfg' : g'.cfg = g.cfg) (hbs' : g'.bs = g.bs)
      (hiff : g'.ramping = true ↔ 0 < u32 g'.rem) (hrem : u32 g'.rem ≤ u32 g.bs) : RampShape c g' :=
    ⟨hiff, hbs'.symm ▸ hrem, fun h => by simp [hcfg', hcfg] at h, fun _ => hbs'.symm ▸ hbs,
      fun _ => hbs'.symm ▸ hg.block_le hcfg⟩
  cases hne : fneq x g.pin
  case true =>
    refine hkeep (g.next_cfg x) (g.next_bs x) ?_ ?_ <;> rw [Ramp.next_of_changed hne rfl]
    · exact bne_zero_iff
    · rw [u32_sub_one hbs]
      omega
  case false =>
    cases hr : g.ramping
    case true =>
      have hpos := hg.ramping_iff.mp hr
      have hle := hg.rem_le
      refine hkeep (g.next_cfg x) (g.next_bs x) ?_ ?_ <;> rw [Ramp.next_of_ramping hne hr]
      · exact bne_zero_iff
      · rw [u32_sub_one hpos]
        omega
    case false =>
      refine hkeep (g.next_cfg x) (g.next_bs x) ?_ ?_ <;> rw [Ramp.next_of_idle hne hr]
      · exact hg.ramping_iff
      · exact hg.rem_le

theorem RampShape.step {c : Config} {g g' : Ramp} {x : F} (hg : RampShape c g) (hcfg : g.cfg = true)
    (h : rampStep g x = .ok g') : RampShape c g' := by
  obtain ⟨-, -, -, rfl⟩ := rampStep_ok_iff.mp h
  exact hg.next hcfg x

/-! ## The shape of the state -/

theorem TableShape.of_eq {s u : State} (hs : TableShape s) (hcfg : u.cfg = s.cfg) (htlen : u.tlen = s.tlen)
    (htbl : u.tbl = s.tbl) : TableShape u := by
  have hlen : u.tableLen = s.tableLen := by rw [State.tableLen, State.tableLen, htlen]
  have hbuilt : u.built = s.built := by rw [State.built, State.built, htlen]
  exact ⟨htbl ▸ hs.wf, by rw [hlen, hcfg]; exact hs.len_le, fun h => by rw [htbl]; exact hs.unbuilt (hbuilt ▸ h),
    fun h i => by rw [htbl, hlen]; exact hs.held (hbuilt ▸ h) i⟩

/-- A state with the same table and parameters keeps the shape if its ramps, its error record and DINIT do. -/
theorem State.Shape.of_eq {s u : State} (hs : s.Shape) (hcfg : u.cfg = s.cfg) (htlen : u.tlen = s.tlen)
    (htbl : u.tbl = s.tbl) (hdinit : u.dinit = true → s.built = true) (hramps : ∀ r, RampShape s.cfg (u.ramp r))
    (hiff : u.lastCause = 0 ↔ u.sticky = 0) (hle : u.lastCause.toNat ≤ 5) : u.Shape where
  config := hcfg ▸ hs.config
  table := hs.table.of_eq hcfg htlen htbl
  dinit_built h := by rw [State.built, htlen]; exact hdinit h
  ramps r := hcfg ▸ hramps r
  cause_iff := hiff
  cause_le := hle

theorem State.Shape.withPort {s : State} (hs : s.Shape) (r : Option Response) (n : Nat) (p : List HostAction) :
    (s.withPort r n p).Shape :=
  hs.of_eq rfl rfl rfl hs.dinit_built (fun i => by rw [ramp_withPort]; exact hs.ramps i) hs.cause_iff hs.cause_le

theorem State.Shape.reject {s : State} (hs : s.Shape) (c : Cause) : (s.reject c).Shape := by
  refine hs.of_eq rfl rfl rfl hs.dinit_built (fun r => by simpa using hs.ramps r) ?_ ?_
  · have hcode : (s.reject c).lastCause ≠ 0 := by cases c <;> simp [causeCode]
    have hbit : (s.reject c).sticky ≠ 0 := by
      rw [State.reject_sticky]
      intro h
      have hor := BitVec.or_eq_zero_iff.mp h
      cases c <;> simp [stickyBit] at hor
    exact iff_of_false hcode hbit
  · rw [State.reject_lastCause]
    cases c <;> decide

/-- What reset leaves meets the presence and integer invariants under any legal parameters. -/
theorem State.Shape.afterReset {s : State} (hs : s.Shape) (rest : List HostAction) : (s.afterReset rest).Shape := by
  have hramp : RampShape s.cfg Ramp.reset := ⟨by decide, by decide, fun _ => rfl, fun h => (by cases h), fun h => (by cases h)⟩
  exact ⟨hs.config, ⟨List.Pairwise.nil, Nat.zero_le _, fun _ => rfl, fun h => (by cases h)⟩, fun h => (by cases h),
    fun r => (by cases r <;> exact hramp), by simp [State.afterReset, State.reset], Nat.zero_le _⟩

theorem State.Shape.setTable {s : State} (hs : s.Shape) {n : Word} (hb : s.built = false) (h1 : 1 ≤ u32 n)
    (hle : u32 n ≤ s.cfg.lMax) : (s.setTable n (buildTable s.cfg (u32 n) s.tbl)).Shape where
  config := hs.config
  table := by
    have hempty := hs.table.unbuilt hb
    refine ⟨buildTable_wf _ _ hs.table.wf, hle, fun h => ?_, fun _ i => ?_⟩
    · rw [State.built_eq_decide, decide_eq_false_iff_not, not_not] at h
      rw [State.setTable_tlen] at h
      rw [h] at h1
      cases h1
    · rw [State.setTable_tbl, read_buildTable, hempty]
      show _ ↔ i ≤ u32 n
      split
      · simp; omega
      · split <;> simp <;> omega
  dinit_built h := by
    have := hs.dinit_built h
    rw [hb] at this
    cases this
  ramps r := by simpa using hs.ramps r
  cause_iff := hs.cause_iff
  cause_le := hs.cause_le

theorem State.Shape.setDir {s : State} (hs : s.Shape) (hb : s.built = true) (d : Direction) : (s.setDir d).Shape :=
  hs.of_eq rfl rfl rfl (fun _ => hb) (fun r => by simpa using hs.ramps r) hs.cause_iff hs.cause_le

theorem State.Shape.setRamp {s : State} (hs : s.Shape) {r : RampId} {g : Ramp} (hg : RampShape s.cfg g) :
    (s.setRamp r g).Shape := by
  refine hs.of_eq (by simp) (by simp) (by simp) (fun h => hs.dinit_built (by simpa using h)) (fun r' => ?_)
    (by simpa using hs.cause_iff) (by simpa using hs.cause_le)
  by_cases hr : r' = r
  · subst hr
    simpa using hg
  · rw [s.setRamp_ramp_other g hr]
    exact hs.ramps r'

theorem State.Shape.clearErrors {s : State} (hs : s.Shape) : s.clearErrors.Shape :=
  hs.of_eq rfl rfl rfl hs.dinit_built (fun r => by simpa using hs.ramps r) (by simp) (by simp)

theorem State.Shape.commits {s u : State} {i : Instr} (hs : s.Shape) (hu : Commits s i u) : u.Shape := by
  cases hu
  case same => exact hs
  case build hb h1 hle => exact hs.setTable hb h1 hle
  case init hb _ _ => exact hs.setDir hb _
  case chg hdir _ _ => exact hs.setDir (hs.built_of_dir hdir) _
  case rnew h1 hle => exact hs.setRamp (.fresh h1 hle)
  case rproc hcfg hg => exact hs.setRamp ((hs.ramps _).step hcfg hg)
  case dirstep h0 h1 hdir hg0 hg1 _ _ =>
    have haz := hs.setRamp (r := .az) ((hs.ramps .az).step h0 hg0)
    have hel := haz.setRamp (r := .el) ((hs.ramps .el).step h1 hg1)
    exact hel.setDir (hs.built_of_dir hdir) _
  case clrerr => exact hs.clearErrors

/-- Settles O55. -/
theorem stepKeepsTheShape : Obligations.StepKeepsTheShape := fun _ _ =>
  step_preserves (fun _ r n p hs => hs.withPort r n p) (fun _ rest hs => hs.afterReset rest) (fun _ c hs => hs.reject c)
    fun _ _ _ hs hu => hs.commits hu

/-! ## Every run goes on -/

/-- Settles O58. -/
theorem noStateIsStuck : Obligations.NoStateIsStuck := by
  intro s hs
  rcases step_cases s with ⟨-, hstep⟩ | ⟨rest, -, hstep⟩ | ⟨c, rest, -, hstep⟩ | ⟨c, rest, i, -, -, hstep⟩ |
    ⟨c, rest, e, -, -, hstep⟩ <;> rw [hstep]
  · exact ⟨_, rfl⟩
  · exact ⟨_, rfl⟩
  · exact ⟨_, rfl⟩
  · exact exec_next_of_shape (hs.withPort none (s.position + 1) rest) i
  · exact ⟨_, rfl⟩

/-- The number of responses a host action gets: one for a command that no reset interrupts. -/
def HostAction.responses : HostAction → Nat
  | .command _ => 1
  | .reset => 0
  | .resetDuring _ => 0

theorem length_response_of_exec {i : Instr} {s t : State} (h : exec i s = .next t) : t.response.toList.length = 1 := by
  rcases exec_next_cases h with ⟨u, ra, rb, -, rfl⟩ | ⟨c, -, rfl⟩ <;> rfl

/-- The step on one host action answers as often as the action is a command. -/
theorem length_response_of_step {s t : State} {a : HostAction} {rest : List HostAction} (hp : s.pending = a :: rest)
    (h : step s = .next t) : t.response.toList.length = HostAction.responses a := by
  cases a
  case command c =>
    rcases step_command hp with ⟨i, -, hstep⟩ | ⟨e, -, hstep⟩
    · exact length_response_of_exec (hstep ▸ h)
    · obtain rfl : (s.accept rest).reject .illegal = t := by simpa [hstep] using h
      rfl
  case reset =>
    have hstep := (resetDuringACommandAbandonsIt s ⟨0, 0, 0⟩ rest).1 hp
    obtain rfl : s.afterReset rest = t := Host.Outcome.next.inj (hstep.symm.trans h)
    rfl
  case resetDuring c =>
    have hstep := (resetDuringACommandAbandonsIt s c rest).2 hp
    obtain rfl : s.afterReset rest = t := Host.Outcome.next.inj (hstep.symm.trans h)
    rfl

/-- Settles O59, by induction on the host's actions. -/
theorem everyRunAnswersEachCommand : Obligations.EveryRunAnswersEachCommand := by
  intro acts
  induction acts with
  | nil => exact fun s hs => ⟨[], s, rfl, hs, rfl⟩
  | cons a acts ih =>
    intro s hs
    have hport := hs.withPort s.response s.position [a]
    obtain ⟨t, hstep⟩ := noStateIsStuck _ hport
    obtain ⟨rs, u, hrun, hu, hlen⟩ := ih t (stepKeepsTheShape _ _ hport hstep)
    have hresponse := length_response_of_step rfl hstep
    change step { s with pending := [a] } = .next t at hstep
    refine ⟨t.response.toList ++ rs, u, by rw [observe, hstep]; simp only [hrun], hu, ?_⟩
    rw [List.length_append, hresponse, hlen, List.countP_cons, Nat.add_comm]
    cases a <;> rfl

/-! ## The table words and what is looked up from them -/

theorem inUnit_sinTable {c : Config} (hc : ConfigOk c) (len i : Nat) : inUnit (sinTable c len i) = true := by
  rw [sinTable]
  split
  · next w hw =>
    obtain ⟨l₁, l₂, hmem, -⟩ := List.lookup_eq_some_iff.mp hw
    exact hc.sin_unit ((len, i), w) (by simp [hmem])
  · exact inUnit_defaultSin len i

theorem TableValues.of_eq {s u : State} (hs : TableValues s) (htlen : u.tlen = s.tlen) (htbl : u.tbl = s.tbl) :
    TableValues u := by
  have hbuilt : u.built = s.built := by rw [State.built, State.built, htlen]
  refine ⟨fun h i w hw => hs.unit (hbuilt ▸ h) i w (htbl ▸ hw), fun h => ?_⟩
  rw [State.tableLen, htlen, htbl]
  exact hs.guard (hbuilt ▸ h)

/-- The table memory a BUILD leaves where there was none. -/
theorem read_built (c : Config) (len i : Nat) :
    (buildTable c len []).read i = if i < len then some (sinTable c len i) else if i = len then some 0 else none :=
  read_buildTable c len [] i

theorem TableValues.setTable {s : State} (hs : s.Shape) (hb : s.built = false) (n : Word) :
    TableValues (s.setTable n (buildTable s.cfg (u32 n) s.tbl)) := by
  rw [hs.table.unbuilt hb]
  refine ⟨fun _ i w hw => ?_, fun _ => ?_⟩
  · rw [State.setTable_tbl, read_built] at hw
    split at hw
    · cases hw
      exact inUnit_sinTable hs.config _ _
    · split at hw <;> cases hw
      decide
  · show (buildTable s.cfg (u32 n) []).read (u32 n) = some 0
    rw [read_built, if_neg (lt_irrefl _), if_pos rfl]

section
variable {s : State} (hs : s.Shape) (hv : TableValues s) (hb : s.built = true)
include hs hv hb

/-- Lookup in a table of words in [-1, 1] answers one (40_wavetable.md section 6). -/
theorem inUnit_of_lookup {x y : F} (h : lookup s x = .ok y) : inUnit y = true := by
  obtain ⟨-, a, b, ha, hb', rfl⟩ := lookup_ok_iff.mp h
  have hlen := one_le_tableLen hb
  have hle := tableLen_le hs
  obtain ⟨hfin, hneg, -⟩ := wrap_range hlen hle x
  have hfloor := floorF_wrap_lt hlen hle x
  obtain ⟨hvalue, hffin, h0, h1⟩ := fsub_toF_floorF hneg hfin (by omega)
  exact inUnit_interpolate (hv.unit hb _ _ ha) (hv.unit hb _ _ hb') hffin (hvalue ▸ h0) (hvalue ▸ h1)

theorem inUnit_of_axisRow {v : F} {m : AxisMatrix} (h : axisRow s v = .ok m) (p : Phase) (q : Fin 3) :
    inUnit (m.entry p q) = true := by
  obtain ⟨hdirect, hquarter⟩ := axisEntriesAreScaledLookups s v m h q
  cases p
  · exact inUnit_of_lookup hs hv hb hdirect
  · exact inUnit_of_lookup hs hv hb hquarter

end

/-- A value that AxisRow accepts is finite, because its scaled argument is. -/
theorem isFinite_of_axisRow {s : State} {v : F} {m : AxisMatrix} (h : axisRow s v = .ok m) : isFinite v = true := by
  obtain ⟨hlookup, -⟩ := axisRow_ok_iff.mp h
  obtain ⟨hfin, -⟩ := lookup_ok_iff.mp hlookup
  exact isFinite_of_isFinite_fmul (isFinite_of_isFinite_fmul hfin)

/-! ## All eight invariants -/

theorem RampFinite.reset : RampFinite Ramp.reset := ⟨by decide, by decide, by decide⟩

theorem RampFinite.fresh (n : Word) : RampFinite (Ramp.fresh n) :=
  ⟨isFinite_pack_zero false, isFinite_pack_zero false, isFinite_pack_zero false⟩

/-- A ramp step that answers has tested all three numbers it leaves (43_ramp.md R171). -/
theorem RampFinite.step {g g' : Ramp} {x : F} (h : rampStep g x = .ok g') : RampFinite g' := by
  obtain ⟨hx, hinc, hpout, rfl⟩ := rampStep_ok_iff.mp h
  exact ⟨by rwa [Ramp.next_pin], hpout, hinc⟩

section
variable {s : State} (hs : s.Inv)
include hs

theorem DirectionValues.init (hb : s.built = true) {theta phi : F} {mt mp : AxisMatrix} (ht : axisRow s theta = .ok mt)
    (hp : axisRow s phi = .ok mp) : DirectionValues { t := mt, p := mp, thb := theta, phb := phi } :=
  ⟨inUnit_of_axisRow hs.shape hs.tableValues hb ht, inUnit_of_axisRow hs.shape hs.tableValues hb hp,
    isFinite_of_axisRow ht, isFinite_of_axisRow hp⟩

/-- Each half of an update keeps the values of the direction, whether it recomputes or not. -/
theorem DirectionValues.updates (hb : s.built = true) {a e : F} {d d' d'' : Direction} (hd : DirectionValues d)
    (ht : updateTheta s a d = .ok d') (hp : updatePhi s e d' = .ok d'') : DirectionValues d'' := by
  have hd' : DirectionValues d' := by
    rcases updateTheta_ok_iff.mp ht with ⟨-, m, hm, rfl⟩ | ⟨-, rfl⟩
    · exact ⟨inUnit_of_axisRow hs.shape hs.tableValues hb hm, hd.p_unit, isFinite_of_axisRow hm, hd.phb_finite⟩
    · exact hd
  rcases updatePhi_ok_iff.mp hp with ⟨-, m, hm, rfl⟩ | ⟨-, rfl⟩
  · exact ⟨hd'.t_unit, inUnit_of_axisRow hs.shape hs.tableValues hb hm, hd'.thb_finite, isFinite_of_axisRow hm⟩
  · exact hd'

theorem State.Inv.withPort (r : Option Response) (n : Nat) (p : List HostAction) : (s.withPort r n p).Inv :=
  ⟨hs.shape.withPort r n p, fun i => by rw [ramp_withPort]; exact hs.rampsFinite i, hs.tableValues.of_eq rfl rfl, hs.direction⟩

theorem State.Inv.reject (c : Cause) : (s.reject c).Inv :=
  ⟨hs.shape.reject c, fun r => by simpa using hs.rampsFinite r, hs.tableValues.of_eq rfl rfl, hs.direction⟩

theorem State.Inv.afterReset (rest : List HostAction) : (s.afterReset rest).Inv := by
  refine ⟨hs.shape.afterReset rest, fun r => ?_, ⟨fun h => ?_, fun h => ?_⟩, fun d h => ?_⟩
  · cases r <;> exact .reset
  · cases h
  · cases h
  · cases h

theorem State.Inv.setTable {n : Word} (hb : s.built = false) (h1 : 1 ≤ u32 n) (hle : u32 n ≤ s.cfg.lMax) :
    (s.setTable n (buildTable s.cfg (u32 n) s.tbl)).Inv :=
  ⟨hs.shape.setTable hb h1 hle, fun r => by simpa using hs.rampsFinite r, .setTable hs.shape hb n, hs.direction⟩

theorem State.Inv.setDir {d : Direction} (hb : s.built = true) (hd : DirectionValues d) : (s.setDir d).Inv :=
  ⟨hs.shape.setDir hb d, fun r => by simpa using hs.rampsFinite r, hs.tableValues.of_eq rfl rfl, fun d' h => by
    cases h
    exact hd⟩

theorem State.Inv.setRamp {r : RampId} {g : Ramp} (hg : RampShape s.cfg g) (hf : RampFinite g) : (s.setRamp r g).Inv := by
  refine ⟨hs.shape.setRamp hg, fun r' => ?_, hs.tableValues.of_eq (by simp) (by simp), by simpa using hs.direction⟩
  by_cases hr : r' = r
  · subst hr
    simpa using hf
  · rw [s.setRamp_ramp_other g hr]
    exact hs.rampsFinite r'

theorem State.Inv.clearErrors : s.clearErrors.Inv :=
  ⟨hs.shape.clearErrors, fun r => by simpa using hs.rampsFinite r, hs.tableValues.of_eq rfl rfl, hs.direction⟩

theorem State.Inv.commits {u : State} {i : Instr} (hu : Commits s i u) : u.Inv := by
  cases hu
  case same => exact hs
  case build hb h1 hle => exact hs.setTable hb h1 hle
  case init hb ht hp => exact hs.setDir hb (.init hs hb ht hp)
  case chg hdir ht hp =>
    have hb := hs.shape.built_of_dir hdir
    exact hs.setDir hb (.updates hs hb (hs.direction _ hdir) ht hp)
  case rnew h1 hle => exact hs.setRamp (.fresh h1 hle) (.fresh _)
  case rproc hcfg hg => exact hs.setRamp ((hs.shape.ramps _).step hcfg hg) (.step hg)
  case dirstep h0 h1 hdir hg0 hg1 ht hp =>
    have hb := hs.shape.built_of_dir hdir
    have haz := hs.setRamp (r := .az) ((hs.shape.ramps .az).step h0 hg0) (.step hg0)
    have hel := haz.setRamp (r := .el) ((hs.shape.ramps .el).step h1 hg1) (.step hg1)
    exact hel.setDir hb (.updates hs hb (hs.direction _ hdir) ht hp)
  case clrerr => exact hs.clearErrors

end

/-- Settles O56. -/
theorem stepKeepsTheInvariants : Obligations.StepKeepsTheInvariants := fun _ _ =>
  step_preserves (fun _ r n p hs => hs.withPort r n p) (fun _ rest hs => hs.afterReset rest) (fun _ c hs => hs.reject c)
    fun _ _ _ hs hu => hs.commits hu

/-- Settles O54. -/
theorem resetMeetsTheInvariants : Obligations.ResetMeetsTheInvariants := by
  have hconfig : ConfigOk Config.default :=
    ⟨by decide, by decide, by decide, by decide, by simp [Config.default], by simp [Config.default]⟩
  have hramp : RampShape Config.default Ramp.reset := ⟨by decide, by decide, fun _ => rfl, by decide, by decide⟩
  have hramps (r : RampId) : State.reset.ramp r = Ramp.reset := by cases r <;> rfl
  refine ⟨⟨hconfig, ⟨reset_tbl_wf, Nat.zero_le _, fun _ => rfl, fun h => ?_⟩, fun h => ?_, fun r => ?_, by decide, by decide⟩,
    fun r => ?_, ⟨fun h => ?_, fun h => ?_⟩, fun d h => ?_⟩
  · cases h
  · cases h
  · rw [hramps]
    exact hramp
  · rw [hramps]
    exact .reset
  · cases h
  · cases h
  · cases h

/-! ## The table stays as BUILD wrote it -/

/-- The table memory of any state between steps: as BUILD wrote it, or empty. -/
def State.TableKept (s : State) : Prop := s.TableAsBuilt ∧ (s.built = false → s.tbl = [])

theorem State.TableKept.of_eq {s u : State} (hs : s.TableKept) (hcfg : u.cfg = s.cfg) (htlen : u.tlen = s.tlen)
    (htbl : u.tbl = s.tbl) : u.TableKept := by
  obtain ⟨hbuilt, hempty⟩ := hs
  have hb : u.built = s.built := by rw [State.built, State.built, htlen]
  refine ⟨fun h i => ?_, fun h => by rw [htbl]; exact hempty (hb ▸ h)⟩
  rw [htbl, State.tableLen, htlen, hcfg]
  exact hbuilt (hb ▸ h) i

theorem State.TableKept.commits {s u : State} {i : Instr} (hs : s.TableKept) (hu : Commits s i u) : u.TableKept := by
  have hf := hu.frameOf
  cases hu
  case build n hb h1 hle =>
    refine ⟨fun _ i => ?_, fun h => ?_⟩
    · rw [hs.2 hb]
      exact read_built s.cfg (u32 n) i
    · have htlen : n ≠ 0 := by
        rintro rfl
        exact absurd h1 (by decide)
      rw [State.built_eq_decide, State.setTable_tlen] at h
      exact absurd htlen (by simpa using h)
  case same => exact hs
  all_goals
    obtain ⟨htlen, htbl⟩ := hf.table (by simp)
    exact hs.of_eq hf.cfg htlen htbl

/-- Settles O57. -/
theorem stepKeepsTheTableAsBuilt : Obligations.StepKeepsTheTableAsBuilt := by
  intro s t hbuilt hempty h
  exact step_preserves (P := State.TableKept) (fun _ _ _ _ hs => hs.of_eq rfl rfl rfl)
    (fun _ _ _ => ⟨fun h => (by cases h), fun _ => rfl⟩) (fun _ _ hs => hs.of_eq rfl rfl rfl)
    (fun _ _ _ hs hu => hs.commits hu) ⟨hbuilt, hempty⟩ h

/-! ## The matrices stay those of their baselines -/

/-- The two matrices are those of their baselines in the table of `s`. -/
def Direction.Fresh (d : Direction) (s : State) : Prop := axisRow s d.thb = .ok d.t ∧ axisRow s d.phb = .ok d.p

theorem Direction.Fresh.congr {d : Direction} {s u : State} (hd : d.Fresh s) (htlen : u.tlen = s.tlen)
    (htbl : u.tbl = s.tbl) : d.Fresh u := by
  rw [Direction.Fresh, axisRow_congr htlen htbl, axisRow_congr htlen htbl]
  exact hd

theorem Direction.Fresh.updates {s : State} {a e : F} {d d' d'' : Direction} (hd : d.Fresh s)
    (ht : updateTheta s a d = .ok d') (hp : updatePhi s e d' = .ok d'') : d''.Fresh s := by
  have hd' : d'.Fresh s := by
    rcases updateTheta_ok_iff.mp ht with ⟨-, m, hm, rfl⟩ | ⟨-, rfl⟩
    · exact ⟨hm, hd.2⟩
    · exact hd
  rcases updatePhi_ok_iff.mp hp with ⟨-, m, hm, rfl⟩ | ⟨-, rfl⟩
  · exact ⟨hd'.1, hm⟩
  · exact hd'

/-- The direction of any state between steps: fresh, and only over a built table. -/
def State.DirectionKept (s : State) : Prop := s.MatricesFresh ∧ (s.dinit = true → s.built = true)

theorem State.DirectionKept.of_eq {s u : State} (hs : s.DirectionKept) (htlen : u.tlen = s.tlen) (htbl : u.tbl = s.tbl)
    (hdir : u.dir = s.dir) : u.DirectionKept := by
  refine ⟨fun d h => ?_, fun h => ?_⟩
  · have hd : d.Fresh s := hs.1 d (hdir ▸ h)
    exact hd.congr htlen htbl
  · rw [State.built, htlen]
    exact hs.2 (by rwa [State.dinit, ← hdir])

theorem State.DirectionKept.built_of_dir {s : State} (hs : s.DirectionKept) {d : Direction} (hdir : s.dir = some d) :
    s.built = true :=
  hs.2 (s.dinit_iff.mpr ⟨d, hdir⟩)

/-- A write of a direction that is fresh in the table it is written over. -/
theorem State.DirectionKept.setDir {s : State} {d : Direction} (hb : s.built = true) (hd : d.Fresh s) :
    (s.setDir d).DirectionKept := by
  refine ⟨fun d' h => ?_, fun _ => hb⟩
  cases h
  exact hd.congr rfl rfl

theorem State.DirectionKept.commits {s u : State} {i : Instr} (hs : s.DirectionKept) (hu : Commits s i u) :
    u.DirectionKept := by
  have hf := hu.frameOf
  cases hu
  case build n hb h1 hle =>
    have hnone (d : Direction) : s.dir ≠ some d := fun hdir => by simpa [hb] using hs.built_of_dir hdir
    have hdinit : s.dinit ≠ true := fun h => by simpa [hb] using hs.2 h
    exact ⟨fun d h => absurd h (hnone d), fun h => absurd h hdinit⟩
  case init hb ht hp => exact .setDir hb ⟨ht, hp⟩
  case chg hdir ht hp => exact .setDir (hs.built_of_dir hdir) (.updates (hs.1 _ hdir) ht hp)
  case dirstep d d' d'' g0 g1 h0 h1 hdir hg0 hg1 ht hp =>
    have hd : d''.Fresh s := .updates (hs.1 _ hdir) ht hp
    exact .setDir (hs.built_of_dir hdir) (hd.congr rfl rfl)
  case same => exact hs
  all_goals
    obtain ⟨htlen, htbl⟩ := hf.table (by simp)
    exact hs.of_eq htlen htbl (hf.dir (by simp))

/-- Settles O29. -/
theorem stepKeepsTheMatricesFresh : Obligations.StepKeepsTheMatricesFresh := by
  intro s t hfresh hbuilt h
  exact step_preserves (P := State.DirectionKept) (fun _ _ _ _ hs => hs.of_eq rfl rfl rfl)
    (fun _ _ _ => ⟨fun _ h => (by cases h), fun h => (by cases h)⟩) (fun _ _ hs => hs.of_eq rfl rfl rfl)
    (fun _ _ _ hs hu => hs.commits hu) ⟨hfresh, hbuilt⟩ h

end Sys2Proof.Machine
end
